-- ==== Sys2Proof/Word.lean ====
section
/-! DEFINITION. Bytes, pixels and the cache's shape (00_scope.md R10 to R15).

A byte address, a byte count and every register of ADDR_BITS bits is a `Nat`: the width is an open
parameter, and the bound 2^ADDR_BITS is part of the invariant `Safety.Inv` (log 2). -/

namespace Sys2Proof

/-- An unsigned 8-bit value (R10). -/
abbrev Byte := BitVec 8

/-- A pixel is a record of four bytes (R13). Equality is equality of all four bytes. -/
structure Pixel where
  r : Byte
  g : Byte
  b : Byte
  a : Byte
  deriving DecidableEq, Repr, Inhabited

namespace Pixel

/-- INIT_PIXEL (R7, R22): opaque black. -/
def initial : Pixel := ⟨0, 0, 0, 255⟩

/-- INIT_SLOT (R7, R92): what every cache slot holds at command start. -/
def blank : Pixel := ⟨0, 0, 0, 0⟩

end Pixel

/-- CACHE_SLOTS (R7). -/
abbrev cacheSlots : Nat := 64

/-- A cache slot number, 0..63 (R31). -/
abbrev Slot := Fin cacheSlots

/-- One engine's pixel cache (R31): 64 slots of one pixel. -/
abbrev PixelCache := Vector Pixel cacheSlots

end Sys2Proof
end

