-- ==== Sys2Proof/Config.lean ====
section
/-! DEFINITION. The implementation parameters (00_scope.md R7, R8) and the free values. -/

namespace Sys2Proof

/-- The parameters the source leaves open (R8, D13, D14, D17). -/
structure Config where
  /-- ADDR_BITS less 32. R8 asks for an integer of at least 32, so every value is legal. -/
  addrBitsAbove32 : Nat
  /-- MAGIC, the four bytes at frame offset 0. -/
  magic : Vector Byte 4
  /-- TRAILER, the eight bytes the encoder writes at the frame's end. -/
  trailer : Vector Byte 8
  deriving DecidableEq, Repr, Inhabited

namespace Config

/-- ADDR_BITS (R8). -/
def addrBits (cfg : Config) : Nat := 32 + cfg.addrBitsAbove32

/-- The size of host memory in bytes, 2^ADDR_BITS (R43). -/
def memSize (cfg : Config) : Nat := 2 ^ cfg.addrBits

/-- The parameters of the block at hand. The spec leaves them OPEN, so no proof can see them
(log 1). -/
opaque block : Config

/-- Free value of U6: which of the values that are open to the n-th host load of a byte whose visibility
is not settled it returns, the byte of a running command's write region included, counted in the order of
`visibleBytes` and wrapping (R58, log 6). -/
opaque seesByte : Nat → Nat

end Config

/-- HEADER_BYTES (R7). -/
abbrev headerBytes : Nat := 14

/-- TRAILER_BYTES (R7). -/
abbrev trailerBytes : Nat := 8

/-- MIN_FRAME = HEADER_BYTES + TRAILER_BYTES (R7). -/
abbrev minFrame : Nat := 22

/-- ENC_RUN_MAX (R8, D10). -/
abbrev encRunMax : Nat := 61

end Sys2Proof
end

