-- ==== Sys2Proof/Syntax.lean ====
section
/-! DEFINITION. The six opcodes (R2, R80), one constructor per row of spec/opcode_table.json. The
operands are those of the assembler syntax (R84). -/

namespace Sys2Proof

/-- QOIR's closed set of opcodes (R80). -/
inductive Instr where
  /-- RGB literal (R68, R100). -/
  | rgb (r g b : Byte)
  /-- RGBA literal (R69, R101). -/
  | rgba (r g b a : Byte)
  /-- INDEX k (R70, R102). -/
  | index (k : Slot)
  /-- DIFF dr, dg, db, each −2..+1 (R71, R103). -/
  | diff (dr dg db : Int)
  /-- LUMA vg, drg, dbg with vg in −32..+31 and drg, dbg in −8..+7 (R72, R104). -/
  | luma (vg drg dbg : Int)
  /-- RUN n with n the stored field 0..61; the run is n + 1 pixels (R73, R105). -/
  | run (n : Nat)
  deriving DecidableEq, Repr

end Sys2Proof
end

