-- ==== Sys2Proof/Machine/State.lean ====
section
/-! DEFINITION. The block's state as plain data (10_state.md), its reset value, and the reasons a
step can stop. -/

namespace Sys2Proof.Machine

/-- STATUS.CODE: the result of the last command (R37, R145). Codes 6 and 7 are never written. -/
inductive Code where
  | ok
  | invalidArgument
  | invalidData
  | outOfMemory
  | unsupportedPixelFormat
  | unsupportedPixelBuffer
  deriving DecidableEq, Repr

/-- STATUS of an engine (R37), held by its named parts. Bits 5:3 read as 0. The byte the host reads
is `statusByte`. -/
structure Status where
  code : Code
  busy : Bool
  done : Bool
  deriving DecidableEq, Repr

/-- Host memory (R43): the bytes listed, addresses strictly rising, none equal to what an unlisted
address reads as (log 3). -/
abbrev Memory := List Host.Cell

/-- A region [base, base + len) of host memory (R44). -/
structure Region where
  base : Nat
  len : Nat
  deriving DecidableEq, Repr

/-- What `ReadHeader()` returns (R137). -/
structure Header where
  magic : Vector Byte 4
  width : BitVec 32
  height : BitVec 32
  channels : Byte
  colorspace : Byte
  deriving DecidableEq, Repr

/-- The decoder engine DEC: its fields (R35) and its working state (R21). -/
structure Decoder where
  cmd : Byte
  frameBase : Nat
  frameLen : Nat
  dstBase : Nat
  dstCap : Nat
  outChReq : Byte
  status : Status
  outLen : Nat
  hdrWidth : BitVec 32
  hdrHeight : BitVec 32
  hdrChannels : Byte
  hdrColorspace : Byte
  cur : Pixel
  cache : PixelCache
  runcnt : BitVec 6
  sp : Nat
  pix : Nat
  n : Nat
  limit : Nat
  srcCh : Byte
  outCh : Byte
  fb : Nat
  db : Nat
  deriving DecidableEq, Repr

/-- The encoder engine ENC: its fields (R36) and its working state (R27). -/
structure Encoder where
  cmd : Byte
  srcBase : Nat
  width : BitVec 32
  height : BitVec 32
  channels : Byte
  stride : Nat
  outBase : Nat
  outCap : Nat
  colorspace : Byte
  status : Status
  outLen : Nat
  cur : Pixel
  cache : PixelCache
  runacc : BitVec 6
  pix : Nat
  op : Nat
  n : Nat
  ch : Byte
  sb : Nat
  ob : Nat
  deriving DecidableEq, Repr

/-- The two engines (R3, R157). -/
inductive Engine where
  | dec
  | enc
  deriving DecidableEq, Repr

/-- The three agents (R19). -/
inductive Agent where
  | host
  | dec
  | enc
  deriving DecidableEq, Repr

/-- One move of the host (R19, R34, R163). -/
inductive HostOp where
  /-- `HostWrite(engine, no, v)`. -/
  | writeField (e : Engine) (no v : Nat)
  /-- `HostRead(engine, no)`. -/
  | readField (e : Engine) (no : Nat)
  /-- The host stores a byte in its memory. -/
  | writeByte (a : Nat) (v : Byte)
  /-- The host loads a byte of its memory. -/
  | readByte (a : Nat)
  deriving DecidableEq, Repr

/-- The host as the block sees it; all three fields are the model's own (log 5, log 6). -/
structure HostPort where
  /-- Pending moves, the next one first. -/
  todo : List HostOp
  /-- What the reads returned, the latest first. -/
  answers : List Nat
  /-- How many host loads have drawn on the free value `Config.seesByte`. -/
  reads : Nat
  deriving DecidableEq, Repr

/-- The model's own record of a byte that an engine has written and whose write the host need not see
yet (R58, U6, log 6). -/
structure Unseen where
  addr : Nat
  writer : Engine
  /-- The byte's value before the write. -/
  old : Byte
  deriving DecidableEq, Repr

/-- The whole machine. -/
structure State where
  dec : Decoder
  enc : Encoder
  mem : Memory
  /-- Engine writes the host need not see yet, at most one for an address (R58, log 6). -/
  unseen : List Unseen
  host : HostPort
  /-- The agents that move in the next steps, the next one first (U8, log 4). -/
  turns : List Agent
  deriving DecidableEq, Repr

/-- Why the machine stops with a fault. -/
inductive Fault where
  /-- An access at or above 2^ADDR_BITS, an address host memory does not have (R43). Raised by the
  engines' steps only in states no run reaches, because the start checks bound every region (R45),
  and by the host's own byte moves. Safe: the machine stops (log 9). -/
  | addressOutsideMemory (a : Nat)
  deriving DecidableEq, Repr

/-- Why a step has no meaning. -/
inductive Refusal where
  /-- An opcode without a meaning, by its table mnemonic. No arm of `exec` raises it. -/
  | notModelled (mnemonic : String)
  /-- A command start whose regions meet those of the command the other engine runs: the spec gives
  the host no such move (R59, R168, U9). Raised by the start step. Safe (log 8). -/
  | runningRegionsOverlap
  /-- The host writes a byte of a running command's regions: the spec gives the host no such move
  (R59, R168, U9). Raised by the host's byte write. Safe (log 7). -/
  | hostWritesRunningRegion (a : Nat)
  deriving DecidableEq, Repr

/-- STATUS = 0x00 (R37, R41). -/
def Status.reset : Status := ⟨.ok, false, false⟩

/-- All 64 slots at (0,0,0,0) (R41, R92). -/
def PixelCache.blank : PixelCache := Vector.replicate cacheSlots Pixel.blank

/-- DEC after power-on (R41, R160). -/
def Decoder.reset : Decoder where
  cmd := 0
  frameBase := 0
  frameLen := 0
  dstBase := 0
  dstCap := 0
  outChReq := 0
  status := .reset
  outLen := 0
  hdrWidth := 0
  hdrHeight := 0
  hdrChannels := 0
  hdrColorspace := 0
  cur := .initial
  cache := PixelCache.blank
  runcnt := 0
  sp := 0
  pix := 0
  n := 0
  limit := 0
  srcCh := 0
  outCh := 0
  fb := 0
  db := 0

/-- ENC after power-on (R41, R160). -/
def Encoder.reset : Encoder where
  cmd := 0
  srcBase := 0
  width := 0
  height := 0
  channels := 0
  stride := 0
  outBase := 0
  outCap := 0
  colorspace := 0
  status := .reset
  outLen := 0
  cur := .initial
  cache := PixelCache.blank
  runacc := 0
  pix := 0
  op := 0
  n := 0
  ch := 0
  sb := 0
  ob := 0

/-- The machine right after power-on reset (R41, R160): both engines idle, nothing in memory, no
write unseen, no move of the host pending (log 13). -/
def State.reset : State where
  dec := .reset
  enc := .reset
  mem := []
  unseen := []
  host := ⟨[], [], 0⟩
  turns := []

end Sys2Proof.Machine
end

