-- ==== Sys2Proof/Machine/Flags.lean ====
section
/-! DEFINITION. The STATUS byte (R37) and the one predicate a step tests (R30). The block has no
condition codes. -/

namespace Sys2Proof.Machine

/-- The number of a result code (R145). -/
def codeNumber : Code → Nat
  | .ok => 0
  | .invalidArgument => 1
  | .invalidData => 2
  | .outOfMemory => 3
  | .unsupportedPixelFormat => 4
  | .unsupportedPixelBuffer => 5

/-- The STATUS byte as the host reads it: CODE in 2:0, 0 in 5:3, BUSY in 6, DONE in 7 (R37). -/
def statusByte (st : Status) : Byte :=
  BitVec.ofNat 8 (codeNumber st.code + 64 * st.busy.toNat + 128 * st.done.toNat)

/-- STATUS after the start step's first line (R38). -/
def statusStarted : Status := ⟨.ok, true, false⟩

/-- STATUS after `raise Error(code)`, or after `finish()` with code 0 (R16, R150). -/
def statusEnded (code : Code) : Status := ⟨code, false, true⟩

/-- A run is active in the decoder (R30). -/
def decRunActive (d : Decoder) : Bool := decide (d.runcnt ≠ 0)

/-- A run is active in the encoder (R30). -/
def encRunActive (e : Encoder) : Bool := decide (e.runacc ≠ 0)

/-- DEC has a pixel step to take: a DECODE runs and PIX < N (R107). -/
def decRunning (d : Decoder) : Bool := d.status.busy && decide (d.pix < d.n)

/-- ENC has a header or pixel step to take: an ENCODE runs and PIX < N (R118, R120). -/
def encRunning (e : Encoder) : Bool := e.status.busy && decide (e.pix < e.n)

end Sys2Proof.Machine
end

