-- ==== Sys2Proof/WellFormed.lean ====
section
/-! DEFINITION. Which operands an opcode's fields can hold (R74 to R78). -/

namespace Sys2Proof

/-- The integer range lo..hi. -/
def inRange (lo hi x : Int) : Bool := decide (lo ≤ x ∧ x ≤ hi)

/-- A signed DIFF delta (R75). -/
def diffDeltaOk (d : Int) : Bool := inRange (-2) 1 d

/-- The LUMA green delta (R76). -/
def lumaGreenOk (v : Int) : Bool := inRange (-32) 31 v

/-- A LUMA red-minus-green or blue-minus-green delta (R76). -/
def lumaCrossOk (d : Int) : Bool := inRange (-8) 7 d

/-- The stored RUN field; 62 and 63 do not exist (R73, R77). -/
def runFieldOk (n : Nat) : Bool := decide (n ≤ 61)

/-- An instruction whose operands its encoding can hold. Literal bytes (R78) and slot numbers (R74)
are in range by their types. -/
def Instr.wf : Instr → Bool
  | .rgb _ _ _ => true
  | .rgba _ _ _ _ => true
  | .index _ => true
  | .diff dr dg db => diffDeltaOk dr && diffDeltaOk dg && diffDeltaOk db
  | .luma vg drg dbg => lumaGreenOk vg && lumaCrossOk drg && lumaCrossOk dbg
  | .run n => runFieldOk n

end Sys2Proof
end

