-- ==== Sys2Proof/Decode.lean ====
section
/-! DEFINITION. From bytes to opcodes and back (30_encoding.md). -/

namespace Sys2Proof

/-- `v[hi:lo]`, the unsigned value of bits hi down to lo (R11). -/
def bits (v : Byte) (hi lo : Nat) : Nat := v.toNat / 2 ^ lo % 2 ^ (hi + 1 - lo)

/-- The length of an opcode in bytes, a function of its tag byte alone (R66). The literal markers
are tested first (R67). -/
def opLength (b1 : Byte) : Nat :=
  if b1 = 0xFE then 4
  else if b1 = 0xFF then 5
  else if bits b1 7 6 = 0b10 then 2
  else 1

/-- The opcode parser (R98) with the operand assembly of R74 to R78. `b1` is the tag byte and `b2` to
`b5` the bytes after it, of which an opcode uses the first `opLength b1 - 1`. Every byte value
selects one opcode (R80). -/
def decodeOp (b1 b2 b3 b4 b5 : Byte) : Instr :=
  if b1 = 0xFE then .rgb b2 b3 b4
  else if b1 = 0xFF then .rgba b2 b3 b4 b5
  else if bits b1 7 6 = 0b00 then .index (Fin.ofNat cacheSlots (bits b1 5 0))
  else if bits b1 7 6 = 0b01 then
    .diff ((bits b1 5 4 : Int) - 2) ((bits b1 3 2 : Int) - 2) ((bits b1 1 0 : Int) - 2)
  else if bits b1 7 6 = 0b10 then
    .luma ((bits b1 5 0 : Int) - 32) ((bits b2 7 4 : Int) - 8) ((bits b2 3 0 : Int) - 8)
  else .run (bits b1 5 0)

/-- Why a byte string is no opcode. No tag byte is illegal (R80), so only its length can be. -/
inductive DecodeError where
  /-- The string is empty. -/
  | noTagByte
  /-- The string ends inside the payload: it has `have_` bytes and the tag asks for `need`. -/
  | payloadMissing (need have_ : Nat)
  deriving DecidableEq, Repr

/-- Reads one opcode off the front of a byte string and gives it with the rest of the string. -/
def decode : List Byte → Except DecodeError (Instr × List Byte)
  | [] => .error .noTagByte
  | b1 :: rest =>
    if rest.length + 1 < opLength b1 then .error (.payloadMissing (opLength b1) (rest.length + 1))
    else .ok (decodeOp b1 (rest.getD 0 0) (rest.getD 1 0) (rest.getD 2 0) (rest.getD 3 0),
      rest.drop (opLength b1 - 1))

/-- The byte whose unsigned value is an integer, taken mod 256. -/
def byteOf (x : Int) : Byte := BitVec.ofInt 8 x

/-- The bytes of an opcode (R84). -/
def encode : Instr → List Byte
  | .rgb r g b => [0xFE, r, g, b]
  | .rgba r g b a => [0xFF, r, g, b, a]
  | .index k => [byteOf (0x00 + k.val)]
  | .diff dr dg db => [byteOf (0x40 + 16 * (dr + 2) + 4 * (dg + 2) + (db + 2))]
  | .luma vg drg dbg => [byteOf (0x80 + (vg + 32)), byteOf (16 * (drg + 8) + (dbg + 8))]
  | .run n => [byteOf (0xC0 + n)]

/-- The pseudo-instruction `RUNL L`, 1 ≤ L ≤ 62, which stands for `RUN L−1` (R84). -/
def runl (l : Nat) : Instr := .run (l - 1)

/-- The five bytes of an opcode word as spec/opcode_table.json numbers its bits: byte j is bits
8j+7..8j. Bits from `nbits` up are 0. -/
def tableBytes (nbits w : Nat) : List Byte :=
  [0, 1, 2, 3, 4].map fun j => BitVec.ofNat 8 (w % 2 ^ nbits / 2 ^ (8 * j))

/-- What the decoder reads from an opcode-table word. -/
def decodeTableWord (nbits w : Nat) : Option Instr :=
  match decode (tableBytes nbits w) with
  | .ok (i, _) => some i
  | .error _ => none

end Sys2Proof
end

