-- ==== Sys2Proof/Machine/Operands.lean ====
section
/-! DEFINITION. Channel arithmetic, the predictor's deltas and the pixel formats at the buffer
boundary (R12, R64, R65, R122). -/

namespace Sys2Proof.Machine

/-- `add8(x, d) = (x + d) mod 256` (R12). -/
def add8 (x : Byte) (d : Int) : Byte := byteOf ((x.toNat : Int) + d)

/-- `s8(v)`: v below 128, v − 256 otherwise (R12). -/
def s8 (v : Byte) : Int := if v.toNat < 128 then v.toNat else (v.toNat : Int) - 256

/-- The wrapped difference of two channel values, `s8((new − old) mod 256)` (R122). -/
def delta8 (new old : Byte) : Int := s8 (byteOf ((new.toNat : Int) - old.toNat))

/-- A pixel with its colour channels moved by three deltas and its alpha kept (R103, R104). -/
def movePixel (p : Pixel) (dr dg db : Int) : Pixel :=
  ⟨add8 p.r dr, add8 p.g dg, add8 p.b db, p.a⟩

/-- The bytes of a decoded pixel in the destination (R65). Only the channel counts 3 and 4 are legal;
any other count, which no running DECODE holds, is formatted as four bytes (log 10). -/
def outBytes (srcCh outCh : Byte) (p : Pixel) : List Byte :=
  if outCh = 3 then [p.r, p.g, p.b]
  else if srcCh = 3 then [p.r, p.g, p.b, 0xFF]
  else [p.r, p.g, p.b, p.a]

/-- How many bytes `ReadPixel` reads (R119): the alpha byte only when CH = 4. -/
def pixelBytes (ch : Byte) : Nat := if ch = 4 then 4 else 3

/-- A 32-bit unsigned integer from four bytes, the most significant first (R47). -/
def be32 (b3 b2 b1 b0 : Byte) : BitVec 32 := b3 ++ b2 ++ b1 ++ b0

/-- The four bytes of a 32-bit unsigned integer, the most significant first (R47, R118). -/
def be32Bytes (v : BitVec 32) : List Byte :=
  [v.extractLsb' 24 8, v.extractLsb' 16 8, v.extractLsb' 8 8, v.extractLsb' 0 8]

/-- `DiffFits` (R127). -/
def diffFits (px cur : Pixel) : Bool :=
  decide (px.a = cur.a) && diffDeltaOk (delta8 px.r cur.r) && diffDeltaOk (delta8 px.g cur.g)
    && diffDeltaOk (delta8 px.b cur.b)

/-- `LumaFits` (R128, conflict C1): the alpha condition is part of it. -/
def lumaFits (px cur : Pixel) : Bool :=
  decide (px.a = cur.a) && lumaGreenOk (delta8 px.g cur.g)
    && lumaCrossOk (delta8 px.r cur.r - delta8 px.g cur.g)
    && lumaCrossOk (delta8 px.b cur.b - delta8 px.g cur.g)

end Sys2Proof.Machine
end

