-- ==== Sys2Proof/Machine/Ops.lean ====
section
/-! DEFINITION. The named operations over memory, regions and the pixel cache, and the end of a
command, which is what this block has for an exception entry (R16, R150). -/

namespace Sys2Proof.Machine

/-! ## Outcomes -/

/-- Goes on from a next state; a fault or a refusal stays. -/
def andThen (o : Host.Outcome State Fault Refusal)
    (k : State → Host.Outcome State Fault Refusal) : Host.Outcome State Fault Refusal :=
  match o with
  | .next s => k s
  | .fault r => .fault r
  | .refused r => .refused r

/-! ## Memory -/

/-- What an address that memory does not list reads as (log 3). -/
def unlisted : Byte := 0

/-- The byte at an address. -/
def Memory.byteAt : Memory → Nat → Byte
  | [], _ => unlisted
  | (a, b) :: m, x => if x = a then b else Memory.byteAt m x

/-- Memory with one byte stored, in canonical form. -/
def Memory.store : Memory → Nat → Byte → Memory
  | [], x, v => if v = unlisted then [] else [(x, v)]
  | (a, b) :: m, x, v =>
    if x < a then (if v = unlisted then (a, b) :: m else (x, v) :: (a, b) :: m)
    else if x = a then (if v = unlisted then m else (x, v) :: m)
    else (a, b) :: Memory.store m x v

/-- Memory with a byte string stored from an address up: one-byte writes at increasing addresses
(R50, R56). -/
def Memory.storeAll : Memory → Nat → List Byte → Memory
  | m, _, [] => m
  | m, x, v :: vs => Memory.storeAll (Memory.store m x v) (x + 1) vs

/-- Every listed address is above a bound, strictly rising, and no listed byte is `unlisted`. -/
def Memory.sortedFrom : Nat → Memory → Bool
  | _, [] => true
  | lo, (a, b) :: m => decide (lo ≤ a) && decide (b ≠ unlisted) && Memory.sortedFrom (a + 1) m

/-- The canonical form of memory. -/
def Memory.wf (m : Memory) : Bool := Memory.sortedFrom 0 m

/-! ## The address space

Each test against 2^ADDR_BITS first tries 2^32, which 2^ADDR_BITS is never below (R8), so that it
can be computed on small numbers without knowing ADDR_BITS. -/

/-- A value below 2^ADDR_BITS. -/
def fits (cfg : Config) (v : Nat) : Bool := decide (v < 4294967296) || decide (v < cfg.memSize)

/-- The bytes from `a` on, `n` of them, end at or below 2^ADDR_BITS: they do not wrap (R45). -/
def spanOk (cfg : Config) (a : Nat) (n : Nat) : Bool :=
  decide (a + n ≤ 4294967296) || decide (a + n ≤ cfg.memSize)

/-- A value written to a field of ADDR_BITS bits (R34). -/
def wrap (cfg : Config) (v : Nat) : Nat := if v < 4294967296 then v else v % cfg.memSize

/-! ## Regions -/

/-- The region does not wrap the address space (R45). -/
def regionOk (cfg : Config) (r : Region) : Bool := spanOk cfg r.base r.len

/-- `Overlap` of 44_commands.md: both regions are nonempty and they share a byte (R46). -/
def regionsOverlap (r s : Region) : Bool :=
  decide (0 < r.len) && decide (0 < s.len) && decide (r.base < s.base + s.len)
    && decide (s.base < r.base + r.len)

/-- The address lies in the region (R44). -/
def inRegion (r : Region) (a : Nat) : Bool := decide (r.base ≤ a) && decide (a < r.base + r.len)

/-- FRAME (R44). -/
def frameRegion (d : Decoder) : Region := ⟨d.frameBase, d.frameLen⟩

/-- DST (R44). -/
def dstRegion (d : Decoder) : Region := ⟨d.dstBase, d.dstCap⟩

/-- SRC, of WIDTH × HEIGHT × CHANNELS bytes (R44, R142). -/
def srcRegion (e : Encoder) : Region :=
  ⟨e.srcBase, e.width.toNat * e.height.toNat * e.channels.toNat⟩

/-- OUT (R44). -/
def outRegion (e : Encoder) : Region := ⟨e.outBase, e.outCap⟩

/-- The region meets a region of the command ENC runs (R59). The command fields cannot change while
it runs, so they give its regions (R39). -/
def meetsRunningEnc (s : State) (r : Region) : Bool :=
  s.enc.status.busy && (regionsOverlap r (srcRegion s.enc) || regionsOverlap r (outRegion s.enc))

/-- The region meets a region of the command DEC runs (R59). -/
def meetsRunningDec (s : State) (r : Region) : Bool :=
  s.dec.status.busy && (regionsOverlap r (frameRegion s.dec) || regionsOverlap r (dstRegion s.dec))

/-- The address lies in a region of a running command (R59). -/
def inRunningRegion (s : State) (a : Nat) : Bool :=
  (s.dec.status.busy && (inRegion (frameRegion s.dec) a || inRegion (dstRegion s.dec) a))
    || (s.enc.status.busy && (inRegion (srcRegion s.enc) a || inRegion (outRegion s.enc) a))

/-! ## The pixel cache -/

/-- `hash(p) = (3·r + 5·g + 7·b + 11·a) mod 64` (R85). -/
def hashSlot (p : Pixel) : Slot :=
  Fin.ofNat cacheSlots (3 * p.r.toNat + 5 * p.g.toNat + 7 * p.b.toNat + 11 * p.a.toNat)

/-- `CacheRead(k)` (R88): the slot as stored. -/
def cacheRead (c : PixelCache) (k : Slot) : Pixel := c.get k

/-- `CacheLookup(p)` (R89): the slot number and whether the slot holds the pixel. -/
def cacheLookup (c : PixelCache) (p : Pixel) : Slot × Bool :=
  (hashSlot p, decide (c.get (hashSlot p) = p))

/-- `CacheInsert(p)` (R90): the pixel's slot takes it, no other slot changes. -/
def cacheInsert (c : PixelCache) (p : Pixel) : PixelCache := c.set (hashSlot p).val p (hashSlot p).isLt

/-! ## Engine writes and the host -/

/-- The unseen writes after an engine writes the `n` bytes from `a` up: each of them is unseen, and what
the record held for those addresses is replaced, so that a load has the two values of R58 open: the byte
before the write and the byte written. That it is replaced is the model's reading where the host has not
read the earlier write's DONE (DESIGN CHOICE, log 6). -/
def recordUnseen (e : Engine) (m : Memory) (a n : Nat) (l : List Unseen) : List Unseen :=
  ((List.range n).map fun j => ⟨a + j, e, Memory.byteAt m (a + j)⟩)
    ++ l.filter fun u => !inRegion ⟨a, n⟩ u.addr

/-- An engine writes a byte string from an address up (R50, R56). -/
def State.engineStore (s : State) (e : Engine) (a : Nat) (bs : List Byte) : State :=
  { s with mem := Memory.storeAll s.mem a bs, unseen := recordUnseen e s.mem a bs.length s.unseen }

/-! ## Updates of the two engines -/

/-- CUR takes a pixel and the cache takes it too (R91). -/
def Decoder.resolve (d : Decoder) (p : Pixel) : Decoder :=
  { d with cur := p, cache := cacheInsert d.cache p }

/-- CUR takes a pixel; the cache is not written (R91). -/
def Decoder.recall (d : Decoder) (p : Pixel) : Decoder := { d with cur := p }

/-- RUNCNT takes a value of 6 bits. -/
def Decoder.setRun (d : Decoder) (n : Nat) : Decoder := { d with runcnt := BitVec.ofNat 6 n }

/-- SP moves past an opcode of `k` bytes (R24). -/
def Decoder.advance (d : Decoder) (k : Nat) : Decoder := { d with sp := d.sp + k }

/-- The state with the decoder engine changed. -/
def State.mapDec (s : State) (f : Decoder → Decoder) : State := { s with dec := f s.dec }

/-- The state with the encoder engine changed. -/
def State.mapEnc (s : State) (f : Encoder → Encoder) : State := { s with enc := f s.enc }

/-! ## The end of a command

The block has no traps. `raise Error(code)` and `finish()` are one operation (R16): CODE is written,
BUSY is cleared, DONE is set, nothing is saved and nothing else changes (R150). There is no return
from it (R151): the host's next CMD write starts afresh. -/

/-- DEC's command ends with a code (R16). -/
def Decoder.finish (d : Decoder) (code : Code) : Decoder := { d with status := statusEnded code }

/-- ENC's command ends with a code (R16). -/
def Encoder.finish (e : Encoder) (code : Code) : Encoder := { e with status := statusEnded code }

end Sys2Proof.Machine
end

