-- ==== Sys2Proof/Machine/Delta.lean ====
section
/-! DEFINITION. The delta opcodes DIFF and LUMA (R103, R104). -/

namespace Sys2Proof.Machine

/-- DIFF: each colour channel moves by its delta mod 256, the pixel is inserted (R103). -/
def execDiff (dr dg db : Int) (s : State) : Host.Outcome State Fault Refusal :=
  .next (s.mapDec fun d => (d.resolve (movePixel d.cur dr dg db)).advance 1)

/-- LUMA: green moves by vg, red by vg + drg, blue by vg + dbg, mod 256; the pixel is inserted
(R104). -/
def execLuma (vg drg dbg : Int) (s : State) : Host.Outcome State Fault Refusal :=
  .next (s.mapDec fun d => (d.resolve (movePixel d.cur (vg + drg) vg (vg + dbg))).advance 2)

end Sys2Proof.Machine
end

