-- ==== Sys2Proof/Machine/Index.lean ====
section
/-! DEFINITION. The opcode INDEX (R102). -/

namespace Sys2Proof.Machine

/-- INDEX: CUR takes the slot as stored; no insert, whatever the pixel's hash (R102, R88). -/
def execIndex (k : Slot) (s : State) : Host.Outcome State Fault Refusal :=
  .next (s.mapDec fun d => (d.recall (cacheRead d.cache k)).advance 1)

end Sys2Proof.Machine
end

