-- ==== Sys2Proof/Machine/Literal.lean ====
section
/-! DEFINITION. The literal opcodes RGB and RGBA (R100, R101). -/

namespace Sys2Proof.Machine

/-- RGB: the colour channels are the payload, alpha is kept, the pixel is inserted (R100). -/
def execRgb (r g b : Byte) (s : State) : Host.Outcome State Fault Refusal :=
  .next (s.mapDec fun d => (d.resolve ⟨r, g, b, d.cur.a⟩).advance 4)

/-- RGBA: all four channels are the payload, the pixel is inserted (R101). -/
def execRgba (r g b a : Byte) (s : State) : Host.Outcome State Fault Refusal :=
  .next (s.mapDec fun d => (d.resolve ⟨r, g, b, a⟩).advance 5)

end Sys2Proof.Machine
end

