-- ==== Sys2Proof/Machine/Run.lean ====
section
/-! DEFINITION. The opcode RUN (R105). -/

namespace Sys2Proof.Machine

/-- RUN: RUNCNT takes the stored field; CUR and the cache are not written (R105). -/
def execRun (n : Nat) (s : State) : Host.Outcome State Fault Refusal :=
  .next (s.mapDec fun d => (d.setRun n).advance 1)

end Sys2Proof.Machine
end

