-- ==== Sys2Proof/Machine/Dispatch.lean ====
section
/-! DEFINITION. The meaning of each opcode inside the decoder step (R98 to R105). -/

namespace Sys2Proof.Machine

def exec (i : Instr) (s : State) : Host.Outcome State Fault Refusal :=
  match i with
  | .rgb r g b => Sys2Proof.Machine.execRgb r g b s
  | .rgba r g b a => Sys2Proof.Machine.execRgba r g b a s
  | .index k => Sys2Proof.Machine.execIndex k s
  | .diff dr dg db => Sys2Proof.Machine.execDiff dr dg db s
  | .luma vg drg dbg => Sys2Proof.Machine.execLuma vg drg dbg s
  | .run n => Sys2Proof.Machine.execRun n s

end Sys2Proof.Machine
end

