-- ==== Sys2Proof/Machine/DecodeSeq.lean ====
section
/-! DEFINITION. The decoder's sequencer: fetching an opcode, the per-pixel step, writing the pixel and
ending the DECODE (42_decoder_sequencer.md). -/

namespace Sys2Proof.Machine

/-- The address of the next opcode's tag byte: frame offset SP (R24). -/
def fetchAddr (s : State) : Nat := s.dec.fb + s.dec.sp

/-- The opcode at frame offset SP (R98), or none where its bytes pass the end of memory. Its payload
is read at the offsets after the tag even at or after LIMIT (R109). -/
def fetchOp (cfg : Config) (s : State) : Option Instr :=
  let a := fetchAddr s
  let tag := Memory.byteAt s.mem a
  if spanOk cfg a (opLength tag) then
    some (decodeOp tag (Memory.byteAt s.mem (a + 1)) (Memory.byteAt s.mem (a + 2))
      (Memory.byteAt s.mem (a + 3)) (Memory.byteAt s.mem (a + 4)))
  else none

/-- `WritePixel`'s address for the next pixel, DB + PIX × OUT_CH (R114). -/
def pixelAddr (d : Decoder) : Nat := d.db + d.pix * d.outCh.toNat

/-- `DecodeFinish` (R115). -/
def decodeFinish (d : Decoder) : Decoder :=
  { d with outLen := d.n * d.outCh.toNat }.finish .ok

/-- The end of the per-pixel step (R107): WritePixel, PIX + 1, and DecodeFinish at the last pixel. -/
def emitPixel (cfg : Config) (s : State) : Host.Outcome State Fault Refusal :=
  let out := outBytes s.dec.srcCh s.dec.outCh s.dec.cur
  let a := pixelAddr s.dec
  if spanOk cfg a out.length then
    let d := { s.dec with pix := s.dec.pix + 1 }
    .next { s.engineStore .dec a out with dec := if d.pix = d.n then decodeFinish d else d }
  else .fault (.addressOutsideMemory (a + out.length - 1))

/-- One pixel of an active run leaves the count (R107, case 1). -/
def Decoder.countDown (d : Decoder) : Decoder := { d with runcnt := d.runcnt - 1 }

/-- `step DecodePixel` (R107): an active run, an opcode, or an exhausted stream. -/
def decodePixel (cfg : Config) (s : State) : Host.Outcome State Fault Refusal :=
  if decRunActive s.dec then emitPixel cfg (s.mapDec Decoder.countDown)
  else if s.dec.sp < s.dec.limit then
    match fetchOp cfg s with
    | some i => andThen (exec i s) (emitPixel cfg)
    | none =>
      .fault (.addressOutsideMemory
        (fetchAddr s + opLength (Memory.byteAt s.mem (fetchAddr s)) - 1))
  else emitPixel cfg s

end Sys2Proof.Machine
end

