-- ==== Sys2Proof/Machine/EncodeSeq.lean ====
section
/-! DEFINITION. The encoder: header, run handler, predictor, per-pixel step and the end of the ENCODE
(43_encoder.md). -/

namespace Sys2Proof.Machine

/-- `Put` for each byte of a string in turn (43_encoder.md): the bytes go to OB + OP on, OP moves past
them. An empty string makes no access. -/
def putBytes (cfg : Config) (bs : List Byte) (s : State) : Host.Outcome State Fault Refusal :=
  let a := s.enc.ob + s.enc.op
  if bs.isEmpty || spanOk cfg a bs.length then
    .next { s.engineStore .enc a bs with enc := { s.enc with op := s.enc.op + bs.length } }
  else .fault (.addressOutsideMemory (a + bs.length - 1))

/-- The 14 header bytes (R118, R82). -/
def headerOut (cfg : Config) (e : Encoder) : List Byte :=
  cfg.magic.toList ++ be32Bytes e.width ++ be32Bytes e.height ++ [e.channels, e.colorspace]

/-- `step EncodeHeader` (R118). -/
def encodeHeader (cfg : Config) (s : State) : Host.Outcome State Fault Refusal :=
  putBytes cfg (headerOut cfg s.enc) s

/-- The address of the next source pixel, SB + PIX × CH (R119). -/
def sourceAddr (e : Encoder) : Nat := e.sb + e.pix * e.ch.toNat

/-- `ReadPixel(PIX)` (R119, R64). -/
def readPixel (m : Memory) (e : Encoder) : Pixel :=
  let a := sourceAddr e
  ⟨Memory.byteAt m a, Memory.byteAt m (a + 1), Memory.byteAt m (a + 2),
    if e.ch = 4 then Memory.byteAt m (a + 3) else 0xFF⟩

/-- `RunExtend(last)` (R123): the bytes it puts and the engine after it. -/
def runExtend (e : Encoder) (last : Bool) : List Byte × Encoder :=
  let acc := e.runacc + 1
  if acc.toNat = encRunMax || last then (encode (.run (acc.toNat - 1)), { e with runacc := 0 })
  else ([], { e with runacc := acc })

/-- `RunFlush()` (R124). -/
def runFlush (e : Encoder) : List Byte × Encoder :=
  if encRunActive e then (encode (.run (e.runacc.toNat - 1)), { e with runacc := 0 }) else ([], e)

/-- The branches a to e, tried in that order (R121, R126 to R130): the opcode for a pixel that differs
from CUR. -/
def predict (c : PixelCache) (cur px : Pixel) : Instr :=
  if (cacheLookup c px).2 then .index (cacheLookup c px).1
  else if diffFits px cur then .diff (delta8 px.r cur.r) (delta8 px.g cur.g) (delta8 px.b cur.b)
  else if lumaFits px cur then
    .luma (delta8 px.g cur.g) (delta8 px.r cur.r - delta8 px.g cur.g)
      (delta8 px.b cur.b - delta8 px.g cur.g)
  else if px.a = cur.a then .rgb px.r px.g px.b
  else .rgba px.r px.g px.b px.a

/-- The pixel becomes CUR, and enters the cache unless the lookup hit (R120). -/
def Encoder.absorb (e : Encoder) (px : Pixel) : Encoder :=
  { e with cur := px, cache := if (cacheLookup e.cache px).2 then e.cache else cacheInsert e.cache px }

/-- The body of `step EncodePixel` for a pixel read (R120): the bytes it puts and the engine after. -/
def encodeOne (e : Encoder) (px : Pixel) (last : Bool) : List Byte × Encoder :=
  if px = e.cur then runExtend e last
  else ((runFlush e).1 ++ encode (predict e.cache e.cur px), (runFlush e).2.absorb px)

/-- `EncodeFinish` less its bytes (R131). -/
def encodeFinish (e : Encoder) : Encoder := { e with outLen := e.op }.finish .ok

/-- `step EncodePixel` (R120). The trailer follows in the step in which PIX reaches N (R131). -/
def encodePixel (cfg : Config) (s : State) : Host.Outcome State Fault Refusal :=
  if spanOk cfg (sourceAddr s.enc) (pixelBytes s.enc.ch) then
    let last := decide (s.enc.pix + 1 = s.enc.n)
    let out := encodeOne s.enc (readPixel s.mem s.enc) last
    let t := s.mapEnc fun _ => { out.2 with pix := s.enc.pix + 1 }
    if last then
      andThen (putBytes cfg (out.1 ++ cfg.trailer.toList) t) fun u => .next (u.mapEnc encodeFinish)
    else putBytes cfg out.1 t
  else .fault (.addressOutsideMemory (sourceAddr s.enc + pixelBytes s.enc.ch - 1))

/-- ENC's next step: the header while OP is 0, a pixel after it (R118, R120, log 11). -/
def encodeStep (cfg : Config) (s : State) : Host.Outcome State Fault Refusal :=
  if s.enc.op = 0 then encodeHeader cfg s else encodePixel cfg s

end Sys2Proof.Machine
end

