-- ==== Sys2Proof/Machine/Ahead.lean ====
section
/-! DEFINITION. The values a running command writes, before it has written them: R58 lets the host see
them early. An engine's inputs do not change while it runs (R61, R39), so its own remaining steps give
them. -/

namespace Sys2Proof.Machine

/-- At most `k` steps of one engine alone, ending early where one gives no next state. -/
def engineAhead (f : State → Host.Outcome State Fault Refusal) : Nat → State → State
  | 0, s => s
  | k + 1, s =>
    match f s with
    | .next t => engineAhead f k t
    | .fault _ => s
    | .refused _ => s

/-- The byte at an address once DEC has taken the steps its command has left (R116). -/
def decAhead (cfg : Config) (s : State) (a : Nat) : Byte :=
  Memory.byteAt (engineAhead (decodePixel cfg) (s.dec.n - s.dec.pix) s).mem a

/-- The steps an ENCODE under way has left: the header step while OP is 0, and one for each pixel
(R133). -/
def encStepsLeft (e : Encoder) : Nat := (if e.op = 0 then 1 else 0) + (e.n - e.pix)

/-- The byte at an address once ENC has taken the steps its command has left (R133). -/
def encAhead (cfg : Config) (s : State) (a : Nat) : Byte :=
  Memory.byteAt (engineAhead (encodeStep cfg) (encStepsLeft s.enc) s).mem a

/-- What a running DECODE writes at an address of its write region (R44, R58). -/
def decEarly (cfg : Config) (s : State) (a : Nat) : List Byte :=
  if s.dec.status.busy && inRegion (dstRegion s.dec) a then [decAhead cfg s a] else []

/-- What a running ENCODE writes at an address of its write region (R44, R58). -/
def encEarly (cfg : Config) (s : State) (a : Nat) : List Byte :=
  if s.enc.status.busy && inRegion (outRegion s.enc) a then [encAhead cfg s a] else []

end Sys2Proof.Machine
end

