-- ==== Sys2Proof/Machine/Commands.lean ====
section
/-! DEFINITION. Command start: initialisation, dispatch and the start checks (R38, 44_commands.md). -/

namespace Sys2Proof.Machine

/-- The code of the first check that fails, in the order given (R148). -/
def firstFailing : List (Bool × Code) → Option Code
  | [] => none
  | (failed, code) :: rest => if failed then some code else firstFailing rest

/-- 3 or 4, the wire's channel counts (R7). -/
def channelsOk (ch : Byte) : Bool := decide (ch = 3) || decide (ch = 4)

/-! ## The decoder's commands -/

/-- DEC at the start of a command (R38): status, OUT_LEN, CUR, cache and counters. No start step touches
the record of unseen writes, so those of an earlier command whose DONE the host has not read stay open,
whether the start passes its checks or not. R38 and R58 do not say: the model's choice (log 6). -/
def startDec (c : Byte) (d : Decoder) : Decoder :=
  { d with
    cmd := c, status := statusStarted, outLen := 0, cur := .initial, cache := PixelCache.blank
    runcnt := 0, sp := 0, pix := 0 }

/-- `ReadHeader()` from a frame's base (R137, R82). -/
def readHeader (m : Memory) (base : Nat) : Header :=
  let f := fun o => Memory.byteAt m (base + o)
  ⟨#v[f 0, f 1, f 2, f 3], be32 (f 4) (f 5) (f 6) (f 7), be32 (f 8) (f 9) (f 10) (f 11), f 12, f 13⟩

/-- The HDR fields report the header as read, before it is checked (R137). -/
def Decoder.report (d : Decoder) (h : Header) : Decoder :=
  { d with hdrWidth := h.width, hdrHeight := h.height, hdrChannels := h.channels
           hdrColorspace := h.colorspace }

/-- `HeaderChecks` (R138). -/
def headerChecks (cfg : Config) (h : Header) : List (Bool × Code) :=
  [(decide (h.magic ≠ cfg.magic), .invalidData),
   (!channelsOk h.channels, .invalidData),
   (decide (h.width = 0) || decide (h.height = 0), .invalidData)]

/-- Checks 1 to 3 of DECODE (R139). -/
def decodeArgChecks (cfg : Config) (d : Decoder) : List (Bool × Code) :=
  [(!regionOk cfg (frameRegion d) || !regionOk cfg (dstRegion d), .invalidArgument),
   (regionsOverlap (frameRegion d) (dstRegion d), .invalidArgument),
   (decide (d.frameLen < minFrame), .invalidData)]

/-- The destination channel count: OUT_CH_REQ, or the header's where that is 0 (R139, check 6). -/
def outChannels (d : Decoder) (h : Header) : Byte := if d.outChReq = 0 then h.channels else d.outChReq

/-- W × H × oc, the bytes of the destination image (R139). -/
def imageBytes (d : Decoder) (h : Header) : Nat :=
  h.width.toNat * h.height.toNat * (outChannels d h).toNat

/-- Checks 6 to 8 of DECODE (R139). -/
def decodeOutChecks (cfg : Config) (d : Decoder) (h : Header) : List (Bool × Code) :=
  [(!channelsOk (outChannels d h), .unsupportedPixelFormat),
   (!fits cfg (imageBytes d h), .invalidData),
   (decide (d.dstCap < imageBytes d h), .outOfMemory)]

/-- Item 9 of DECODE and the decoder's entry (R139, R106). -/
def beginDecode (d : Decoder) (h : Header) : Decoder :=
  { d with
    n := h.width.toNat * h.height.toNat, limit := d.frameLen - trailerBytes, srcCh := h.channels
    outCh := outChannels d h, fb := d.frameBase, db := d.dstBase, sp := headerBytes }

/-- DECODE after the initialisation of R38 (R139). -/
def decodeCommand (cfg : Config) (s : State) : Host.Outcome State Fault Refusal :=
  match firstFailing (decodeArgChecks cfg s.dec) with
  | some code => .next (s.mapDec fun d => d.finish code)
  | none =>
    if meetsRunningEnc s (frameRegion s.dec) then .refused .runningRegionsOverlap
    else
      let h := readHeader s.mem s.dec.frameBase
      match firstFailing (headerChecks cfg h ++ decodeOutChecks cfg s.dec h) with
      | some code => .next (s.mapDec fun d => (d.report h).finish code)
      | none =>
        if meetsRunningEnc s (dstRegion s.dec) then .refused .runningRegionsOverlap
        else .next (s.mapDec fun d => beginDecode (d.report h) h)

/-- Checks 1 and 2 of PEEK (R141). -/
def peekArgChecks (cfg : Config) (d : Decoder) : List (Bool × Code) :=
  [(!regionOk cfg (frameRegion d), .invalidArgument), (decide (d.frameLen < minFrame), .invalidData)]

/-- PEEK after the initialisation of R38 (R141). -/
def peekCommand (cfg : Config) (s : State) : Host.Outcome State Fault Refusal :=
  match firstFailing (peekArgChecks cfg s.dec) with
  | some code => .next (s.mapDec fun d => d.finish code)
  | none =>
    if meetsRunningEnc s (frameRegion s.dec) then .refused .runningRegionsOverlap
    else
      let h := readHeader s.mem s.dec.frameBase
      .next (s.mapDec fun d => (d.report h).finish ((firstFailing (headerChecks cfg h)).getD .ok))

/-- DEC's start step for a nonzero code (R38, R136). -/
def startDecCommand (cfg : Config) (c : Byte) (s : State) : Host.Outcome State Fault Refusal :=
  let t := s.mapDec (startDec c)
  if c = 0x01 then decodeCommand cfg t
  else if c = 0x03 then peekCommand cfg t
  else .next (t.mapDec fun d => d.finish .invalidArgument)

/-! ## The encoder's command -/

/-- ENC at the start of a command (R38). The record of unseen writes stays, as for DEC (log 6). -/
def startEnc (c : Byte) (e : Encoder) : Encoder :=
  { e with
    cmd := c, status := statusStarted, outLen := 0, cur := .initial, cache := PixelCache.blank
    runacc := 0, pix := 0, op := 0 }

/-- B, the worst-case frame size (R142, R132). -/
def frameBound (e : Encoder) : Nat :=
  minFrame + e.width.toNat * e.height.toNat * (e.channels.toNat + 1)

/-- The checks of ENCODE (R142). -/
def encodeChecks (cfg : Config) (e : Encoder) : List (Bool × Code) :=
  [(!channelsOk e.channels, .unsupportedPixelFormat),
   (decide (e.width = 0) || decide (e.height = 0), .invalidArgument),
   (!fits cfg (frameBound e), .invalidArgument),
   (decide (e.stride ≠ e.width.toNat * e.channels.toNat), .unsupportedPixelBuffer),
   (!regionOk cfg (srcRegion e) || !regionOk cfg (outRegion e), .invalidArgument),
   (regionsOverlap (srcRegion e) (outRegion e), .invalidArgument),
   (decide (e.outCap < frameBound e), .outOfMemory)]

/-- Item 8 of ENCODE (R142). -/
def beginEncode (e : Encoder) : Encoder :=
  { e with
    n := e.width.toNat * e.height.toNat, ch := e.channels, sb := e.srcBase, ob := e.outBase }

/-- ENCODE after the initialisation of R38 (R142). -/
def encodeCommand (cfg : Config) (s : State) : Host.Outcome State Fault Refusal :=
  match firstFailing (encodeChecks cfg s.enc) with
  | some code => .next (s.mapEnc fun e => e.finish code)
  | none =>
    if meetsRunningDec s (srcRegion s.enc) || meetsRunningDec s (outRegion s.enc) then
      .refused .runningRegionsOverlap
    else .next (s.mapEnc beginEncode)

/-- ENC's start step for a nonzero code (R38, R136). -/
def startEncCommand (cfg : Config) (c : Byte) (s : State) : Host.Outcome State Fault Refusal :=
  let t := s.mapEnc (startEnc c)
  if c = 0x02 then encodeCommand cfg t
  else .next (t.mapEnc fun e => e.finish .invalidArgument)

end Sys2Proof.Machine
end

