-- ==== Sys2Proof/Machine/HostPort.lean ====
section
/-! DEFINITION. The host's moves: reading and writing fields by number (R34 to R36) and bytes of
memory (R57 to R59). -/

namespace Sys2Proof.Machine

/-- A value written to an 8-bit field (R34). -/
def toByte (v : Nat) : Byte := BitVec.ofNat 8 v

/-- `HostWrite(DEC, no, v)` for a field other than CMD (R34, R35). Read-only and unknown numbers are
dropped. -/
def writeDecField (cfg : Config) (no v : Nat) (d : Decoder) : Decoder :=
  match no with
  | 0x01 => { d with frameBase := wrap cfg v }
  | 0x02 => { d with frameLen := wrap cfg v }
  | 0x03 => { d with dstBase := wrap cfg v }
  | 0x04 => { d with dstCap := wrap cfg v }
  | 0x05 => { d with outChReq := toByte v }
  | _ => d

/-- `HostRead(DEC, no)` (R34, R35): CMD and unknown numbers read as 0. -/
def readDecField (no : Nat) (d : Decoder) : Nat :=
  match no with
  | 0x01 => d.frameBase
  | 0x02 => d.frameLen
  | 0x03 => d.dstBase
  | 0x04 => d.dstCap
  | 0x05 => d.outChReq.toNat
  | 0x10 => (statusByte d.status).toNat
  | 0x11 => d.outLen
  | 0x12 => d.hdrWidth.toNat
  | 0x13 => d.hdrHeight.toNat
  | 0x14 => d.hdrChannels.toNat
  | 0x15 => d.hdrColorspace.toNat
  | _ => 0

/-- `HostWrite(ENC, no, v)` for a field other than CMD (R34, R36). -/
def writeEncField (cfg : Config) (no v : Nat) (e : Encoder) : Encoder :=
  match no with
  | 0x01 => { e with srcBase := wrap cfg v }
  | 0x02 => { e with width := BitVec.ofNat 32 v }
  | 0x03 => { e with height := BitVec.ofNat 32 v }
  | 0x04 => { e with channels := toByte v }
  | 0x05 => { e with stride := wrap cfg v }
  | 0x06 => { e with outBase := wrap cfg v }
  | 0x07 => { e with outCap := wrap cfg v }
  | 0x08 => { e with colorspace := toByte v }
  | _ => e

/-- `HostRead(ENC, no)` (R34, R36). -/
def readEncField (no : Nat) (e : Encoder) : Nat :=
  match no with
  | 0x01 => e.srcBase
  | 0x02 => e.width.toNat
  | 0x03 => e.height.toNat
  | 0x04 => e.channels.toNat
  | 0x05 => e.stride
  | 0x06 => e.outBase
  | 0x07 => e.outCap
  | 0x08 => e.colorspace.toNat
  | 0x10 => (statusByte e.status).toNat
  | 0x11 => e.outLen
  | _ => 0

/-- `HostWrite(DEC, no, v)` (R34): dropped while BUSY = 1. A nonzero code written to CMD starts a
command in this step (R38); 0x00 changes nothing (R136). -/
def hostWriteDec (cfg : Config) (no v : Nat) (s : State) : Host.Outcome State Fault Refusal :=
  if s.dec.status.busy then .next s
  else if no = 0x00 then (if toByte v = 0 then .next s else startDecCommand cfg (toByte v) s)
  else .next (s.mapDec (writeDecField cfg no v))

/-- `HostWrite(ENC, no, v)` (R34, R38, R136). -/
def hostWriteEnc (cfg : Config) (no v : Nat) (s : State) : Host.Outcome State Fault Refusal :=
  if s.enc.status.busy then .next s
  else if no = 0x00 then (if toByte v = 0 then .next s else startEncCommand cfg (toByte v) s)
  else .next (s.mapEnc (writeEncField cfg no v))

/-- The host's read returns a value. -/
def State.answer (s : State) (v : Nat) : State :=
  { s with host := { s.host with answers := v :: s.host.answers } }

/-- The values open to a host load of a byte (R58, U6): the byte as it is; where the host need not see
its last write yet, the byte from before that write; and in a write region of a running command the byte
that command writes there, whether it has come to write it or not. -/
def visibleBytes (cfg : Config) (s : State) (a : Nat) : List Byte :=
  Memory.byteAt s.mem a :: ((s.unseen.filter fun u => decide (u.addr = a)).map Unseen.old
    ++ decEarly cfg s a ++ encEarly cfg s a)

/-- The host loads a byte. Where more than one value is listed, which one it gets is a free value
(R58, U6, log 6). -/
def hostReadByte (cfg : Config) (a : Nat) (s : State) : Host.Outcome State Fault Refusal :=
  if spanOk cfg a 1 then
    match visibleBytes cfg s a with
    | [b] => .next (s.answer b.toNat)
    | bs =>
      let b := bs.getD (Config.seesByte s.host.reads % bs.length) (Memory.byteAt s.mem a)
      .next { s.answer b.toNat with
              host := { (s.answer b.toNat).host with reads := s.host.reads + 1 } }
  else .fault (.addressOutsideMemory a)

/-- The host stores a byte; it may not do so in a running command's regions (R59, U9, log 7). A host
sees its own stores, so no other value of the byte stays open (log 6). -/
def hostWriteByte (cfg : Config) (a : Nat) (v : Byte) (s : State) : Host.Outcome State Fault Refusal :=
  if spanOk cfg a 1 then
    if inRunningRegion s a then .refused (.hostWritesRunningRegion a)
    else .next { s with mem := Memory.store s.mem a v
                        unseen := s.unseen.filter fun u => decide (u.addr ≠ a) }
  else .fault (.addressOutsideMemory a)

/-- The host has read a field of an engine that holds the STATUS given: STATUS with DONE = 1 makes the
engine's writes so far visible (R58). That it does so whichever of the engine's commands made them is the
model's choice (log 6). -/
def State.hostSaw (s : State) (e : Engine) (no : Nat) (st : Status) : State :=
  if decide (no = 0x10) && st.done then
    { s with unseen := s.unseen.filter fun u => decide (u.writer ≠ e) }
  else s

/-- One move of the host (R19, R34, R163). -/
def hostMove (cfg : Config) (op : HostOp) (s : State) : Host.Outcome State Fault Refusal :=
  match op with
  | .writeField .dec no v => hostWriteDec cfg no v s
  | .writeField .enc no v => hostWriteEnc cfg no v s
  | .readField .dec no => .next ((s.answer (readDecField no s.dec)).hostSaw .dec no s.dec.status)
  | .readField .enc no => .next ((s.answer (readEncField no s.enc)).hostSaw .enc no s.enc.status)
  | .writeByte a v => hostWriteByte cfg a v s
  | .readByte a => hostReadByte cfg a s

end Sys2Proof.Machine
end

