-- ==== Sys2Proof/Machine/Agents.lean ====
section
/-! DEFINITION. Which agent moves, and its move (R17, R19, U8). -/

namespace Sys2Proof.Machine

/-- Who moves when `turns` names nobody: a running DEC, else a running ENC, else the host (log 4). -/
def defaultAgent (s : State) : Agent :=
  if decRunning s.dec then .dec else if encRunning s.enc then .enc else .host

/-- Who moves next. -/
def mover (s : State) : Agent :=
  match s.turns with
  | a :: _ => a
  | [] => defaultAgent s

/-- The state with the present turn used up. -/
def State.endTurn (s : State) : State := { s with turns := s.turns.tail }

/-- The host makes its next move, or rests if it has none. -/
def hostStep (cfg : Config) (s : State) : Host.Outcome State Fault Refusal :=
  match s.host.todo with
  | [] => .next s
  | op :: rest => hostMove cfg op { s with host := { s.host with todo := rest } }

/-- An agent's step. An idle engine executes nothing (R151, R159). That its turn passes is the model's
choice (log 4). -/
def agentStep (cfg : Config) (a : Agent) (s : State) : Host.Outcome State Fault Refusal :=
  match a with
  | .dec => if decRunning s.dec then decodePixel cfg s else .next s
  | .enc => if encRunning s.enc then encodeStep cfg s else .next s
  | .host => hostStep cfg s

/-- One step of the machine under given parameters (R17). -/
def stepWith (cfg : Config) (s : State) : Host.Outcome State Fault Refusal :=
  agentStep cfg (mover s) s.endTurn

/-- DEC in the middle of a DECODE whose next step fetches at frame offset 14: the frame holds a
four-channel image of 2 by 1 pixels and stands at address 0, its destination at address 32 (log 14). -/
def Decoder.atFetch (d : Decoder) : Decoder :=
  { d with
    cmd := 0x01, status := statusStarted, outLen := 0, frameBase := 0, frameLen := 27, dstBase := 32
    dstCap := 8, outChReq := 4, hdrWidth := 2, hdrHeight := 1, hdrChannels := 4, runcnt := 0
    sp := headerBytes, pix := 0, n := 2, limit := 19, srcCh := 4, outCh := 4, fb := 0, db := 32 }

/-- The bytes of an opcode-table word at the next fetch address, and DEC about to fetch them. -/
def placeWord (s : State) (nbits w : Nat) : State :=
  let t := s.mapDec Decoder.atFetch
  { t with mem := Memory.storeAll t.mem (fetchAddr t) (tableBytes nbits w), turns := .dec :: t.turns }

end Sys2Proof.Machine
end

