-- ==== Sys2Proof/Machine/Step.lean ====
section
/-! DEFINITION. The step of the machine, under the block's own parameters. -/

namespace Sys2Proof.Machine

/-- One indivisible step of one agent (R17, R19). -/
def step (s : State) : Host.Outcome State Fault Refusal := stepWith Config.block s

/-- The state in which the very next step fetches and runs the opcode whose table word is given: a
DECODE is under way, the word stands at frame offset SP, and the turn is DEC's (log 14). -/
def State.withFetchWord (s : State) (nbits w : Nat) : State := placeWord s nbits w

end Sys2Proof.Machine
end

