-- ==== Sys2Proof/Safety.lean ====
section
/-! DEFINITION. What holds of the machine at rest and between steps: the invariant, in the terms
claims use. Every clause is a property the spec derives from its rules. -/

namespace Sys2Proof.Safety

open Sys2Proof.Machine

/-- A slot that was written holds a pixel whose hash is the slot's number; the others hold
(0,0,0,0) (R96). -/
def CacheHonest (c : PixelCache) : Prop :=
  ∀ k : Slot, c.get k = Pixel.blank ∨ hashSlot (c.get k) = k

/-- BUSY and DONE are never both 1 (R37). -/
def StatusLegal (st : Status) : Prop := ¬ (st.busy = true ∧ st.done = true)

/-- DEC's fields and counters of ADDR_BITS bits hold values below 2^ADDR_BITS (R21, R35). -/
structure DecWidthsFit (cfg : Config) (d : Decoder) : Prop where
  frameBase : fits cfg d.frameBase = true
  frameLen : fits cfg d.frameLen = true
  dstBase : fits cfg d.dstBase = true
  dstCap : fits cfg d.dstCap = true
  outLen : fits cfg d.outLen = true
  sp : fits cfg d.sp = true
  pix : fits cfg d.pix = true
  n : fits cfg d.n = true
  limit : fits cfg d.limit = true
  fb : fits cfg d.fb = true
  db : fits cfg d.db = true

/-- ENC's fields and counters of ADDR_BITS bits hold values below 2^ADDR_BITS (R27, R36). -/
structure EncWidthsFit (cfg : Config) (e : Encoder) : Prop where
  srcBase : fits cfg e.srcBase = true
  stride : fits cfg e.stride = true
  outBase : fits cfg e.outBase = true
  outCap : fits cfg e.outCap = true
  outLen : fits cfg e.outLen = true
  pix : fits cfg e.pix = true
  op : fits cfg e.op = true
  n : fits cfg e.n = true
  sb : fits cfg e.sb = true
  ob : fits cfg e.ob = true

/-- A DECODE under way: the latched copies agree with the fields (R39), the start checks hold (R139),
SP is within its bounds (R25) and pixels remain (R107). -/
structure DecodeUnderWay (cfg : Config) (d : Decoder) : Prop where
  command : d.cmd = 0x01
  code : d.status.code = .ok
  outLen : d.outLen = 0
  fb : d.fb = d.frameBase
  db : d.db = d.dstBase
  limit : d.limit + trailerBytes = d.frameLen
  frameLen : minFrame ≤ d.frameLen
  frame : regionOk cfg (frameRegion d) = true
  dst : regionOk cfg (dstRegion d) = true
  apart : regionsOverlap (frameRegion d) (dstRegion d) = false
  n : d.n = d.hdrWidth.toNat * d.hdrHeight.toNat
  srcCh : d.srcCh = d.hdrChannels
  srcChOk : channelsOk d.srcCh = true
  outCh : d.outCh = if d.outChReq = 0 then d.srcCh else d.outChReq
  outChOk : channelsOk d.outCh = true
  room : d.n * d.outCh.toNat ≤ d.dstCap
  remain : d.pix < d.n
  spLow : headerBytes ≤ d.sp
  spHigh : d.sp ≤ d.limit + 4

/-- An ENCODE under way: the latched copies agree with the fields (R39), the start checks hold (R142),
and what has been put so far leaves room for the rest (R132). -/
structure EncodeUnderWay (cfg : Config) (e : Encoder) : Prop where
  command : e.cmd = 0x02
  code : e.status.code = .ok
  outLen : e.outLen = 0
  sb : e.sb = e.srcBase
  ob : e.ob = e.outBase
  ch : e.ch = e.channels
  chOk : channelsOk e.ch = true
  n : e.n = e.width.toNat * e.height.toNat
  src : regionOk cfg (srcRegion e) = true
  out : regionOk cfg (outRegion e) = true
  apart : regionsOverlap (srcRegion e) (outRegion e) = false
  room : frameBound e ≤ e.outCap
  remain : e.pix < e.n
  opaque_ : e.ch = 3 → e.cur.a = 0xFF
  atHeader : e.op = 0 → e.pix = 0 ∧ e.runacc = 0 ∧ e.cur = Pixel.initial ∧ e.cache = PixelCache.blank
  afterHeader : e.op ≠ 0 → headerBytes ≤ e.op ∧
    e.op + (encRunActive e).toNat ≤ headerBytes + e.pix * (e.ch.toNat + 1)

/-- The invariant: what every step keeps, whoever moves. -/
structure Inv (cfg : Config) (s : State) : Prop where
  memWf : Memory.wf s.mem = true
  unseenOnce : (s.unseen.map Unseen.addr).Nodup
  decWidths : DecWidthsFit cfg s.dec
  encWidths : EncWidthsFit cfg s.enc
  decStatus : StatusLegal s.dec.status
  encStatus : StatusLegal s.enc.status
  decCache : CacheHonest s.dec.cache
  encCache : CacheHonest s.enc.cache
  decRun : s.dec.runcnt.toNat ≤ 61
  encRun : s.enc.runacc.toNat ≤ 60
  decode : s.dec.status.busy = true → DecodeUnderWay cfg s.dec
  encode : s.enc.status.busy = true → EncodeUnderWay cfg s.enc
  enginesApart : s.dec.status.busy = true →
    meetsRunningEnc s (frameRegion s.dec) = false ∧ meetsRunningEnc s (dstRegion s.dec) = false

/-- The next step is a pixel step of DEC (R107). -/
def DecMoves (s : State) : Prop := mover s = .dec ∧ decRunning s.dec = true

/-- The next step is a header or pixel step of ENC (R118, R120). -/
def EncMoves (s : State) : Prop := mover s = .enc ∧ encRunning s.enc = true

/-- The next step is the host's, and it makes the move given (R19). -/
def HostMoves (s : State) (op : HostOp) : Prop := mover s = .host ∧ s.host.todo.head? = some op

/-- `k` steps of the machine, stopping at the first that gives no next state. -/
def runFor (k : Nat) (s : State) : Host.Outcome State Fault Refusal :=
  Host.Core.run Sys2Proof.core k s

/-- The state after the turn and the host's move are taken off, before the move's effect. -/
def afterTake (s : State) : State :=
  { s with turns := s.turns.tail, host := { s.host with todo := s.host.todo.tail } }

/-- The `n` bytes of memory from an address up. -/
def bytesAt (m : Memory) (a : Nat) (n : Nat) : List Byte :=
  (List.range n).map fun j => Memory.byteAt m (a + j)

/-- Memory `m'` is memory `m` with exactly the bytes `bs` stored from `a` up. -/
def StoresExactly (m m' : Memory) (a : Nat) (bs : List Byte) : Prop :=
  (∀ j (h : j < bs.length), Memory.byteAt m' (a + j) = bs[j]) ∧
    ∀ x, x < a ∨ a + bs.length ≤ x → Memory.byteAt m' x = Memory.byteAt m x

/-- DEC's command ended in its start step with an error code: no memory written, OUT_LEN 0, ENC
untouched (R16, R149). -/
def DecStartFails (s t : State) (code : Code) : Prop :=
  t.dec.status = ⟨code, false, true⟩ ∧ t.dec.outLen = 0 ∧ t.mem = s.mem ∧ t.enc = s.enc

/-- ENC's command ended in its start step with an error code (R16, R149). -/
def EncStartFails (s t : State) (code : Code) : Prop :=
  t.enc.status = ⟨code, false, true⟩ ∧ t.enc.outLen = 0 ∧ t.mem = s.mem ∧ t.dec = s.dec

/-- The HDR fields are as they were. -/
def SameHeader (d d' : Decoder) : Prop :=
  d'.hdrWidth = d.hdrWidth ∧ d'.hdrHeight = d.hdrHeight ∧ d'.hdrChannels = d.hdrChannels ∧
    d'.hdrColorspace = d.hdrColorspace

/-- The byte at a frame offset, `F(o)` of 44_commands.md, as a number. -/
def frameByte (s : State) (o : Nat) : Nat := (Memory.byteAt s.mem (s.dec.frameBase + o)).toNat

/-- The header's width, big-endian at frame offsets 4..7 (R47). -/
def frameWidth (s : State) : Nat :=
  frameByte s 4 * 16777216 + frameByte s 5 * 65536 + frameByte s 6 * 256 + frameByte s 7

/-- The header's height, big-endian at frame offsets 8..11 (R47). -/
def frameHeight (s : State) : Nat :=
  frameByte s 8 * 16777216 + frameByte s 9 * 65536 + frameByte s 10 * 256 + frameByte s 11

/-- The HDR fields hold the header of the frame in memory (R137). -/
def HeaderReported (s t : State) : Prop :=
  t.dec.hdrWidth.toNat = frameWidth s ∧ t.dec.hdrHeight.toNat = frameHeight s ∧
    t.dec.hdrChannels.toNat = frameByte s 12 ∧ t.dec.hdrColorspace.toNat = frameByte s 13

/-- The pixel the encoder's next pixel step reads (R119, R64). -/
def NextSourcePixel (s : State) (px : Pixel) : Prop :=
  let a := s.enc.sb + s.enc.pix * s.enc.ch.toNat
  px.r = Memory.byteAt s.mem a ∧ px.g = Memory.byteAt s.mem (a + 1) ∧
    px.b = Memory.byteAt s.mem (a + 2) ∧
    px.a = if s.enc.ch = 4 then Memory.byteAt s.mem (a + 3) else 0xFF

/-- The next pixel step is the command's last one (R107, R120). -/
def encLast (s : State) : Bool := decide (s.enc.pix + 1 = s.enc.n)

/-- What a DECODE's fields and counters other than the pixel path hold on to in a pixel step. -/
def SameDecodeCommand (d d' : Decoder) : Prop :=
  d'.cmd = d.cmd ∧ d'.frameBase = d.frameBase ∧ d'.frameLen = d.frameLen ∧ d'.dstBase = d.dstBase ∧
    d'.dstCap = d.dstCap ∧ d'.outChReq = d.outChReq ∧ SameHeader d d' ∧ d'.n = d.n ∧
    d'.limit = d.limit ∧ d'.srcCh = d.srcCh ∧ d'.outCh = d.outCh ∧ d'.fb = d.fb ∧ d'.db = d.db

/-- What an ENCODE's fields and latched copies hold on to in every step it takes. -/
def SameEncodeCommand (e e' : Encoder) : Prop :=
  e'.cmd = e.cmd ∧ e'.srcBase = e.srcBase ∧ e'.width = e.width ∧ e'.height = e.height ∧
    e'.channels = e.channels ∧ e'.stride = e.stride ∧ e'.outBase = e.outBase ∧ e'.outCap = e.outCap ∧
    e'.colorspace = e.colorspace ∧ e'.n = e.n ∧ e'.ch = e.ch ∧ e'.sb = e.sb ∧ e'.ob = e.ob

/-- DEC's read-write fields read as they did (R34, R35). -/
def SameDecFields (d d' : Decoder) : Prop :=
  ∀ no, 1 ≤ no → no ≤ 5 → readDecField no d' = readDecField no d

/-- ENC's read-write fields read as they did (R34, R36). -/
def SameEncFields (e e' : Encoder) : Prop :=
  ∀ no, 1 ≤ no → no ≤ 8 → readEncField no e' = readEncField no e

end Sys2Proof.Safety
end

