-- ==== Sys2Proof/Certificates/Slice0/Obligations.lean ====
section
/-! DEFINITION. What is claimed of the model, for the provers. The numbered rules are those of spec/;
OBLIGATIONS.json gives each claim's title, its text and the rules it formalises. -/

open Sys2Proof Sys2Proof.Machine Sys2Proof.Safety

/-! ## Reset and the invariant -/

/-- R41, R160: after power-on every field reads 0, CMD is 0, and the working state has its initial
values. -/
def Obligations.ResetFieldsReadZero : Prop :=
  (∀ no, readDecField no State.reset.dec = 0 ∧ readEncField no State.reset.enc = 0) ∧
    State.reset.dec.cmd = 0 ∧ State.reset.enc.cmd = 0 ∧
    State.reset.dec.cur = ⟨0, 0, 0, 255⟩ ∧ State.reset.enc.cur = ⟨0, 0, 0, 255⟩ ∧
    (∀ k, State.reset.dec.cache.get k = ⟨0, 0, 0, 0⟩ ∧ State.reset.enc.cache.get k = ⟨0, 0, 0, 0⟩) ∧
    State.reset.dec.runcnt = 0 ∧ State.reset.enc.runacc = 0 ∧
    State.reset.dec.sp = 0 ∧ State.reset.dec.pix = 0 ∧ State.reset.enc.pix = 0 ∧
    State.reset.enc.op = 0 ∧ State.reset.dec.n = 0 ∧ State.reset.dec.limit = 0 ∧
    State.reset.dec.srcCh = 0 ∧ State.reset.dec.outCh = 0 ∧ State.reset.dec.fb = 0 ∧
    State.reset.dec.db = 0 ∧ State.reset.enc.n = 0 ∧ State.reset.enc.ch = 0 ∧
    State.reset.enc.sb = 0 ∧ State.reset.enc.ob = 0

/-- The invariant holds at reset. -/
def Obligations.InvAtReset : Prop := Inv Config.block State.reset

/-- Every step keeps the invariant, whichever agent moves. -/
def Obligations.StepKeepsInv : Prop :=
  ∀ s t, Inv Config.block s → step s = .next t → Inv Config.block t

/-! ## Encoding -/

/-- Every well-formed opcode is decoded from its own bytes, whatever follows them. -/
def Obligations.DecodeOfEncode : Prop :=
  ∀ i rest, i.wf = true → decode (encode i ++ rest) = .ok (i, rest)

/-- What the decoder accepts is a well-formed opcode's bytes: an opcode has one encoding. -/
def Obligations.EncodeOfDecode : Prop :=
  ∀ bs i rest, decode bs = .ok (i, rest) → i.wf = true ∧ encode i ++ rest = bs

/-- R79, with the operands of R74 to R77: the tag byte's value picks the opcode. -/
def Obligations.TagValuePicksOpcode : Prop :=
  ∀ (b1 b2 b3 b4 b5 : Byte),
    let v := b1.toNat
    let w := b2.toNat
    (∀ h : v < 64, decodeOp b1 b2 b3 b4 b5 = .index ⟨v, h⟩) ∧
    (64 ≤ v → v < 128 →
      decodeOp b1 b2 b3 b4 b5 =
        .diff ((v - 64) / 16 - 2 : Int) ((v - 64) / 4 % 4 - 2 : Int) ((v - 64) % 4 - 2 : Int)) ∧
    (128 ≤ v → v < 192 →
      decodeOp b1 b2 b3 b4 b5 = .luma (v - 160 : Int) (w / 16 - 8 : Int) (w % 16 - 8 : Int)) ∧
    (192 ≤ v → v < 254 → decodeOp b1 b2 b3 b4 b5 = .run (v - 192)) ∧
    (v = 254 → decodeOp b1 b2 b3 b4 b5 = .rgb b2 b3 b4) ∧
    (v = 255 → decodeOp b1 b2 b3 b4 b5 = .rgba b2 b3 b4 b5)

/-- R66: an opcode's length by its tag byte, and the decoder takes exactly that many bytes. -/
def Obligations.DecoderTakesOpcodeLength : Prop :=
  ∀ (b1 : Byte) (rest : List Byte),
    let len := if b1.toNat = 254 then 4 else if b1.toNat = 255 then 5
      else if 128 ≤ b1.toNat ∧ b1.toNat < 192 then 2 else 1
    (rest.length + 1 < len → ∃ e, decode (b1 :: rest) = .error e) ∧
    (len ≤ rest.length + 1 → ∃ i, decode (b1 :: rest) = .ok (i, rest.drop (len - 1)))

/-- One word of each opcode, written out from the encodings of R68 to R73. -/
def Obligations.OpcodeWordsDecode : Prop :=
  decode [0b11111110, 0x0A, 0x14, 0x1E] = .ok (.rgb 10 20 30, []) ∧
  decode [0b11111111, 0x01, 0x02, 0x03, 0x04] = .ok (.rgba 1 2 3 4, []) ∧
  decode [0b00001001] = .ok (.index 9, []) ∧
  decode [0b01110010] = .ok (.diff 1 (-2) 0, []) ∧
  decode [0b10101010, 0b01011111] = .ok (.luma 10 (-3) 7, []) ∧
  decode [0b11000011] = .ok (.run 3, [])

/-! ## The six opcodes -/

/-- R100: RGB, from its bytes to its effect. The slot is given by the hash formula of R85 on plain
numbers; nothing but CUR, that slot and SP changes. -/
def Obligations.RgbSetsColourKeepsAlpha : Prop :=
  ∀ (r g b : Byte) (s : State), (∀ b5, decodeOp 0xFE r g b b5 = .rgb r g b) ∧
    ∃ t, exec (.rgb r g b) s = .next t ∧
    t.dec.cur = ⟨r, g, b, s.dec.cur.a⟩ ∧
    (∀ k : Slot, t.dec.cache.get k =
      if k.val = (3 * r.toNat + 5 * g.toNat + 7 * b.toNat + 11 * s.dec.cur.a.toNat) % 64
      then ⟨r, g, b, s.dec.cur.a⟩ else s.dec.cache.get k) ∧
    t.dec.sp = s.dec.sp + 4 ∧
    t = { s with dec := { s.dec with cur := t.dec.cur, cache := t.dec.cache, sp := t.dec.sp } }

/-- R101: RGBA, from its bytes to its effect. -/
def Obligations.RgbaSetsAllChannels : Prop :=
  ∀ (r g b a : Byte) (s : State), decodeOp 0xFF r g b a = .rgba r g b a ∧
    ∃ t, exec (.rgba r g b a) s = .next t ∧
    t.dec.cur = ⟨r, g, b, a⟩ ∧
    (∀ k : Slot, t.dec.cache.get k =
      if k.val = (3 * r.toNat + 5 * g.toNat + 7 * b.toNat + 11 * a.toNat) % 64
      then ⟨r, g, b, a⟩ else s.dec.cache.get k) ∧
    t.dec.sp = s.dec.sp + 5 ∧
    t = { s with dec := { s.dec with cur := t.dec.cur, cache := t.dec.cache, sp := t.dec.sp } }

/-- R102, R88: INDEX copies the slot and inserts nothing, whatever the pixel's hash. In a cache that
only inserts have filled, a slot whose pixel does not hash to it yields (0,0,0,0) (R96). -/
def Obligations.IndexCopiesSlotVerbatim : Prop :=
  ∀ (k : Slot) (s : State),
    (∀ b1 b2 b3 b4 b5 : Byte, b1.toNat = k.val → decodeOp b1 b2 b3 b4 b5 = .index k) ∧
    ∃ t, exec (.index k) s = .next t ∧
    t.dec.cur = s.dec.cache.get k ∧ t.dec.sp = s.dec.sp + 1 ∧
    t = { s with dec := { s.dec with cur := t.dec.cur, sp := t.dec.sp } } ∧
    (CacheHonest s.dec.cache →
      (3 * t.dec.cur.r.toNat + 5 * t.dec.cur.g.toNat + 7 * t.dec.cur.b.toNat
        + 11 * t.dec.cur.a.toNat) % 64 ≠ k.val → t.dec.cur = ⟨0, 0, 0, 0⟩)

/-- R103: DIFF. Each new channel value is the old one plus its delta, mod 256. -/
def Obligations.DiffAddsDeltasModulo256 : Prop :=
  ∀ (dr dg db : Int) (s : State),
    (-2 ≤ dr ∧ dr ≤ 1 → -2 ≤ dg ∧ dg ≤ 1 → -2 ≤ db ∧ db ≤ 1 → ∀ b1 b2 b3 b4 b5 : Byte,
      (b1.toNat : Int) = 0x40 + 16 * (dr + 2) + 4 * (dg + 2) + (db + 2) →
        decodeOp b1 b2 b3 b4 b5 = .diff dr dg db) ∧
    ∃ t, exec (.diff dr dg db) s = .next t ∧
    (t.dec.cur.r.toNat : Int) = (s.dec.cur.r.toNat + dr) % 256 ∧
    (t.dec.cur.g.toNat : Int) = (s.dec.cur.g.toNat + dg) % 256 ∧
    (t.dec.cur.b.toNat : Int) = (s.dec.cur.b.toNat + db) % 256 ∧
    t.dec.cur.a = s.dec.cur.a ∧
    (∀ k : Slot, t.dec.cache.get k =
      if k.val = (3 * t.dec.cur.r.toNat + 5 * t.dec.cur.g.toNat + 7 * t.dec.cur.b.toNat
        + 11 * t.dec.cur.a.toNat) % 64 then t.dec.cur else s.dec.cache.get k) ∧
    t.dec.sp = s.dec.sp + 1 ∧
    t = { s with dec := { s.dec with cur := t.dec.cur, cache := t.dec.cache, sp := t.dec.sp } }

/-- R104: LUMA. The red change is the green one plus drg, the blue change the green one plus dbg. -/
def Obligations.LumaAddsGreenAndCrossDeltas : Prop :=
  ∀ (vg drg dbg : Int) (s : State),
    (-32 ≤ vg ∧ vg ≤ 31 → -8 ≤ drg ∧ drg ≤ 7 → -8 ≤ dbg ∧ dbg ≤ 7 → ∀ b1 b2 b3 b4 b5 : Byte,
      (b1.toNat : Int) = 0x80 + (vg + 32) → (b2.toNat : Int) = 16 * (drg + 8) + (dbg + 8) →
        decodeOp b1 b2 b3 b4 b5 = .luma vg drg dbg) ∧
    ∃ t, exec (.luma vg drg dbg) s = .next t ∧
    (t.dec.cur.r.toNat : Int) = (s.dec.cur.r.toNat + (vg + drg)) % 256 ∧
    (t.dec.cur.g.toNat : Int) = (s.dec.cur.g.toNat + vg) % 256 ∧
    (t.dec.cur.b.toNat : Int) = (s.dec.cur.b.toNat + (vg + dbg)) % 256 ∧
    t.dec.cur.a = s.dec.cur.a ∧
    (∀ k : Slot, t.dec.cache.get k =
      if k.val = (3 * t.dec.cur.r.toNat + 5 * t.dec.cur.g.toNat + 7 * t.dec.cur.b.toNat
        + 11 * t.dec.cur.a.toNat) % 64 then t.dec.cur else s.dec.cache.get k) ∧
    t.dec.sp = s.dec.sp + 2 ∧
    t = { s with dec := { s.dec with cur := t.dec.cur, cache := t.dec.cache, sp := t.dec.sp } }

/-- R105: RUN. What the steps after it emit is said by `ActiveRunEmitsCur`. -/
def Obligations.RunSetsRunCount : Prop :=
  ∀ (n : Nat) (s : State), n ≤ 61 →
    (∀ b1 b2 b3 b4 b5 : Byte, b1.toNat = 0xC0 + n → decodeOp b1 b2 b3 b4 b5 = .run n) ∧
    ∃ t, exec (.run n) s = .next t ∧
    t.dec.runcnt.toNat = n ∧ t.dec.sp = s.dec.sp + 1 ∧
    t = { s with dec := { s.dec with runcnt := t.dec.runcnt, sp := t.dec.sp } }

/-- R99: what no opcode changes, whatever its operands: memory, the encoder, the host, the turns, and
every field, status bit and counter of the decoder but CUR, the cache, RUNCNT and SP. SP advances by the
length of the opcode's bytes. -/
def Obligations.OpcodeFrame : Prop :=
  ∀ (i : Instr) (s t : State), exec i s = .next t →
    (∀ a, Memory.byteAt t.mem a = Memory.byteAt s.mem a) ∧ t.enc = s.enc ∧ t.host = s.host ∧
    t.turns = s.turns ∧ SameDecodeCommand s.dec t.dec ∧ t.dec.status = s.dec.status ∧
    t.dec.outLen = s.dec.outLen ∧ t.dec.pix = s.dec.pix ∧
    t.dec.sp = s.dec.sp + (encode i).length

/-- R85, R86: the hash formula, its bound, and that any width of at least 6 bits, wrapping, has the
same low six bits. -/
def Obligations.HashInAnyWidth : Prop :=
  ∀ (w : Nat) (p : Pixel), 6 ≤ w →
    3 * p.r.toNat + 5 * p.g.toNat + 7 * p.b.toNat + 11 * p.a.toNat ≤ 6630 ∧
    (hashSlot p).val = (3 * p.r.toNat + 5 * p.g.toNat + 7 * p.b.toNat + 11 * p.a.toNat) % 64 ∧
    (3#w * p.r.setWidth w + 5#w * p.g.setWidth w + 7#w * p.b.setWidth w + 11#w * p.a.setWidth w).toNat
      % 64 = (hashSlot p).val

/-! ## The decoder's sequencer -/

/-- R107, R98, R109: when DEC moves with no run active and SP before LIMIT, and the bytes at SP decode
to an opcode, the step runs that opcode and then emits the pixel. The payload may lie at or after LIMIT. -/
def Obligations.StepRunsDecodedOpcode : Prop :=
  ∀ (s : State) (n : Nat) (i : Instr) (rest : List Byte), DecMoves s → s.dec.runcnt = 0 →
    s.dec.sp < s.dec.limit → s.dec.fb + s.dec.sp + n ≤ Config.block.memSize →
    decode (bytesAt s.mem (s.dec.fb + s.dec.sp) n) = .ok (i, rest) →
    step s = andThen (exec i { s with turns := s.turns.tail }) (emitPixel Config.block)

/-- R107 case 1, R111: an active run leaves one pixel and reads no stream byte. -/
def Obligations.ActiveRunEmitsCur : Prop :=
  ∀ s, Inv Config.block s → DecMoves s → s.dec.runcnt ≠ 0 → ∃ t, step s = .next t ∧
    t.dec.cur = s.dec.cur ∧ t.dec.cache = s.dec.cache ∧ t.dec.sp = s.dec.sp ∧
    t.dec.runcnt.toNat = s.dec.runcnt.toNat - 1 ∧ t.dec.pix = s.dec.pix + 1 ∧
    StoresExactly s.mem t.mem (s.dec.db + s.dec.pix * s.dec.outCh.toNat)
      (outBytes s.dec.srcCh s.dec.outCh s.dec.cur)

/-- R107 case 3, R110, R111: from an exhausted stream with no run active, every remaining pixel is
CUR, and the DECODE ends with code 0. -/
def Obligations.ExhaustedStreamRepeatsCur : Prop :=
  ∀ s, Inv Config.block s → s.turns = [] → s.dec.status.busy = true → s.dec.runcnt = 0 →
    s.dec.limit ≤ s.dec.sp →
    ∃ t : State, runFor (s.dec.n - s.dec.pix) s = .next t ∧
      t.dec.status = ⟨.ok, false, true⟩ ∧ t.dec.cur = s.dec.cur ∧ t.dec.cache = s.dec.cache ∧
      t.dec.sp = s.dec.sp ∧
      (∀ i j, s.dec.pix ≤ i → i < s.dec.n →
        ∀ h : j < (outBytes s.dec.srcCh s.dec.outCh s.dec.cur).length,
        Memory.byteAt t.mem (s.dec.db + i * s.dec.outCh.toNat + j) =
          (outBytes s.dec.srcCh s.dec.outCh s.dec.cur)[j])

/-- R65, R114: the bytes written for a pixel, for each legal pair of channel counts, and their place;
every other byte of memory stays. -/
def Obligations.PixelStepWritesFormattedPixel : Prop :=
  ∀ s, Inv Config.block s → DecMoves s → ∃ t, step s = .next t ∧ t.dec.pix = s.dec.pix + 1 ∧
    (s.dec.outCh = 3 → StoresExactly s.mem t.mem (s.dec.db + s.dec.pix * 3)
      [t.dec.cur.r, t.dec.cur.g, t.dec.cur.b]) ∧
    (s.dec.outCh = 4 → s.dec.srcCh = 4 → StoresExactly s.mem t.mem (s.dec.db + s.dec.pix * 4)
      [t.dec.cur.r, t.dec.cur.g, t.dec.cur.b, t.dec.cur.a]) ∧
    (s.dec.outCh = 4 → s.dec.srcCh = 3 → StoresExactly s.mem t.mem (s.dec.db + s.dec.pix * 4)
      [t.dec.cur.r, t.dec.cur.g, t.dec.cur.b, 0xFF])

/-- R115: the step in which PIX reaches N sets OUT_LEN and ends the command with code 0, dropping
what is left of a run; every earlier step leaves the command running with OUT_LEN 0. -/
def Obligations.DecodeFinishesAtLastPixel : Prop :=
  ∀ s t, Inv Config.block s → DecMoves s → step s = .next t →
    (s.dec.pix + 1 = s.dec.n →
      t.dec.status = ⟨.ok, false, true⟩ ∧ t.dec.outLen = s.dec.n * s.dec.outCh.toNat) ∧
    (s.dec.pix + 1 < s.dec.n → t.dec.status = ⟨.ok, true, false⟩ ∧ t.dec.outLen = 0)

/-- R24, R25, R109: SP never moves back, stays at or below LIMIT + 4, and a payload stays inside the
frame. -/
def Obligations.StreamPointerStaysInFrame : Prop :=
  ∀ s t, Inv Config.block s → DecMoves s → step s = .next t →
    s.dec.sp ≤ t.dec.sp ∧ t.dec.sp ≤ s.dec.limit + 4 ∧ t.dec.sp + 4 ≤ s.dec.frameLen ∧
    (t.dec.sp = s.dec.sp ∨ (s.dec.runcnt = 0 ∧ s.dec.sp < s.dec.limit ∧
      t.dec.sp = s.dec.sp + opLength (Memory.byteAt s.mem (s.dec.frameBase + s.dec.sp))))

/-- R107, R19: what a pixel step of DEC changes nothing of. -/
def Obligations.PixelStepFrame : Prop :=
  ∀ s t, DecMoves s → step s = .next t →
    t.enc = s.enc ∧ t.host = s.host ∧ t.turns = s.turns.tail ∧ SameDecodeCommand s.dec t.dec

/-- R116: a DECODE under way ends after exactly as many steps as pixels remain, and not before. -/
def Obligations.DecodeEndsAfterRemainingPixels : Prop :=
  ∀ s, Inv Config.block s → s.turns = [] → s.dec.status.busy = true →
    (∃ t : State, runFor (s.dec.n - s.dec.pix) s = .next t ∧
      t.dec.status = ⟨.ok, false, true⟩ ∧ t.dec.pix = s.dec.n ∧
      t.dec.outLen = s.dec.n * s.dec.outCh.toNat) ∧
    ∀ k, k < s.dec.n - s.dec.pix →
      ∃ t : State, runFor k s = .next t ∧ t.dec.status.busy = true

/-! ## The encoder -/

/-- R118, R82: the header step, and what ENC's working state is after it. -/
def Obligations.HeaderStepWritesFrameHeader : Prop :=
  ∀ s, Inv Config.block s → EncMoves s → s.enc.op = 0 → ∃ t, step s = .next t ∧
    StoresExactly s.mem t.mem s.enc.outBase
      (Config.block.magic.toList ++
        [BitVec.ofNat 8 (s.enc.width.toNat / 16777216), BitVec.ofNat 8 (s.enc.width.toNat / 65536),
          BitVec.ofNat 8 (s.enc.width.toNat / 256), BitVec.ofNat 8 s.enc.width.toNat,
          BitVec.ofNat 8 (s.enc.height.toNat / 16777216), BitVec.ofNat 8 (s.enc.height.toNat / 65536),
          BitVec.ofNat 8 (s.enc.height.toNat / 256), BitVec.ofNat 8 s.enc.height.toNat,
          s.enc.channels, s.enc.colorspace]) ∧
    t.enc = { s.enc with op := 14 } ∧ t.dec = s.dec ∧ t.host = s.host ∧ t.enc.pix = 0 ∧
    t.enc.cur = ⟨0, 0, 0, 255⟩ ∧ (∀ k, t.enc.cache.get k = ⟨0, 0, 0, 0⟩) ∧ t.enc.runacc = 0

/-- R122: the predictor's deltas are the wrapped ones. -/
def Obligations.DeltasAreWrapped : Prop :=
  ∀ new old : Byte, -128 ≤ delta8 new old ∧ delta8 new old ≤ 127 ∧
    ((old.toNat : Int) + delta8 new old) % 256 = new.toNat ∧ add8 old (delta8 new old) = new

/-- R121, R122 and R126 to R130: which opcode a pixel is given. `dr`, `dg`, `db` are the wrapped
deltas, told apart by their range and by what they add up to. -/
def Obligations.BranchesInFixedOrder : Prop :=
  ∀ (c : PixelCache) (cur px : Pixel) (dr dg db : Int),
    (-128 ≤ dr ∧ dr ≤ 127 ∧ ((cur.r.toNat : Int) + dr) % 256 = px.r.toNat) →
    (-128 ≤ dg ∧ dg ≤ 127 ∧ ((cur.g.toNat : Int) + dg) % 256 = px.g.toNat) →
    (-128 ≤ db ∧ db ≤ 127 ∧ ((cur.b.toNat : Int) + db) % 256 = px.b.toNat) →
    let hit := c.get (hashSlot px) = px
    let diffs := -2 ≤ dr ∧ dr ≤ 1 ∧ -2 ≤ dg ∧ dg ≤ 1 ∧ -2 ≤ db ∧ db ≤ 1
    let lumas := -32 ≤ dg ∧ dg ≤ 31 ∧ -8 ≤ dr - dg ∧ dr - dg ≤ 7 ∧ -8 ≤ db - dg ∧ db - dg ≤ 7
    (hit → predict c cur px = .index (hashSlot px)) ∧
    (¬hit → px.a = cur.a → diffs → predict c cur px = .diff dr dg db) ∧
    (¬hit → px.a = cur.a → ¬diffs → lumas → predict c cur px = .luma dg (dr - dg) (db - dg)) ∧
    (¬hit → px.a = cur.a → ¬diffs → ¬lumas → predict c cur px = .rgb px.r px.g px.b) ∧
    (¬hit → px.a ≠ cur.a → predict c cur px = .rgba px.r px.g px.b px.a)

/-- R120, R123: a pixel equal to CUR extends the run; at 61 pixels or at the last pixel one RUN byte is
put, and the trailer follows the last pixel (R131). CUR and the cache stay. -/
def Obligations.EqualPixelExtendsRun : Prop :=
  ∀ s, Inv Config.block s → EncMoves s → s.enc.op ≠ 0 → NextSourcePixel s s.enc.cur →
    let flush := s.enc.runacc.toNat + 1 = 61 ∨ s.enc.pix + 1 = s.enc.n
    ∃ (t : State) (out : List Byte), step s = .next t ∧
      (flush → out = [BitVec.ofNat 8 (0xC0 + s.enc.runacc.toNat)] ∧ t.enc.runacc = 0) ∧
      (¬flush → out = [] ∧ t.enc.runacc.toNat = s.enc.runacc.toNat + 1) ∧
      StoresExactly s.mem t.mem (s.enc.outBase + s.enc.op)
        (out ++ if s.enc.pix + 1 = s.enc.n then Config.block.trailer.toList else []) ∧
      t.enc.op = s.enc.op + out.length + (if s.enc.pix + 1 = s.enc.n then 8 else 0) ∧
      t.enc.cur = s.enc.cur ∧ t.enc.cache = s.enc.cache ∧ t.enc.pix = s.enc.pix + 1 ∧ t.dec = s.dec

/-- R120, R124, R90, R91: a pixel that differs from CUR flushes an active run, then puts the opcode the
predictor gives it, becomes CUR, and is in its slot afterwards; no other slot changes. -/
def Obligations.NewPixelFlushesAndPutsOpcode : Prop :=
  ∀ s px, Inv Config.block s → EncMoves s → s.enc.op ≠ 0 → NextSourcePixel s px → px ≠ s.enc.cur →
    ∃ (t : State) (run : List Byte), step s = .next t ∧
      (s.enc.runacc = 0 → run = []) ∧
      (s.enc.runacc ≠ 0 → run = [BitVec.ofNat 8 (0xC0 + (s.enc.runacc.toNat - 1))]) ∧
      StoresExactly s.mem t.mem (s.enc.outBase + s.enc.op)
        (run ++ encode (predict s.enc.cache s.enc.cur px) ++
          if s.enc.pix + 1 = s.enc.n then Config.block.trailer.toList else []) ∧
      t.enc.op = s.enc.op + run.length + (encode (predict s.enc.cache s.enc.cur px)).length
        + (if s.enc.pix + 1 = s.enc.n then 8 else 0) ∧
      t.enc.cur = px ∧ t.enc.runacc = 0 ∧ t.enc.pix = s.enc.pix + 1 ∧ t.dec = s.dec ∧
      ∀ k : Slot, t.enc.cache.get k = if k = hashSlot px then px else s.enc.cache.get k

/-- R131: the step in which PIX reaches N puts the trailer last, reports the frame's length and ends the
command with code 0; every earlier step leaves the command running with OUT_LEN 0. -/
def Obligations.EncodeFinishesAtLastPixel : Prop :=
  ∀ s t, Inv Config.block s → EncMoves s → s.enc.op ≠ 0 → step s = .next t →
    (s.enc.pix + 1 = s.enc.n →
      bytesAt t.mem (s.enc.outBase + t.enc.op - 8) 8 = Config.block.trailer.toList ∧
      t.enc.status = ⟨.ok, false, true⟩ ∧ t.enc.outLen = t.enc.op ∧ t.enc.runacc = 0) ∧
    (s.enc.pix + 1 < s.enc.n → t.enc.status = ⟨.ok, true, false⟩ ∧ t.enc.outLen = 0)

/-- R39, R120, R118: what no step of ENC changes, header step or pixel step. -/
def Obligations.EncodeStepFrame : Prop :=
  ∀ s t, Inv Config.block s → EncMoves s → step s = .next t →
    SameEncodeCommand s.enc t.enc ∧ SameEncFields s.enc t.enc ∧ t.dec = s.dec ∧ t.host = s.host ∧
    t.turns = s.turns.tail

/-- R81: what the encoder never emits. Whatever pixel comes, the bytes of one step are those of
well-formed opcodes, a RUN covers at most 61 pixels, an INDEX names the pixel's own slot, which holds it,
and a DIFF or LUMA comes only where alpha is kept. -/
def Obligations.EncoderNeverEmits : Prop :=
  ∀ (e : Encoder) (px : Pixel) (last : Bool), e.runacc.toNat ≤ 60 →
    ∃ ops : List Instr, (encodeOne e px last).1 = ops.flatMap encode ∧ ops.length ≤ 2 ∧
      ∀ i ∈ ops, i.wf = true ∧ (∀ n, i = .run n → n ≤ 60) ∧
        (∀ k, i = .index k → k = hashSlot px ∧ e.cache.get k = px) ∧
        (∀ dr dg db, i = .diff dr dg db → px.a = e.cur.a) ∧
        (∀ vg drg dbg, i = .luma vg drg dbg → px.a = e.cur.a)

/-- R132: the bytes put so far leave the worst case for the rest inside OUT. -/
def Obligations.OutputStaysWithinBound : Prop :=
  ∀ s t, Inv Config.block s → EncMoves s → step s = .next t →
    s.enc.op ≤ t.enc.op ∧ t.enc.op ≤ 22 + s.enc.n * (s.enc.ch.toNat + 1) ∧
    t.enc.op ≤ s.enc.outCap ∧
    (∀ a, a < s.enc.outBase + s.enc.op ∨ s.enc.outBase + t.enc.op ≤ a →
      Memory.byteAt t.mem a = Memory.byteAt s.mem a)

/-- R133: an ENCODE under way ends after its header step, if that is still to come, and as many
steps as pixels remain. -/
def Obligations.EncodeEndsAfterRemainingPixels : Prop :=
  ∀ s, Inv Config.block s → s.turns = [] → s.enc.status.busy = true → s.dec.status.busy = false →
    ∃ t : State, runFor ((if s.enc.op = 0 then 1 else 0) + (s.enc.n - s.enc.pix)) s = .next t ∧
      t.enc.status = ⟨.ok, false, true⟩ ∧ t.enc.outLen = t.enc.op

/-! ## Lossless -/

/-- R95: where DEC's CUR and cache are ENC's, running the opcode the encoder emits for a pixel leaves
DEC's CUR and cache what the encoder's are after it. -/
def Obligations.DecoderFollowsEncoder : Prop :=
  ∀ (e : Encoder) (s : State) (px : Pixel), s.dec.cur = e.cur → s.dec.cache = e.cache → px ≠ e.cur →
    (predict e.cache e.cur px).wf = true ∧
    ∃ t, exec (predict e.cache e.cur px) s = .next t ∧ t.dec.cur = px ∧
      t.dec.cache = (encodeOne e px false).2.cache ∧ (encodeOne e px false).2.cur = px ∧
      t.dec.runcnt = s.dec.runcnt

/-- R135: encoding and decoding again gives the source back. From a state with both engines idle, the
host starts an ENCODE; it ends after 2 + N steps with code 0 if its checks pass; then a DECODE of the
frame it wrote, with OUT_CH_REQ = CH and a destination that meets its checks, ends after 1 + N steps
with code 0, and the destination holds the source's bytes. -/
def Obligations.DecodeOfEncodeIsIdentity : Prop :=
  ∀ s : State, Inv Config.block s → s.turns = [] → s.dec.status.busy = false →
    s.enc.status.busy = false → s.host.todo = [.writeField .enc 0x00 0x02] →
    firstFailing (encodeChecks Config.block s.enc) = none →
    let count := s.enc.width.toNat * s.enc.height.toNat
    ∃ t : State, runFor (2 + count) s = .next t ∧ t.enc.status = ⟨.ok, false, true⟩ ∧
      ∀ dst cap : Nat, dst + cap ≤ Config.block.memSize → cap < Config.block.memSize →
        dst < Config.block.memSize → count * s.enc.channels.toNat ≤ cap →
        (dst + cap ≤ s.enc.outBase ∨ s.enc.outBase + t.enc.outLen ≤ dst) →
        ∃ u : State, runFor (1 + count)
            { t with
              dec := { t.dec with
                frameBase := s.enc.outBase, frameLen := t.enc.outLen, dstBase := dst, dstCap := cap
                outChReq := s.enc.channels }
              host := { t.host with todo := [.writeField .dec 0x00 0x01] } } = .next u ∧
          u.dec.status = ⟨.ok, false, true⟩ ∧ u.dec.outLen = count * s.enc.channels.toNat ∧
          ∀ j, j < count * s.enc.channels.toNat →
            Memory.byteAt u.mem (dst + j) = Memory.byteAt s.mem (s.enc.srcBase + j)

/-! ## Commands and errors -/

/-- R139, R138, R137, R148 and R106: the outcome of a DECODE's start step, check by check. A start that
gets as far as using a region must have it clear of those ENC runs on (R59): FRAME once the argument
checks pass, DST once all do. The rest is `OverlappingStartIsRefused` (log 8). Whatever the outcome, the
read-write fields keep their values (R34, R39). -/
def Obligations.DecodeStartChecksInOrder : Prop :=
  ∀ (s : State) (v : Nat), HostMoves s (.writeField .dec 0x00 v) → v % 256 = 1 →
    s.dec.status.busy = false →
    (firstFailing (decodeArgChecks Config.block s.dec) = none →
      meetsRunningEnc s (frameRegion s.dec) = false) →
    (firstFailing (decodeArgChecks Config.block s.dec) = none →
      firstFailing (headerChecks Config.block (readHeader s.mem s.dec.frameBase) ++
        decodeOutChecks Config.block s.dec (readHeader s.mem s.dec.frameBase)) = none →
      meetsRunningEnc s (dstRegion s.dec) = false) →
    let size := Config.block.memSize
    let d := s.dec
    let ch := frameByte s 12
    let oc := if d.outChReq = 0 then ch else d.outChReq.toNat
    ∃ t, step s = .next t ∧ SameDecFields s.dec t.dec ∧
      (if d.frameBase + d.frameLen > size ∨ d.dstBase + d.dstCap > size then
        DecStartFails s t .invalidArgument ∧ SameHeader d t.dec
      else if 0 < d.frameLen ∧ 0 < d.dstCap ∧ d.frameBase < d.dstBase + d.dstCap ∧
          d.dstBase < d.frameBase + d.frameLen then
        DecStartFails s t .invalidArgument ∧ SameHeader d t.dec
      else if d.frameLen < 22 then DecStartFails s t .invalidData ∧ SameHeader d t.dec
      else HeaderReported s t ∧
        (if bytesAt s.mem d.frameBase 4 ≠ Config.block.magic.toList then DecStartFails s t .invalidData
        else if ¬(ch = 3 ∨ ch = 4) then DecStartFails s t .invalidData
        else if frameWidth s = 0 ∨ frameHeight s = 0 then DecStartFails s t .invalidData
        else if ¬(oc = 3 ∨ oc = 4) then DecStartFails s t .unsupportedPixelFormat
        else if frameWidth s * frameHeight s * oc ≥ size then DecStartFails s t .invalidData
        else if d.dstCap < frameWidth s * frameHeight s * oc then DecStartFails s t .outOfMemory
        else t.dec.status = ⟨.ok, true, false⟩ ∧ t.dec.outLen = 0 ∧
          t.dec.n = frameWidth s * frameHeight s ∧ t.dec.limit = d.frameLen - 8 ∧
          t.dec.srcCh.toNat = ch ∧ t.dec.outCh.toNat = oc ∧ t.dec.fb = d.frameBase ∧
          t.dec.db = d.dstBase ∧ t.dec.sp = 14 ∧ t.dec.pix = 0 ∧ t.dec.runcnt = 0 ∧
          t.dec.cur = ⟨0, 0, 0, 255⟩ ∧ (∀ k, t.dec.cache.get k = ⟨0, 0, 0, 0⟩) ∧
          t.mem = s.mem ∧ t.enc = s.enc))

/-- R141: the outcome of a PEEK. Once its argument checks pass its frame must be clear of the regions ENC
runs on; otherwise `OverlappingStartIsRefused` applies (R59, log 8). It writes no memory and leaves OUT_LEN
0. The read-write fields keep their values (R34, R39). -/
def Obligations.PeekReportsHeader : Prop :=
  ∀ (s : State) (v : Nat), HostMoves s (.writeField .dec 0x00 v) → v % 256 = 3 →
    s.dec.status.busy = false →
    (firstFailing (peekArgChecks Config.block s.dec) = none →
      meetsRunningEnc s (frameRegion s.dec) = false) →
    let d := s.dec
    let ch := frameByte s 12
    ∃ t, step s = .next t ∧ SameDecFields s.dec t.dec ∧
      (if d.frameBase + d.frameLen > Config.block.memSize then
        DecStartFails s t .invalidArgument ∧ SameHeader d t.dec
      else if d.frameLen < 22 then DecStartFails s t .invalidData ∧ SameHeader d t.dec
      else HeaderReported s t ∧
        (if bytesAt s.mem d.frameBase 4 ≠ Config.block.magic.toList ∨ ¬(ch = 3 ∨ ch = 4) ∨
            frameWidth s = 0 ∨ frameHeight s = 0 then DecStartFails s t .invalidData
        else t.dec.status = ⟨.ok, false, true⟩ ∧ t.dec.outLen = 0 ∧ t.mem = s.mem ∧ t.enc = s.enc))

/-- R142, R148: the outcome of an ENCODE's start step, check by check. Once all checks pass its regions
must be clear of those DEC runs on; otherwise `OverlappingStartIsRefused` applies (R59, log 8). Whatever
the outcome, the read-write fields keep their values (R34, R39). -/
def Obligations.EncodeStartChecksInOrder : Prop :=
  ∀ (s : State) (v : Nat), HostMoves s (.writeField .enc 0x00 v) → v % 256 = 2 →
    s.enc.status.busy = false →
    (firstFailing (encodeChecks Config.block s.enc) = none →
      meetsRunningDec s (srcRegion s.enc) = false ∧ meetsRunningDec s (outRegion s.enc) = false) →
    let size := Config.block.memSize
    let e := s.enc
    let w := e.width.toNat
    let h := e.height.toNat
    let ch := e.channels.toNat
    let bound := 22 + w * h * (ch + 1)
    let src := w * h * ch
    ∃ t, step s = .next t ∧ SameEncFields s.enc t.enc ∧
      (if ¬(ch = 3 ∨ ch = 4) then EncStartFails s t .unsupportedPixelFormat
      else if w = 0 ∨ h = 0 then EncStartFails s t .invalidArgument
      else if bound ≥ size then EncStartFails s t .invalidArgument
      else if e.stride ≠ w * ch then EncStartFails s t .unsupportedPixelBuffer
      else if e.srcBase + src > size ∨ e.outBase + e.outCap > size then
        EncStartFails s t .invalidArgument
      else if 0 < src ∧ 0 < e.outCap ∧ e.srcBase < e.outBase + e.outCap ∧
          e.outBase < e.srcBase + src then EncStartFails s t .invalidArgument
      else if e.outCap < bound then EncStartFails s t .outOfMemory
      else t.enc.status = ⟨.ok, true, false⟩ ∧ t.enc.outLen = 0 ∧ t.enc.n = w * h ∧
        t.enc.ch = e.channels ∧ t.enc.sb = e.srcBase ∧ t.enc.ob = e.outBase ∧ t.enc.op = 0 ∧
        t.enc.pix = 0 ∧ t.enc.runacc = 0 ∧ t.enc.cur = ⟨0, 0, 0, 255⟩ ∧
        (∀ k, t.enc.cache.get k = ⟨0, 0, 0, 0⟩) ∧ t.mem = s.mem ∧ t.dec = s.dec)

/-- R59, R168, U9: the spec gives the host no start of a command whose regions meet those of the other
engine's running command; this model refuses such a step by name, once the checks before the region's
first use have passed (log 8). -/
def Obligations.OverlappingStartIsRefused : Prop :=
  (∀ (s : State) (v : Nat), HostMoves s (.writeField .dec 0x00 v) → v % 256 = 1 →
    s.dec.status.busy = false → firstFailing (decodeArgChecks Config.block s.dec) = none →
    (meetsRunningEnc s (frameRegion s.dec) = true → step s = .refused .runningRegionsOverlap) ∧
    (firstFailing (headerChecks Config.block (readHeader s.mem s.dec.frameBase) ++
        decodeOutChecks Config.block s.dec (readHeader s.mem s.dec.frameBase)) = none →
      meetsRunningEnc s (dstRegion s.dec) = true → step s = .refused .runningRegionsOverlap)) ∧
  (∀ (s : State) (v : Nat), HostMoves s (.writeField .dec 0x00 v) → v % 256 = 3 →
    s.dec.status.busy = false → firstFailing (peekArgChecks Config.block s.dec) = none →
    meetsRunningEnc s (frameRegion s.dec) = true → step s = .refused .runningRegionsOverlap) ∧
  (∀ (s : State) (v : Nat), HostMoves s (.writeField .enc 0x00 v) → v % 256 = 2 →
    s.enc.status.busy = false → firstFailing (encodeChecks Config.block s.enc) = none →
    meetsRunningDec s (srcRegion s.enc) = true ∨ meetsRunningDec s (outRegion s.enc) = true →
    step s = .refused .runningRegionsOverlap)

/-- R136, D4: a code of no command of the engine ends at once with InvalidArgument; code 0 changes
nothing. The read-write fields keep their values. -/
def Obligations.UnknownCommandIsInvalidArgument : Prop :=
  ∀ (s : State) (v : Nat),
    (HostMoves s (.writeField .dec 0x00 v) → s.dec.status.busy = false → v % 256 ≠ 0 →
      v % 256 ≠ 1 → v % 256 ≠ 3 →
      ∃ t, step s = .next t ∧ DecStartFails s t .invalidArgument ∧ SameHeader s.dec t.dec ∧
        SameDecFields s.dec t.dec) ∧
    (HostMoves s (.writeField .enc 0x00 v) → s.enc.status.busy = false → v % 256 ≠ 0 →
      v % 256 ≠ 2 → ∃ t, step s = .next t ∧ EncStartFails s t .invalidArgument ∧
        SameEncFields s.enc t.enc) ∧
    (∀ g, HostMoves s (.writeField g 0x00 v) → v % 256 = 0 → step s = .next (afterTake s))

/-- R149, R144: a command that ends with a code other than 0 has written no memory byte and reports no
output length. Whatever the host's field write, that step stores to no byte of memory. That it makes no
earlier engine write visible to the host, a start step, passing or failing, included, is the model's
choice: R38, R58, R136 and R149 are silent on it (log 6). -/
def Obligations.FieldWritesStoreNoMemory : Prop :=
  ∀ (s t : State) (g : Engine) (no v : Nat), HostMoves s (.writeField g no v) → step s = .next t →
    (∀ a, Memory.byteAt t.mem a = Memory.byteAt s.mem a) ∧ t.unseen = s.unseen ∧
    (g = .dec → t.enc = s.enc ∧ (s.dec.status.busy = false → no = 0 → v % 256 ≠ 0 →
      t.dec.outLen = 0)) ∧
    (g = .enc → t.dec = s.dec ∧ (s.enc.status.busy = false → no = 0 → v % 256 ≠ 0 →
      t.enc.outLen = 0))

/-- R147, R117, R133: a running command raises no error: its step gives a next state and leaves the
code at 0. -/
def Obligations.NoErrorAfterStartChecks : Prop :=
  ∀ s, Inv Config.block s →
    (DecMoves s → ∃ t, step s = .next t ∧ t.dec.status.code = .ok) ∧
    (EncMoves s → ∃ t, step s = .next t ∧ t.enc.status.code = .ok)

/-- R161, R38: a DECODE or ENCODE that passes its checks starts from the same state whatever ran before:
the state after its start step depends on no field of its engine but the command fields it reads. -/
def Obligations.StartForgetsThePast : Prop :=
  (∀ (s t : State) (v : Nat) (d : Decoder), HostMoves s (.writeField .dec 0x00 v) → v % 256 = 1 →
    s.dec.status.busy = false → d.status.busy = false → d.frameBase = s.dec.frameBase →
    d.frameLen = s.dec.frameLen → d.dstBase = s.dec.dstBase → d.dstCap = s.dec.dstCap →
    d.outChReq = s.dec.outChReq → step s = .next t → t.dec.status.busy = true →
    step { s with dec := d } = .next t) ∧
  (∀ (s t : State) (v : Nat) (e : Encoder), HostMoves s (.writeField .enc 0x00 v) → v % 256 = 2 →
    s.enc.status.busy = false → e.status.busy = false → e.srcBase = s.enc.srcBase →
    e.width = s.enc.width → e.height = s.enc.height → e.channels = s.enc.channels →
    e.stride = s.enc.stride → e.outBase = s.enc.outBase → e.outCap = s.enc.outCap →
    e.colorspace = s.enc.colorspace → step s = .next t → t.enc.status.busy = true →
    step { s with enc := e } = .next t)

/-! ## The host's view -/

/-- R37, R145: the STATUS byte's layout and each code's number. -/
def Obligations.StatusByteLayout : Prop :=
  ∀ st : Status,
    (st.code = .ok → (statusByte st).toNat % 8 = 0) ∧
    (st.code = .invalidArgument → (statusByte st).toNat % 8 = 1) ∧
    (st.code = .invalidData → (statusByte st).toNat % 8 = 2) ∧
    (st.code = .outOfMemory → (statusByte st).toNat % 8 = 3) ∧
    (st.code = .unsupportedPixelFormat → (statusByte st).toNat % 8 = 4) ∧
    (st.code = .unsupportedPixelBuffer → (statusByte st).toNat % 8 = 5) ∧
    (statusByte st).toNat / 8 % 8 = 0 ∧
    ((statusByte st).toNat / 64 % 2 = 1 ↔ st.busy = true) ∧
    ((statusByte st).toNat / 128 = 1 ↔ st.done = true)

/-- R34: a write to any field while the engine is busy has no effect; so does a write to a read-only
or unknown field at any time. -/
def Obligations.DroppedFieldWrites : Prop :=
  ∀ (s : State) (no v : Nat),
    (HostMoves s (.writeField .dec no v) → s.dec.status.busy = true ∨ 5 < no →
      step s = .next (afterTake s)) ∧
    (HostMoves s (.writeField .enc no v) → s.enc.status.busy = true ∨ 8 < no →
      step s = .next (afterTake s))

/-- R34, R35, R36: a read-write field of an idle engine reads back as last written, mod 2^width, and
every other field of that engine reads as before. -/
def Obligations.FieldsReadBackAsWritten : Prop :=
  ∀ (s : State) (no v : Nat),
    (HostMoves s (.writeField .dec no v) → s.dec.status.busy = false → 1 ≤ no → no ≤ 5 →
      ∃ t, step s = .next t ∧
        readDecField no t.dec = v % (if no = 5 then 256 else Config.block.memSize) ∧
        (∀ m, m ≠ no → readDecField m t.dec = readDecField m s.dec) ∧ t.enc = s.enc ∧
        t.mem = s.mem) ∧
    (HostMoves s (.writeField .enc no v) → s.enc.status.busy = false → 1 ≤ no → no ≤ 8 →
      ∃ t, step s = .next t ∧
        readEncField no t.enc = v % (if no = 4 ∨ no = 8 then 256
          else if no = 2 ∨ no = 3 then 4294967296 else Config.block.memSize) ∧
        (∀ m, m ≠ no → readEncField m t.enc = readEncField m s.enc) ∧ t.dec = s.dec ∧
        t.mem = s.mem)

/-- R34, R35, R36: what the host's read of each field number returns; CMD and unknown numbers give 0.
A read changes nothing but the host's list of answers and, for STATUS with DONE = 1, which writes the
host has seen (log 6). -/
def Obligations.FieldReadsReturnTheField : Prop :=
  ∀ (s : State) (no : Nat),
    (HostMoves s (.readField .dec no) → ∃ (t : State) (x : Nat), step s = .next t ∧
      t.host = ((afterTake s).answer x).host ∧ t.mem = s.mem ∧ t.enc = s.enc ∧
      t.dec = s.dec ∧ (no ≠ 0x10 ∨ s.dec.status.done = false → t.unseen = s.unseen) ∧
      (no = 0x01 → x = s.dec.frameBase) ∧ (no = 0x02 → x = s.dec.frameLen) ∧
      (no = 0x03 → x = s.dec.dstBase) ∧ (no = 0x04 → x = s.dec.dstCap) ∧
      (no = 0x05 → x = s.dec.outChReq.toNat) ∧ (no = 0x10 → x = (statusByte s.dec.status).toNat) ∧
      (no = 0x11 → x = s.dec.outLen) ∧ (no = 0x12 → x = s.dec.hdrWidth.toNat) ∧
      (no = 0x13 → x = s.dec.hdrHeight.toNat) ∧ (no = 0x14 → x = s.dec.hdrChannels.toNat) ∧
      (no = 0x15 → x = s.dec.hdrColorspace.toNat) ∧
      (no = 0x00 ∨ (5 < no ∧ no < 0x10) ∨ 0x15 < no → x = 0)) ∧
    (HostMoves s (.readField .enc no) → ∃ (t : State) (x : Nat), step s = .next t ∧
      t.host = ((afterTake s).answer x).host ∧ t.mem = s.mem ∧ t.dec = s.dec ∧
      t.enc = s.enc ∧ (no ≠ 0x10 ∨ s.enc.status.done = false → t.unseen = s.unseen) ∧
      (no = 0x01 → x = s.enc.srcBase) ∧ (no = 0x02 → x = s.enc.width.toNat) ∧
      (no = 0x03 → x = s.enc.height.toNat) ∧ (no = 0x04 → x = s.enc.channels.toNat) ∧
      (no = 0x05 → x = s.enc.stride) ∧ (no = 0x06 → x = s.enc.outBase) ∧
      (no = 0x07 → x = s.enc.outCap) ∧ (no = 0x08 → x = s.enc.colorspace.toNat) ∧
      (no = 0x10 → x = (statusByte s.enc.status).toNat) ∧ (no = 0x11 → x = s.enc.outLen) ∧
      (no = 0x00 ∨ (8 < no ∧ no < 0x10) ∨ 0x11 < no → x = 0))

/-- R58, R53: every byte an engine's step writes becomes unseen, with the byte before the write as its old
value, and what the record held for that byte, by whichever engine, is replaced; nothing else of the
record changes. That a write replaces an older one is the model's choice (log 6). -/
def Obligations.EngineWritesAreUnseen : Prop :=
  ∀ s t, Inv Config.block s → step s = .next t →
    (DecMoves s → ∀ u : Unseen, u ∈ t.unseen ↔
      ((s.dec.dstBase + s.dec.pix * s.dec.outCh.toNat ≤ u.addr ∧
          u.addr < s.dec.dstBase + (s.dec.pix + 1) * s.dec.outCh.toNat) ∧ u.writer = .dec ∧
        u.old = Memory.byteAt s.mem u.addr) ∨
      (u ∈ s.unseen ∧ ¬(s.dec.dstBase + s.dec.pix * s.dec.outCh.toNat ≤ u.addr ∧
        u.addr < s.dec.dstBase + (s.dec.pix + 1) * s.dec.outCh.toNat))) ∧
    (EncMoves s → ∀ u : Unseen, u ∈ t.unseen ↔
      ((s.enc.outBase + s.enc.op ≤ u.addr ∧ u.addr < s.enc.outBase + t.enc.op) ∧ u.writer = .enc ∧
        u.old = Memory.byteAt s.mem u.addr) ∨
      (u ∈ s.unseen ∧ ¬(s.enc.outBase + s.enc.op ≤ u.addr ∧ u.addr < s.enc.outBase + t.enc.op)))

/-- R58, U6: the values open to a host load are the byte in memory, for a byte whose write is unseen the
byte from before that write (log 6), and for a byte of a running command's write region the byte that
command writes there. The list is `visibleBytes`: a load returns its entry at the index that the free value
`Config.seesByte` gives for this load, and the next such load draws the free value afresh (log 6). It
changes nothing of the engines, memory or the record. -/
def Obligations.HostLoadSeesOldOrNew : Prop :=
  ∀ (s : State) (a : Nat), HostMoves s (.readByte a) → a < Config.block.memSize →
    let vs := visibleBytes Config.block s a
    ∃ (t : State) (i : Nat) (h : i < vs.length), step s = .next t ∧
      t.host.answers = vs[i].toNat :: s.host.answers ∧
      t.dec = s.dec ∧ t.enc = s.enc ∧ t.mem = s.mem ∧ t.unseen = s.unseen ∧
      (∀ x, x ∈ vs ↔ x = Memory.byteAt s.mem a ∨ (∃ u ∈ s.unseen, u.addr = a ∧ x = u.old) ∨
        (s.dec.status.busy = true ∧ (s.dec.dstBase ≤ a ∧ a < s.dec.dstBase + s.dec.dstCap) ∧
          x = decAhead Config.block s a) ∨
        (s.enc.status.busy = true ∧ (s.enc.outBase ≤ a ∧ a < s.enc.outBase + s.enc.outCap) ∧
          x = encAhead Config.block s a)) ∧
      (vs.length ≠ 1 → i = Config.seesByte s.host.reads % vs.length ∧
        t.host.reads = s.host.reads + 1)

/-- R58, R53, R61: the value a load may see early is the one the command writes. Whichever agent moves,
it stays what it is while the command runs; memory holds it from the step that writes the byte, and when
the command ends. -/
def Obligations.EarlyValueIsTheOneWritten : Prop :=
  ∀ s t, Inv Config.block s → step s = .next t →
    (s.dec.status.busy = true → ∀ a, s.dec.dstBase ≤ a → a < s.dec.dstBase + s.dec.dstCap →
      (t.dec.status.busy = true → decAhead Config.block t a = decAhead Config.block s a) ∧
      (t.dec.status.busy = false → Memory.byteAt t.mem a = decAhead Config.block s a) ∧
      (DecMoves s → s.dec.dstBase + s.dec.pix * s.dec.outCh.toNat ≤ a →
        a < s.dec.dstBase + (s.dec.pix + 1) * s.dec.outCh.toNat →
        Memory.byteAt t.mem a = decAhead Config.block s a)) ∧
    (s.enc.status.busy = true → ∀ a, s.enc.outBase ≤ a → a < s.enc.outBase + s.enc.outCap →
      (t.enc.status.busy = true → encAhead Config.block t a = encAhead Config.block s a) ∧
      (t.enc.status.busy = false → Memory.byteAt t.mem a = encAhead Config.block s a) ∧
      (EncMoves s → s.enc.outBase + s.enc.op ≤ a → a < s.enc.outBase + t.enc.op →
        Memory.byteAt t.mem a = encAhead Config.block s a))

/-- R58: a host read of STATUS with DONE = 1 makes every write of that engine visible. The read answers
the STATUS byte; after it the record holds exactly the other engine's writes, so none for a byte that the
engine wrote last; and a load of a byte that neither the record nor a running command's write region holds
returns the byte in memory. That a read of DONE covers the engine's earlier commands too is the model's choice (log 6). -/
def Obligations.DoneReadMakesWritesVisible : Prop :=
  (∀ s : State, Inv Config.block s → HostMoves s (.readField .dec 0x10) → s.dec.status.done = true →
    ∃ t, step s = .next t ∧ t.dec = s.dec ∧ t.enc = s.enc ∧ t.mem = s.mem ∧
      t.host.answers = (statusByte s.dec.status).toNat :: s.host.answers ∧
      (∀ u : Unseen, u ∈ t.unseen ↔ u ∈ s.unseen ∧ u.writer = .enc) ∧
      ∀ w ∈ s.unseen, w.writer = .dec → ∀ u ∈ t.unseen, u.addr ≠ w.addr) ∧
  (∀ s : State, Inv Config.block s → HostMoves s (.readField .enc 0x10) → s.enc.status.done = true →
    ∃ t, step s = .next t ∧ t.dec = s.dec ∧ t.enc = s.enc ∧ t.mem = s.mem ∧
      t.host.answers = (statusByte s.enc.status).toNat :: s.host.answers ∧
      (∀ u : Unseen, u ∈ t.unseen ↔ u ∈ s.unseen ∧ u.writer = .dec) ∧
      ∀ w ∈ s.unseen, w.writer = .enc → ∀ u ∈ t.unseen, u.addr ≠ w.addr) ∧
  (∀ (s : State) (a : Nat), HostMoves s (.readByte a) → a < Config.block.memSize →
    (∀ u ∈ s.unseen, u.addr ≠ a) →
    (s.dec.status.busy = true → a < s.dec.dstBase ∨ s.dec.dstBase + s.dec.dstCap ≤ a) →
    (s.enc.status.busy = true → a < s.enc.outBase ∨ s.enc.outBase + s.enc.outCap ≤ a) →
      step s = .next ((afterTake s).answer (Memory.byteAt s.mem a).toNat))

/-- R59, R15: a host store outside the regions of running commands stores that byte and no other,
and the host sees it. Inside one it is refused, and outside the address space it faults (log 7, log 9). -/
def Obligations.HostStoreKeepsOutOfRunningRegions : Prop :=
  ∀ (s : State) (a : Nat) (v : Byte), Inv Config.block s → HostMoves s (.writeByte a v) →
    (Config.block.memSize ≤ a → step s = .fault (.addressOutsideMemory a)) ∧
    (a < Config.block.memSize → inRunningRegion s a = true →
      step s = .refused (.hostWritesRunningRegion a)) ∧
    (a < Config.block.memSize → inRunningRegion s a = false → ∃ t, step s = .next t ∧
      Memory.byteAt t.mem a = v ∧ (∀ x, x ≠ a → Memory.byteAt t.mem x = Memory.byteAt s.mem x) ∧
      t.dec = s.dec ∧ t.enc = s.enc ∧ ∀ u : Unseen, u ∈ t.unseen ↔ u ∈ s.unseen ∧ u.addr ≠ a)

/-! ## Regions and isolation -/

/-- R46: two regions are taken to overlap exactly when both are nonempty and share a byte. -/
def Obligations.OverlapMeansASharedByte : Prop :=
  ∀ r s : Region, regionsOverlap r s = true ↔
    ∃ a, (r.base ≤ a ∧ a < r.base + r.len) ∧ (s.base ≤ a ∧ a < s.base + s.len)

/-- R44: DEC writes only inside the first N × OUT_CH bytes of DST, and ENC only inside OUT. -/
def Obligations.EnginesWriteOnlyTheirRegion : Prop :=
  ∀ s t, Inv Config.block s → step s = .next t →
    (DecMoves s → ∀ a, a < s.dec.dstBase ∨ s.dec.dstBase + s.dec.n * s.dec.outCh.toNat ≤ a →
      Memory.byteAt t.mem a = Memory.byteAt s.mem a) ∧
    (EncMoves s → ∀ a, a < s.enc.outBase ∨ s.enc.outBase + s.enc.outCap ≤ a →
      Memory.byteAt t.mem a = Memory.byteAt s.mem a)

/-- R61: while a DECODE runs no step of any agent changes a byte of its FRAME, and while an ENCODE
runs none changes a byte of its SRC. -/
def Obligations.InputsOfRunningCommandsAreConstant : Prop :=
  ∀ s t, Inv Config.block s → step s = .next t →
    (s.dec.status.busy = true → ∀ a, s.dec.frameBase ≤ a → a < s.dec.frameBase + s.dec.frameLen →
      Memory.byteAt t.mem a = Memory.byteAt s.mem a) ∧
    (s.enc.status.busy = true → ∀ a, s.enc.srcBase ≤ a →
      a < s.enc.srcBase + s.enc.n * s.enc.ch.toNat →
      Memory.byteAt t.mem a = Memory.byteAt s.mem a)

/-- R157, R19: the engines share no state. A step of one neither changes the other nor depends on
it. -/
def Obligations.EnginesShareNoState : Prop :=
  (∀ (s t : State) (e : Encoder), DecMoves s → step s = .next t →
    t.enc = s.enc ∧ step { s with enc := e } = .next { t with enc := e }) ∧
  (∀ (s t : State) (d : Decoder), s.turns.head? = some .enc → encRunning s.enc = true →
    step s = .next t → t.dec = s.dec ∧ step { s with dec := d } = .next { t with dec := d })

/-- R151, R159: an idle engine executes nothing. That a turn which names one passes, with a next state,
is the model's choice (log 4). -/
def Obligations.IdleEngineExecutesNothing : Prop :=
  ∀ s : State,
    (s.turns.head? = some .dec → s.dec.status.busy = false →
      step s = .next { s with turns := s.turns.tail }) ∧
    (s.turns.head? = some .enc → s.enc.status.busy = false →
      step s = .next { s with turns := s.turns.tail })

/-- R160, R159: idle engines stay idle until the host writes a command's code to a CMD field. From every
state with both engines idle, a step of any agent that is not such a write leaves both idle, and at reset
both are. -/
def Obligations.IdleUntilCommandWrite : Prop :=
  (State.reset.dec.status.busy = false ∧ State.reset.enc.status.busy = false) ∧
  ∀ s t, s.dec.status.busy = false → s.enc.status.busy = false →
    (∀ g v, HostMoves s (.writeField g 0x00 v) → v % 256 = 0) → step s = .next t →
    t.dec.status.busy = false ∧ t.enc.status.busy = false
end

