-- ==== Sys2Proof/Laws/Codec.lean ====
section
/-! SUPPORT. The opcode parser by the range of its tag byte (R79), and the bytes of each opcode as
numbers. -/

namespace Sys2Proof.Laws

open Sys2Proof.Machine

theorem byteOf_toNat {x : Int} (h0 : 0 ≤ x) (h1 : x < 256) : ((byteOf x).toNat : Int) = x := by
  unfold byteOf
  rw [BitVec.toNat_ofInt]
  simp only [Nat.reducePow]
  omega

theorem byteOf_toNat_emod (x : Int) : ((byteOf x).toNat : Int) = x % 256 := by
  unfold byteOf
  rw [BitVec.toNat_ofInt]
  simp only [Nat.reducePow]
  omega

theorem byte_eq_iff (a b : Byte) : a = b ↔ a.toNat = b.toNat :=
  ⟨fun h => h ▸ rfl, BitVec.eq_of_toNat_eq⟩

/-- A byte given by its number. -/
theorem byteOf_toNat_self (b : Byte) : byteOf (b.toNat : Int) = b := by
  have hb := b.isLt
  rw [byte_eq_iff]
  have := byteOf_toNat (x := (b.toNat : Int)) (by omega) (by omega)
  omega

theorem byteOf_eq_iff {x : Int} (b : Byte) (h0 : 0 ≤ x) (h1 : x < 256) :
    byteOf x = b ↔ x = b.toNat := by
  have := byteOf_toNat h0 h1
  rw [byte_eq_iff]; omega

section ranges
variable {b1 : Byte} (b2 b3 b4 b5 : Byte)

theorem decodeOp_index (h : b1.toNat < 64) :
    decodeOp b1 b2 b3 b4 b5 = .index (Fin.ofNat 64 b1.toNat) := by
  have h1 : b1 ≠ 0xFE := by rw [Ne, byte_eq_iff]; simp; omega
  have h2 : b1 ≠ 0xFF := by rw [Ne, byte_eq_iff]; simp; omega
  have h3 : bits b1 7 6 = 0 := by simp [bits]; omega
  have h4 : bits b1 5 0 = b1.toNat := by simp [bits]; omega
  rw [decodeOp, if_neg h1, if_neg h2, if_pos h3, h4]

theorem decodeOp_diff (h : 64 ≤ b1.toNat) (h' : b1.toNat < 128) :
    decodeOp b1 b2 b3 b4 b5 = .diff ((b1.toNat / 16 % 4 : Nat) - 2) ((b1.toNat / 4 % 4 : Nat) - 2)
      ((b1.toNat % 4 : Nat) - 2) := by
  have h1 : b1 ≠ 0xFE := by rw [Ne, byte_eq_iff]; simp; omega
  have h2 : b1 ≠ 0xFF := by rw [Ne, byte_eq_iff]; simp; omega
  have h3 : bits b1 7 6 = 1 := by simp [bits]; omega
  rw [decodeOp, if_neg h1, if_neg h2, if_neg (by omega), if_pos h3]; simp [bits]

theorem decodeOp_luma (h : 128 ≤ b1.toNat) (h' : b1.toNat < 192) :
    decodeOp b1 b2 b3 b4 b5 = .luma ((b1.toNat % 64 : Nat) - 32) ((b2.toNat / 16 : Nat) - 8)
      ((b2.toNat % 16 : Nat) - 8) := by
  have h1 : b1 ≠ 0xFE := by rw [Ne, byte_eq_iff]; simp; omega
  have h2 : b1 ≠ 0xFF := by rw [Ne, byte_eq_iff]; simp; omega
  have h3 : bits b1 7 6 = 2 := by simp [bits]; omega
  have h4 : bits b2 7 4 = b2.toNat / 16 := by have := b2.isLt; simp [bits]; omega
  rw [decodeOp, if_neg h1, if_neg h2, if_neg (by omega), if_neg (by omega), if_pos h3,
      h4]; simp [bits]

theorem decodeOp_run (h : 192 ≤ b1.toNat) (h' : b1.toNat < 254) :
    decodeOp b1 b2 b3 b4 b5 = .run (b1.toNat - 192) := by
  have h1 : b1 ≠ 0xFE := by rw [Ne, byte_eq_iff]; simp; omega
  have h2 : b1 ≠ 0xFF := by rw [Ne, byte_eq_iff]; simp; omega
  have h3 : bits b1 7 6 = 3 := by simp [bits]; omega
  have h4 : bits b1 5 0 = b1.toNat - 192 := by simp [bits]; omega
  rw [decodeOp, if_neg h1, if_neg h2, if_neg (by omega), if_neg (by omega), if_neg (by omega), h4]

@[simp] theorem decodeOp_rgb : decodeOp 0xFE b2 b3 b4 b5 = .rgb b2 b3 b4 := rfl

@[simp] theorem decodeOp_rgba : decodeOp 0xFF b2 b3 b4 b5 = .rgba b2 b3 b4 b5 := rfl

/-- A tag byte is a literal marker or lies in one of the four ranges of R79. -/
theorem tag_cases (b1 : Byte) : b1 = 0xFE ∨ b1 = 0xFF ∨ b1.toNat < 64 ∨
    (64 ≤ b1.toNat ∧ b1.toNat < 128) ∨ (128 ≤ b1.toNat ∧ b1.toNat < 192) ∨
    (192 ≤ b1.toNat ∧ b1.toNat < 254) := by
  have := b1.isLt
  rw [byte_eq_iff, byte_eq_iff]; simp; omega

theorem opLength_one (h : b1.toNat < 128 ∨ (192 ≤ b1.toNat ∧ b1.toNat < 254)) :
    opLength b1 = 1 := by
  have h1 : b1 ≠ 0xFE := by rw [Ne, byte_eq_iff]; simp; omega
  have h2 : b1 ≠ 0xFF := by rw [Ne, byte_eq_iff]; simp; omega
  have h3 : bits b1 7 6 ≠ 2 := by simp [bits]; omega
  rw [opLength, if_neg h1, if_neg h2, if_neg h3]

theorem opLength_two (h : 128 ≤ b1.toNat) (h' : b1.toNat < 192) : opLength b1 = 2 := by
  have h1 : b1 ≠ 0xFE := by rw [Ne, byte_eq_iff]; simp; omega
  have h2 : b1 ≠ 0xFF := by rw [Ne, byte_eq_iff]; simp; omega
  have h3 : bits b1 7 6 = 2 := by simp [bits]; omega
  rw [opLength, if_neg h1, if_neg h2, if_pos h3]

@[simp] theorem opLength_rgb : opLength 0xFE = 4 := rfl

@[simp] theorem opLength_rgba : opLength 0xFF = 5 := rfl

end ranges

/-- An opcode has 1 to 5 bytes (R66). -/
theorem opLength_bounds (b1 : Byte) : 1 ≤ opLength b1 ∧ opLength b1 ≤ 5 := by
  rcases tag_cases b1 with h | h | h | h | h | h
  · subst h; decide
  · subst h; decide
  · rw [opLength_one (.inl (by omega))]; decide
  · rw [opLength_one (.inl (by omega))]; decide
  · rw [opLength_two h.1 h.2]; decide
  · rw [opLength_one (.inr h)]; decide

/-- An opcode has 1 to 5 bytes (R66). -/
theorem encode_length (i : Instr) : 1 ≤ (encode i).length ∧ (encode i).length ≤ 5 := by
  cases i <;> simp [encode]

/-- A parsed opcode's bytes are as many as its tag byte names. -/
theorem encode_decodeOp_length (b1 b2 b3 b4 b5 : Byte) :
    (encode (decodeOp b1 b2 b3 b4 b5)).length = opLength b1 := by
  rcases tag_cases b1 with h | h | h | h | h | h
  · subst h; rfl
  · subst h; rfl
  · rw [decodeOp_index _ _ _ _ h, opLength_one (.inl (by omega))]; rfl
  · rw [decodeOp_diff _ _ _ _ h.1 h.2, opLength_one (.inl (by omega))]; rfl
  · rw [decodeOp_luma _ _ _ _ h.1 h.2, opLength_two h.1 h.2]; rfl
  · rw [decodeOp_run _ _ _ _ h.1 h.2, opLength_one (.inr h)]; rfl

/-- An opcode is a function of its own bytes: what follows them does not matter (R66). -/
theorem decodeOp_congr {b1 b2 b3 b4 b5 c2 c3 c4 c5 : Byte}
    (h2 : 2 ≤ opLength b1 → b2 = c2) (h3 : 3 ≤ opLength b1 → b3 = c3)
    (h4 : 4 ≤ opLength b1 → b4 = c4) (h5 : 5 ≤ opLength b1 → b5 = c5) :
    decodeOp b1 b2 b3 b4 b5 = decodeOp b1 c2 c3 c4 c5 := by
  rcases tag_cases b1 with h | h | h | h | h | h
  · subst h
    rw [decodeOp_rgb, decodeOp_rgb, h2 (by decide), h3 (by decide), h4 (by decide)]
  · subst h
    rw [decodeOp_rgba, decodeOp_rgba, h2 (by decide), h3 (by decide), h4 (by decide), h5
        (by decide)]
  · rw [decodeOp_index _ _ _ _ h, decodeOp_index _ _ _ _ h]
  · rw [decodeOp_diff _ _ _ _ h.1 h.2, decodeOp_diff _ _ _ _ h.1 h.2]
  · rw [decodeOp_luma _ _ _ _ h.1 h.2, decodeOp_luma _ _ _ _ h.1 h.2,
      h2 (by rw [opLength_two h.1 h.2])]
  · rw [decodeOp_run _ _ _ _ h.1 h.2, decodeOp_run _ _ _ _ h.1 h.2]

/-- The parser's operands are in range (R74 to R78). -/
theorem decodeOp_wf (b1 b2 b3 b4 b5 : Byte) : (decodeOp b1 b2 b3 b4 b5).wf = true := by
  rcases tag_cases b1 with h | h | h | h | h | h
  · subst h; rfl
  · subst h; rfl
  · rw [decodeOp_index _ _ _ _ h]; rfl
  · rw [decodeOp_diff _ _ _ _ h.1 h.2]; simp [Instr.wf, diffDeltaOk, inRange]; omega
  · have := b2.isLt
    rw [decodeOp_luma _ _ _ _ h.1 h.2]; simp [Instr.wf, lumaGreenOk, lumaCrossOk, inRange]; omega
  · rw [decodeOp_run _ _ _ _ h.1 h.2]; simp [Instr.wf, runFieldOk]; omega

/-- The parser on a byte string that holds the whole opcode. -/
theorem decode_cons {b1 : Byte} {rest : List Byte} (h : opLength b1 ≤ rest.length + 1) :
    decode (b1 :: rest) = .ok (decodeOp b1 (rest.getD 0 0) (rest.getD 1 0) (rest.getD 2 0)
      (rest.getD 3 0), rest.drop (opLength b1 - 1)) := by
  have : ¬ rest.length + 1 < opLength b1 := by omega
  simp [decode, this]

/-- A string the parser accepts holds its opcode whole. -/
theorem decode_ok_length {b1 : Byte} {rest tail : List Byte} {i : Instr}
    (h : decode (b1 :: rest) = .ok (i, tail)) : opLength b1 ≤ rest.length + 1 := by
  by_contra hlt
  have : rest.length + 1 < opLength b1 := by omega
  simp [decode, this] at h

end Sys2Proof.Laws
end

