-- ==== Sys2Proof/Laws/Space.lean ====
section
/-! SUPPORT. The tests against 2^ADDR_BITS say what the spec's comparisons say. -/

namespace Sys2Proof.Laws

open Sys2Proof.Machine

/-- ADDR_BITS is at least 32 (R8). -/
theorem memSize_ge (cfg : Config) : 4294967296 ≤ cfg.memSize := by
  have h : 2 ^ 32 ≤ 2 ^ cfg.addrBits :=
    Nat.pow_le_pow_right (by decide) (by simp [Config.addrBits])
  simpa [Config.memSize] using h

theorem fits_iff (cfg : Config) (v : Nat) : fits cfg v = true ↔ v < cfg.memSize := by
  have := memSize_ge cfg
  simp only [fits, Bool.or_eq_true, decide_eq_true_eq]; omega

theorem spanOk_iff (cfg : Config) (a n : Nat) : spanOk cfg a n = true ↔ a + n ≤ cfg.memSize := by
  have := memSize_ge cfg
  simp only [spanOk, Bool.or_eq_true, decide_eq_true_eq]; omega

/-- A field of ADDR_BITS bits takes the value mod 2^ADDR_BITS (R34). -/
theorem wrap_eq (cfg : Config) (v : Nat) : wrap cfg v = v % cfg.memSize := by
  have := memSize_ge cfg
  unfold wrap; split
  · exact (Nat.mod_eq_of_lt (by omega)).symm
  · rfl

theorem fits_wrap (cfg : Config) (v : Nat) : fits cfg (wrap cfg v) = true := by
  rw [fits_iff, wrap_eq]; exact Nat.mod_lt _ (by have := memSize_ge cfg; omega)

theorem fits_of_le {cfg : Config} {v w : Nat} (h : v ≤ w) (hw : fits cfg w = true) :
    fits cfg v = true := by rw [fits_iff] at *; omega

theorem fits_small {cfg : Config} {v : Nat} (h : v < 4294967296) : fits cfg v = true := by
  simp [fits, h]

/-- `Overlap` is what R46 says: two nonempty regions that share a byte. -/
theorem regionsOverlap_iff (r s : Region) :
    regionsOverlap r s = true ↔ ∃ a, inRegion r a = true ∧ inRegion s a = true := by
  simp only [regionsOverlap, inRegion, Bool.and_eq_true, decide_eq_true_eq]
  constructor
  · rintro ⟨⟨⟨h1, h2⟩, h3⟩, h4⟩
    exact ⟨max r.base s.base, by omega, by omega⟩
  · rintro ⟨a, h1, h2⟩; omega

/-- The addresses of DST (R44). -/
theorem inRegion_dst (d : Decoder) (a : Nat) :
    inRegion (dstRegion d) a = true ↔ d.dstBase ≤ a ∧ a < d.dstBase + d.dstCap := by
  simp only [inRegion, Bool.and_eq_true, decide_eq_true_eq]
  exact Iff.rfl

/-- The addresses of OUT (R44). -/
theorem inRegion_out (e : Encoder) (a : Nat) :
    inRegion (outRegion e) a = true ↔ e.outBase ≤ a ∧ a < e.outBase + e.outCap := by
  simp only [inRegion, Bool.and_eq_true, decide_eq_true_eq]
  exact Iff.rfl

end Sys2Proof.Laws
end

