-- ==== Sys2Proof/Laws/State.lean ====
section
/-! SUPPORT. What each update leaves in each field, so that no proof unfolds a record update. -/

namespace Sys2Proof.Laws

open Sys2Proof.Machine Sys2Proof.Safety

section machine
variable (s : State) (f : Decoder → Decoder) (g : Encoder → Encoder) (v : Nat)

@[simp] theorem mapDec_dec : (s.mapDec f).dec = f s.dec := rfl
@[simp] theorem mapDec_enc : (s.mapDec f).enc = s.enc := rfl
@[simp] theorem mapDec_mem : (s.mapDec f).mem = s.mem := rfl
@[simp] theorem mapDec_unseen : (s.mapDec f).unseen = s.unseen := rfl
@[simp] theorem mapDec_host : (s.mapDec f).host = s.host := rfl
@[simp] theorem mapDec_turns : (s.mapDec f).turns = s.turns := rfl
@[simp] theorem mapEnc_enc : (s.mapEnc g).enc = g s.enc := rfl
@[simp] theorem mapEnc_dec : (s.mapEnc g).dec = s.dec := rfl
@[simp] theorem mapEnc_mem : (s.mapEnc g).mem = s.mem := rfl
@[simp] theorem mapEnc_unseen : (s.mapEnc g).unseen = s.unseen := rfl
@[simp] theorem mapEnc_host : (s.mapEnc g).host = s.host := rfl
@[simp] theorem mapEnc_turns : (s.mapEnc g).turns = s.turns := rfl
@[simp] theorem endTurn_dec : s.endTurn.dec = s.dec := rfl
@[simp] theorem endTurn_enc : s.endTurn.enc = s.enc := rfl
@[simp] theorem endTurn_mem : s.endTurn.mem = s.mem := rfl
@[simp] theorem endTurn_unseen : s.endTurn.unseen = s.unseen := rfl
@[simp] theorem endTurn_host : s.endTurn.host = s.host := rfl
@[simp] theorem endTurn_turns : s.endTurn.turns = s.turns.tail := rfl
@[simp] theorem answer_dec : (s.answer v).dec = s.dec := rfl
@[simp] theorem answer_enc : (s.answer v).enc = s.enc := rfl
@[simp] theorem answer_mem : (s.answer v).mem = s.mem := rfl
@[simp] theorem answer_unseen : (s.answer v).unseen = s.unseen := rfl
@[simp] theorem answer_turns : (s.answer v).turns = s.turns := rfl
@[simp] theorem answer_todo : (s.answer v).host.todo = s.host.todo := rfl
@[simp] theorem answer_answers : (s.answer v).host.answers = v :: s.host.answers := rfl
@[simp] theorem answer_reads : (s.answer v).host.reads = s.host.reads := rfl
@[simp] theorem afterTake_dec : (afterTake s).dec = s.dec := rfl
@[simp] theorem afterTake_enc : (afterTake s).enc = s.enc := rfl
@[simp] theorem afterTake_mem : (afterTake s).mem = s.mem := rfl
@[simp] theorem afterTake_unseen : (afterTake s).unseen = s.unseen := rfl
@[simp] theorem engineStore_mem (e : Engine) (a : Nat) (bs : List Byte) :
    (s.engineStore e a bs).mem = Memory.storeAll s.mem a bs := rfl
@[simp] theorem engineStore_unseen (e : Engine) (a : Nat) (bs : List Byte) :
    (s.engineStore e a bs).unseen = recordUnseen e s.mem a bs.length s.unseen := rfl
@[simp] theorem engineStore_dec (e : Engine) (a : Nat) (bs : List Byte) :
    (s.engineStore e a bs).dec = s.dec := rfl
@[simp] theorem engineStore_enc (e : Engine) (a : Nat) (bs : List Byte) :
    (s.engineStore e a bs).enc = s.enc := rfl
@[simp] theorem engineStore_host (e : Engine) (a : Nat) (bs : List Byte) :
    (s.engineStore e a bs).host = s.host := rfl
@[simp] theorem engineStore_turns (e : Engine) (a : Nat) (bs : List Byte) :
    (s.engineStore e a bs).turns = s.turns := rfl

end machine

section decoder
variable (d : Decoder) (p : Pixel) (n : Nat) (c : Code)

@[simp] theorem resolve_cur : (d.resolve p).cur = p := rfl
@[simp] theorem resolve_cache : (d.resolve p).cache = cacheInsert d.cache p := rfl
@[simp] theorem resolve_runcnt : (d.resolve p).runcnt = d.runcnt := rfl
@[simp] theorem resolve_sp : (d.resolve p).sp = d.sp := rfl
@[simp] theorem resolve_status : (d.resolve p).status = d.status := rfl
@[simp] theorem recall_cur : (d.recall p).cur = p := rfl
@[simp] theorem recall_cache : (d.recall p).cache = d.cache := rfl
@[simp] theorem recall_runcnt : (d.recall p).runcnt = d.runcnt := rfl
@[simp] theorem recall_sp : (d.recall p).sp = d.sp := rfl
@[simp] theorem setRun_cur : (d.setRun n).cur = d.cur := rfl
@[simp] theorem setRun_cache : (d.setRun n).cache = d.cache := rfl
@[simp] theorem setRun_runcnt : (d.setRun n).runcnt = BitVec.ofNat 6 n := rfl
@[simp] theorem setRun_sp : (d.setRun n).sp = d.sp := rfl
@[simp] theorem advance_sp : (d.advance n).sp = d.sp + n := rfl
@[simp] theorem advance_cur : (d.advance n).cur = d.cur := rfl
@[simp] theorem advance_cache : (d.advance n).cache = d.cache := rfl
@[simp] theorem advance_runcnt : (d.advance n).runcnt = d.runcnt := rfl
@[simp] theorem advance_status : (d.advance n).status = d.status := rfl
@[simp] theorem advance_pix : (d.advance n).pix = d.pix := rfl
@[simp] theorem countDown_cur : d.countDown.cur = d.cur := rfl
@[simp] theorem countDown_cache : d.countDown.cache = d.cache := rfl
@[simp] theorem countDown_sp : d.countDown.sp = d.sp := rfl
@[simp] theorem countDown_runcnt : d.countDown.runcnt = d.runcnt - 1 := rfl
@[simp] theorem decFinish_status : (d.finish c).status = statusEnded c := rfl
@[simp] theorem decFinish_outLen : (d.finish c).outLen = d.outLen := rfl
@[simp] theorem decodeFinish_outLen : (decodeFinish d).outLen = d.n * d.outCh.toNat := rfl
@[simp] theorem decodeFinish_status : (decodeFinish d).status = statusEnded .ok := rfl

end decoder

section encoder
variable (e : Encoder) (px : Pixel) (c : Code)

@[simp] theorem absorb_cur : (e.absorb px).cur = px := rfl
@[simp] theorem absorb_runacc : (e.absorb px).runacc = e.runacc := rfl
@[simp] theorem absorb_op : (e.absorb px).op = e.op := rfl
@[simp] theorem encFinish_status : (e.finish c).status = statusEnded c := rfl
@[simp] theorem encodeFinish_outLen : (encodeFinish e).outLen = e.op := rfl
@[simp] theorem encodeFinish_status : (encodeFinish e).status = statusEnded .ok := rfl

end encoder

end Sys2Proof.Laws
end

