-- ==== Sys2Proof/Laws/Step.lean ====
section
/-! SUPPORT. Everything a step can do, said once: who moves, what an opcode does to DEC, and the
inversion of the pixel steps of both engines. -/

namespace Sys2Proof.Laws

open Sys2Proof.Machine Sys2Proof.Safety

/-! ## Who moves -/

theorem stepWith_dec {cfg : Config} {s : State} (h : DecMoves s) :
    stepWith cfg s = decodePixel cfg s.endTurn := by
  simp [stepWith, agentStep, h.1, h.2]

theorem stepWith_enc {cfg : Config} {s : State} (h : EncMoves s) :
    stepWith cfg s = encodeStep cfg s.endTurn := by
  simp [stepWith, agentStep, h.1, h.2]

theorem stepWith_host {cfg : Config} {s : State} {op : HostOp} (h : HostMoves s op) :
    stepWith cfg s = hostMove cfg op (afterTake s) := by
  obtain ⟨hm, ho⟩ := h
  cases ht : s.host.todo with
  | nil => simp [ht] at ho
  | cons o rest =>
    obtain rfl : o = op := by simpa [ht] using ho
    simp [stepWith, agentStep, hm, hostStep, ht, afterTake, State.endTurn]

/-- A step is a pixel step of DEC, a step of ENC, a move of the host, or a rest that only uses up
the turn. -/
theorem stepWith_cases (cfg : Config) (s : State) :
    (DecMoves s ∧ stepWith cfg s = decodePixel cfg s.endTurn) ∨
    (EncMoves s ∧ stepWith cfg s = encodeStep cfg s.endTurn) ∨
    (∃ op, HostMoves s op ∧ stepWith cfg s = hostMove cfg op (afterTake s)) ∨
    stepWith cfg s = .next s.endTurn := by
  cases hm : mover s with
  | dec =>
    by_cases hr : decRunning s.dec = true
    · exact .inl ⟨⟨hm, hr⟩, stepWith_dec ⟨hm, hr⟩⟩
    · exact .inr (.inr (.inr (by simp [stepWith, agentStep, hm, hr])))
  | enc =>
    by_cases hr : encRunning s.enc = true
    · exact .inr (.inl ⟨⟨hm, hr⟩, stepWith_enc ⟨hm, hr⟩⟩)
    · exact .inr (.inr (.inr (by simp [stepWith, agentStep, hm, hr])))
  | host =>
    cases ht : s.host.todo with
    | nil => exact .inr (.inr (.inr (by simp [stepWith, agentStep, hm, hostStep, ht])))
    | cons op rest =>
      have h : HostMoves s op := ⟨hm, by simp [ht]⟩
      exact .inr (.inr (.inl ⟨op, h, stepWith_host h⟩))

@[simp] theorem runFor_zero (s : State) : runFor 0 s = .next s := rfl

theorem runFor_succ (k : Nat) {s t : State} (h : step s = .next t) :
    runFor (k + 1) s = runFor k t := by
  have h' : Sys2Proof.core.step s = .next t := h
  simp [runFor, Host.Core.run, h']
  rfl

/-! ## The opcodes -/

/-- What an opcode does to DEC (R100 to R105). -/
def opEffect : Instr → Decoder → Decoder
  | .rgb r g b, d => (d.resolve ⟨r, g, b, d.cur.a⟩).advance 4
  | .rgba r g b a, d => (d.resolve ⟨r, g, b, a⟩).advance 5
  | .index k, d => (d.recall (cacheRead d.cache k)).advance 1
  | .diff dr dg db, d => (d.resolve (movePixel d.cur dr dg db)).advance 1
  | .luma vg drg dbg, d => (d.resolve (movePixel d.cur (vg + drg) vg (vg + dbg))).advance 2
  | .run n, d => (d.setRun n).advance 1

/-- An opcode always runs, and touches nothing outside DEC. -/
theorem exec_eq (i : Instr) (s : State) : exec i s = .next (s.mapDec (opEffect i)) := by
  cases i <;> rfl

/-- An opcode touches CUR, the cache, RUNCNT and SP, and nothing else of DEC. -/
theorem opEffect_frame (i : Instr) (d : Decoder) :
    opEffect i d = { d with
      cur := (opEffect i d).cur, cache := (opEffect i d).cache
      runcnt := (opEffect i d).runcnt, sp := (opEffect i d).sp } := by
  cases i <;> rfl

/-- SP moves past the opcode's bytes. -/
theorem opEffect_sp (i : Instr) (d : Decoder) : (opEffect i d).sp = d.sp + (encode i).length := by
  cases i <;> rfl

/-! ## The pixel step of DEC -/

theorem decRunActive_iff (d : Decoder) : decRunActive d = true ↔ d.runcnt ≠ 0 := by
  simp [decRunActive]

theorem encRunActive_iff (e : Encoder) : encRunActive e = true ↔ e.runacc ≠ 0 := by
  simp [encRunActive]

/-- DEC after its pixel is written: one pixel more, and the command ended if it was the last. -/
def pixelDone (d : Decoder) : Decoder :=
  if d.pix + 1 = d.n then decodeFinish { d with pix := d.pix + 1 } else { d with pix := d.pix + 1 }

/-- The machine after `emitPixel`. -/
def emitted (s : State) : State :=
  { s.engineStore .dec (pixelAddr s.dec) (outBytes s.dec.srcCh s.dec.outCh s.dec.cur) with
    dec := pixelDone s.dec }

theorem emitPixel_of_room {cfg : Config} {s : State}
    (h : spanOk cfg (pixelAddr s.dec) (outBytes s.dec.srcCh s.dec.outCh s.dec.cur).length = true) :
    emitPixel cfg s = .next (emitted s) := by
  simp [emitPixel, h, emitted, pixelDone]

theorem emitPixel_next {cfg : Config} {s t : State} (h : emitPixel cfg s = .next t) :
    t = emitted s := by
  by_cases hs : spanOk cfg (pixelAddr s.dec)
      (outBytes s.dec.srcCh s.dec.outCh s.dec.cur).length = true
  · rw [emitPixel_of_room hs] at h
    exact (Host.Outcome.next.inj h).symm
  · simp [emitPixel, hs] at h

/-- Which of the three cases of R107 a pixel step takes, as what it does to DEC before the pixel is
written. -/
inductive DecPath (cfg : Config) (s : State) : (Decoder → Decoder) → Prop where
  | activeRun (h : s.dec.runcnt ≠ 0) : DecPath cfg s Decoder.countDown
  | opcode (i : Instr) (h : s.dec.runcnt = 0) (hsp : s.dec.sp < s.dec.limit)
      (hf : fetchOp cfg s = some i) : DecPath cfg s (opEffect i)
  | exhausted (h : s.dec.runcnt = 0) (hsp : s.dec.limit ≤ s.dec.sp) : DecPath cfg s id

theorem decodePixel_of_path {cfg : Config} {s : State} {f : Decoder → Decoder}
    (h : DecPath cfg s f) : decodePixel cfg s = emitPixel cfg (s.mapDec f) := by
  cases h with
  | activeRun h => rw [decodePixel, if_pos ((decRunActive_iff _).mpr h)]
  | opcode i h hsp hf =>
    rw [decodePixel, if_neg (by simp [decRunActive, h]), if_pos hsp]
    simp [hf, exec_eq, andThen]
  | exhausted h hsp =>
    rw [decodePixel, if_neg (by simp [decRunActive, h]), if_neg (Nat.not_lt.mpr hsp)]
    rfl

/-- Inversion of the pixel step of DEC. -/
theorem decodePixel_next {cfg : Config} {s t : State} (h : decodePixel cfg s = .next t) :
    ∃ f, DecPath cfg s f ∧ t = emitted (s.mapDec f) := by
  by_cases hr : s.dec.runcnt = 0
  · by_cases hsp : s.dec.sp < s.dec.limit
    · cases hf : fetchOp cfg s with
      | none => simp [decodePixel, decRunActive, hr, hsp, hf] at h
      | some i =>
        have hp := DecPath.opcode i hr hsp hf
        exact ⟨_, hp, emitPixel_next (decodePixel_of_path hp ▸ h)⟩
    · have hp := DecPath.exhausted (cfg := cfg) hr (Nat.not_lt.mp hsp)
      exact ⟨_, hp, emitPixel_next (decodePixel_of_path hp ▸ h)⟩
  · have hp := DecPath.activeRun (cfg := cfg) hr
    exact ⟨_, hp, emitPixel_next (decodePixel_of_path hp ▸ h)⟩

/-- When DEC has a step to take. -/
theorem decRunning_iff
    (d : Decoder) : decRunning d = true ↔ d.status.busy = true ∧ d.pix < d.n := by
  simp [decRunning]

/-- When ENC has a step to take. -/
theorem encRunning_iff
    (e : Encoder) : encRunning e = true ↔ e.status.busy = true ∧ e.pix < e.n := by
  simp [encRunning]

/-- The opcode fetched is the parser's, so it is well formed and has the tag byte's length. -/
theorem fetchOp_some {cfg : Config} {s : State} {i : Instr} (h : fetchOp cfg s = some i) :
    i.wf = true ∧ (encode i).length = opLength (Memory.byteAt s.mem (fetchAddr s)) := by
  by_cases hs : spanOk cfg (fetchAddr s) (opLength (Memory.byteAt s.mem (fetchAddr s))) = true
  · simp only [fetchOp, if_pos hs, Option.some.injEq] at h
    subst h
    exact ⟨decodeOp_wf _ _ _ _ _, encode_decodeOp_length _ _ _ _ _⟩
  · simp [fetchOp, hs] at h

/-- The last pixel ends the command (R115). -/
theorem pixelDone_last {d : Decoder} (h : d.pix + 1 = d.n) :
    pixelDone d = { d with
      pix := d.pix + 1, outLen := d.n * d.outCh.toNat, status := statusEnded .ok } := by
  simp [pixelDone, h, decodeFinish, Decoder.finish]

/-- An earlier pixel only counts. -/
theorem pixelDone_more {d : Decoder} (h : d.pix + 1 ≠ d.n) :
    pixelDone d = { d with pix := d.pix + 1 } := by
  simp [pixelDone, h]

section emitted
variable (s : State)

theorem emitted_cur : (emitted s).dec.cur = s.dec.cur := by
  simp only [emitted, pixelDone]; split <;> rfl

theorem emitted_cache : (emitted s).dec.cache = s.dec.cache := by
  simp only [emitted, pixelDone]; split <;> rfl

theorem emitted_runcnt : (emitted s).dec.runcnt = s.dec.runcnt := by
  simp only [emitted, pixelDone]; split <;> rfl

theorem emitted_sp : (emitted s).dec.sp = s.dec.sp := by
  simp only [emitted, pixelDone]; split <;> rfl

theorem emitted_pix : (emitted s).dec.pix = s.dec.pix + 1 := by
  simp only [emitted, pixelDone]; split <;> rfl

theorem emitted_same : SameDecodeCommand s.dec (emitted s).dec := by
  simp only [emitted, pixelDone]
  split <;> simp [SameDecodeCommand, SameHeader, decodeFinish, Decoder.finish]

end emitted

/-! ## The steps of ENC -/

/-- The machine after a string of bytes is put. -/
def putDone (bs : List Byte) (s : State) : State :=
  { s.engineStore .enc (s.enc.ob + s.enc.op) bs with
    enc := { s.enc with op := s.enc.op + bs.length } }

theorem putBytes_of_room {cfg : Config} {bs : List Byte} {s : State}
    (h : spanOk cfg (s.enc.ob + s.enc.op) bs.length = true) :
    putBytes cfg bs s = .next (putDone bs s) := by
  simp [putBytes, h, putDone]

theorem putBytes_next {cfg : Config} {bs : List Byte} {s t : State}
    (h : putBytes cfg bs s = .next t) : t = putDone bs s := by
  by_cases hs : (bs.isEmpty || spanOk cfg (s.enc.ob + s.enc.op) bs.length) = true
  · simp only [putBytes, if_pos hs, Host.Outcome.next.injEq] at h
    rw [← h]; rfl
  · simp [putBytes, hs] at h

/-- The pixel step's output and the engine after it, for the pixel in memory. -/
def encOut (s : State) : List Byte × Encoder :=
  encodeOne s.enc (readPixel s.mem s.enc) (encLast s)

/-- ENC after the pixel's bytes are decided, before they are put. -/
def encTaken (s : State) : State :=
  s.mapEnc fun _ => { (encOut s).2 with pix := s.enc.pix + 1 }

/-- The machine after a pixel step of ENC. -/
def encPixelDone (cfg : Config) (s : State) : State :=
  if encLast s then
    (putDone ((encOut s).1 ++ cfg.trailer.toList) (encTaken s)).mapEnc encodeFinish
  else putDone (encOut s).1 (encTaken s)

/-- Inversion of the pixel step of ENC. -/
theorem encodePixel_next {cfg : Config} {s t : State} (h : encodePixel cfg s = .next t) :
    t = encPixelDone cfg s := by
  unfold encodePixel at h
  split at h
  · dsimp only at h
    change (if encLast s = true then andThen (putBytes cfg ((encOut s).1 ++ cfg.trailer.toList)
      (encTaken s)) _ else putBytes cfg (encOut s).1 (encTaken s)) = _ at h
    unfold encPixelDone
    split at h
    · rename_i hl
      rw [if_pos hl]
      cases hp : putBytes cfg ((encOut s).1 ++ cfg.trailer.toList) (encTaken s) with
      | next u =>
        rw [hp, putBytes_next hp] at h
        simpa [andThen] using h.symm
      | fault r => simp [hp, andThen] at h
      | refused r => simp [hp, andThen] at h
    · rename_i hl
      rw [if_neg hl]
      exact putBytes_next h
  · cases h

theorem encodePixel_of_room {cfg : Config} {s : State}
    (hr : spanOk cfg (sourceAddr s.enc) (pixelBytes s.enc.ch) = true)
    (hw : spanOk cfg ((encTaken s).enc.ob + (encTaken s).enc.op)
      ((encOut s).1.length + if encLast s then trailerBytes else 0) = true) :
    encodePixel cfg s = .next (encPixelDone cfg s) := by
  unfold encodePixel
  rw [if_pos hr]
  dsimp only
  change (if encLast s = true then andThen (putBytes cfg ((encOut s).1 ++ cfg.trailer.toList)
    (encTaken s)) _ else putBytes cfg (encOut s).1 (encTaken s)) = _
  unfold encPixelDone
  split
  · rename_i hl
    rw [putBytes_of_room (by simpa [hl] using hw)]
    rfl
  · rename_i hl
    exact putBytes_of_room (by simpa [hl] using hw)

/-- Inversion of a step of ENC: the header while OP is 0, a pixel after it. -/
theorem encodeStep_next {cfg : Config} {s t : State} (h : encodeStep cfg s = .next t) :
    (s.enc.op = 0 ∧ t = putDone (headerOut cfg s.enc) s) ∨
      (s.enc.op ≠ 0 ∧ t = encPixelDone cfg s) := by
  unfold encodeStep at h
  split at h
  · exact .inl ⟨‹_›, putBytes_next h⟩
  · exact .inr ⟨‹_›, encodePixel_next h⟩

end Sys2Proof.Laws
end

