-- ==== Sys2Proof/Laws/Ahead.lean ====
section
/-! SUPPORT. What an engine's remaining steps depend on, and what each of its steps leaves of them. -/

namespace Sys2Proof.Laws

open Sys2Proof.Machine Sys2Proof.Safety

@[simp] theorem engineAhead_zero (f : State → Host.Outcome State Fault Refusal) (s : State) :
    engineAhead f 0 s = s := rfl

/-- Looking ahead starts with the engine's next step. -/
theorem engineAhead_succ {f : State → Host.Outcome State Fault Refusal} {s t : State} (k : Nat)
    (h : f s = .next t) : engineAhead f (k + 1) s = engineAhead f k t := by
  simp [engineAhead, h]

/-- What an engine's step commutes with, looking ahead commutes with. -/
theorem engineAhead_comm {f : State → Host.Outcome State Fault Refusal} {g : State → State}
    (hf : ∀ s, f (g s) = andThen (f s) fun t => .next (g t)) (k : Nat) (s : State) :
    engineAhead f k (g s) = g (engineAhead f k s) := by
  induction k generalizing s with
  | zero => rfl
  | succ k ih =>
    have h := hf s
    unfold engineAhead
    cases hs : f s <;> rw [hs] at h <;> rw [h] <;> simp [andThen, ih]

/-- The state with another host port and other turns. -/
def setPort (p : HostPort) (ts : List Agent) (s : State) : State := { s with host := p, turns := ts }

theorem emitPixel_port (cfg : Config) (p : HostPort) (ts : List Agent) (s : State) :
    emitPixel cfg (setPort p ts s) = andThen (emitPixel cfg s) fun t => .next (setPort p ts t) := by
  by_cases h : spanOk cfg (pixelAddr s.dec)
      (outBytes s.dec.srcCh s.dec.outCh s.dec.cur).length = true <;>
    simp only [emitPixel, setPort, h, if_true, andThen] <;> rfl

/-- A pixel step of DEC does not look at the host's port or the turns. -/
theorem decodePixel_port (cfg : Config) (p : HostPort) (ts : List Agent) (s : State) :
    decodePixel cfg (setPort p ts s) =
      andThen (decodePixel cfg s) fun t => .next (setPort p ts t) := by
  unfold decodePixel
  rw [show (setPort p ts s).dec = s.dec from rfl,
    show fetchOp cfg (setPort p ts s) = fetchOp cfg s from rfl]
  split
  · exact emitPixel_port cfg p ts (s.mapDec Decoder.countDown)
  · split
    · cases fetchOp cfg s with
      | none => rfl
      | some i =>
        simp only [exec_eq, andThen]
        exact emitPixel_port cfg p ts (s.mapDec (opEffect i))
    · exact emitPixel_port cfg p ts s

theorem putBytes_port (cfg : Config) (bs : List Byte) (p : HostPort) (ts : List Agent) (s : State) :
    putBytes cfg bs (setPort p ts s) =
      andThen (putBytes cfg bs s) fun t => .next (setPort p ts t) := by
  by_cases h : (bs.isEmpty || spanOk cfg (s.enc.ob + s.enc.op) bs.length) = true <;>
    simp only [putBytes, setPort, h, if_true, andThen] <;> rfl

/-- A step of ENC does not look at the host's port or the turns. -/
theorem encodeStep_port (cfg : Config) (p : HostPort) (ts : List Agent) (s : State) :
    encodeStep cfg (setPort p ts s) =
      andThen (encodeStep cfg s) fun t => .next (setPort p ts t) := by
  unfold encodeStep
  rw [show (setPort p ts s).enc = s.enc from rfl]
  split
  · exact putBytes_port cfg _ p ts s
  · unfold encodePixel
    rw [show (setPort p ts s).enc = s.enc from rfl, show (setPort p ts s).mem = s.mem from rfl]
    split
    · dsimp only
      have h := fun bs => putBytes_port cfg bs p ts (s.mapEnc fun _ =>
        { (encodeOne s.enc (readPixel s.mem s.enc) (decide (s.enc.pix + 1 = s.enc.n))).2 with
          pix := s.enc.pix + 1 })
      split
      · refine Eq.trans (congrArg (fun o => andThen o _) (h _)) ?_
        cases putBytes cfg _ (s.mapEnc _) <;> rfl
      · exact h _
    · rfl

/-- The bytes DEC has yet to write do not depend on the host's port or the turns. -/
theorem decAhead_port (cfg : Config) (p : HostPort) (ts : List Agent) (s : State) (a : Nat) :
    decAhead cfg { s with host := p, turns := ts } a = decAhead cfg s a := by
  have h := congrArg (fun t : State => Memory.byteAt t.mem a)
    (engineAhead_comm (decodePixel_port cfg p ts) (s.dec.n - s.dec.pix) s)
  exact h

/-- The bytes ENC has yet to write do not depend on the host's port or the turns. -/
theorem encAhead_port (cfg : Config) (p : HostPort) (ts : List Agent) (s : State) (a : Nat) :
    encAhead cfg { s with host := p, turns := ts } a = encAhead cfg s a := by
  have h := congrArg (fun t : State => Memory.byteAt t.mem a)
    (engineAhead_comm (encodeStep_port cfg p ts) (encStepsLeft s.enc) s)
  exact h

@[simp] theorem decAhead_afterTake (cfg : Config) (s : State) (a : Nat) :
    decAhead cfg (afterTake s) a = decAhead cfg s a := decAhead_port cfg _ _ s a

@[simp] theorem encAhead_afterTake (cfg : Config) (s : State) (a : Nat) :
    encAhead cfg (afterTake s) a = encAhead cfg s a := encAhead_port cfg _ _ s a

/-- The values open to a host load do not depend on the host's port or the turns. -/
@[simp] theorem visibleBytes_afterTake (cfg : Config) (s : State) (a : Nat) :
    visibleBytes cfg (afterTake s) a = visibleBytes cfg s a := by
  simp only [visibleBytes, decEarly, encEarly, decAhead_afterTake, encAhead_afterTake, afterTake_dec,
    afterTake_enc, afterTake_mem, afterTake_unseen]

end Sys2Proof.Laws
end

