-- ==== Sys2Proof/Laws/Cache.lean ====
section
/-! SUPPORT. The pixel cache's operations (R85 to R92). -/

namespace Sys2Proof.Laws

open Sys2Proof.Machine Sys2Proof.Safety

theorem cacheInsert_get (c : PixelCache) (p : Pixel) (k : Slot) :
    (cacheInsert c p).get k = if k = hashSlot p then p else c.get k := by
  unfold cacheInsert
  rw [Vector.get_eq_getElem, Vector.getElem_set, Vector.get_eq_getElem]
  by_cases h : k = hashSlot p
  · simp [h]
  · have : (hashSlot p).val ≠ k.val := fun h' => h (Fin.ext h'.symm)
    simp [h, this]

theorem cacheInsert_same (c : PixelCache) (p : Pixel) :
    (cacheInsert c p).get (hashSlot p) = p := by simp [cacheInsert_get]

theorem cacheInsert_other (c : PixelCache) {p : Pixel} {k : Slot} (h : k ≠ hashSlot p) :
    (cacheInsert c p).get k = c.get k := by simp [cacheInsert_get, h]

theorem blank_get (k : Slot) : (PixelCache.blank).get k = Pixel.blank := by
  simp [PixelCache.blank, Vector.get_eq_getElem]

theorem cacheHonest_blank : CacheHonest PixelCache.blank := fun k => .inl (blank_get k)

/-- An insert keeps every slot honest (R96). -/
theorem cacheHonest_insert {c : PixelCache} (h : CacheHonest c) (p : Pixel) :
    CacheHonest (cacheInsert c p) := by
  intro k
  rw [cacheInsert_get]
  split
  · rename_i hk; exact .inr hk.symm
  · exact h k

/-- Inserting a pixel that its slot holds already changes nothing. -/
theorem cacheInsert_of_hit {c : PixelCache} {p : Pixel} (h : c.get (hashSlot p) = p) :
    cacheInsert c p = c := by
  apply Vector.ext
  intro i hi
  have := cacheInsert_get c p ⟨i, hi⟩
  rw [Vector.get_eq_getElem, Vector.get_eq_getElem] at this
  rw [this]
  split
  · rename_i hk; rw [← hk, Vector.get_eq_getElem] at h; exact h.symm
  · rfl

end Sys2Proof.Laws
end

