-- ==== Sys2Proof/Laws/Commands.lean ====
section
/-! SUPPORT. Everything the host's moves can do: field writes, the three commands' start steps, and
byte moves (R34, R38, R136 to R142). -/

namespace Sys2Proof.Laws

open Sys2Proof.Machine Sys2Proof.Safety

/-- The first check decides if it fails. -/
theorem firstFailing_cons (b : Bool) (c : Code) (rest : List (Bool × Code)) :
    firstFailing ((b, c) :: rest) = if b then some c else firstFailing rest := rfl

/-- No check fails exactly when each one passes. -/
theorem firstFailing_none {l : List (Bool × Code)} :
    firstFailing l = none ↔ ∀ p ∈ l, p.1 = false := by
  induction l with
  | nil => simp [firstFailing]
  | cons p rest ih =>
    obtain ⟨b, c⟩ := p
    cases b <;> simp [firstFailing, ih]

/-- `Overlap` as 44_commands.md writes it. -/
theorem regionsOverlap_eq_true (r s : Region) : (regionsOverlap r s = true) ↔
    (0 < r.len ∧ 0 < s.len ∧ r.base < s.base + s.len ∧ s.base < r.base + r.len) := by
    simp [regionsOverlap, and_assoc]

/-- A value written to an 8-bit field is taken mod 2^8 (R34). -/
theorem toByte_toNat (v : Nat) : (toByte v).toNat = v % 256 := by simp [toByte]

/-- A nonzero code written to the CMD field of an idle DEC starts a command (R38). -/
theorem hostWriteDec_command {cfg : Config} {s : State} {v : Nat}
    (hb : s.dec.status.busy = false) (hv : v % 256 ≠ 0) :
    hostWriteDec cfg 0 v s = startDecCommand cfg (toByte v) s := by
  unfold hostWriteDec
  have : toByte v ≠ 0 := by
    intro h; rw [byte_eq_iff, toByte_toNat] at h; exact hv h
  rw [if_neg (by simp [hb]), if_pos rfl, if_neg this]

/-- A nonzero code written to the CMD field of an idle ENC starts a command (R38). -/
theorem hostWriteEnc_command {cfg : Config} {s : State} {v : Nat}
    (hb : s.enc.status.busy = false) (hv : v % 256 ≠ 0) :
    hostWriteEnc cfg 0 v s = startEncCommand cfg (toByte v) s := by
  unfold hostWriteEnc
  have : toByte v ≠ 0 := by
    intro h; rw [byte_eq_iff, toByte_toNat] at h; exact hv h
  rw [if_neg (by simp [hb]), if_pos rfl, if_neg this]

/-- Inversion of DECODE (R139): a check fails before the header is read, one fails after it, or the
engine enters its loop. -/
theorem decodeCommand_next {cfg : Config} {s t : State} (h : decodeCommand cfg s = .next t) :
    (∃ code, firstFailing (decodeArgChecks cfg s.dec) = some code ∧
      t = s.mapDec fun d => d.finish code) ∨
    (firstFailing (decodeArgChecks cfg s.dec) = none ∧
      meetsRunningEnc s (frameRegion s.dec) = false ∧
      ((∃ code, firstFailing (headerChecks cfg (readHeader s.mem s.dec.frameBase) ++
          decodeOutChecks cfg s.dec (readHeader s.mem s.dec.frameBase)) = some code ∧
        t = s.mapDec fun d => (d.report (readHeader s.mem s.dec.frameBase)).finish code) ∨
      (firstFailing (headerChecks cfg (readHeader s.mem s.dec.frameBase) ++
          decodeOutChecks cfg s.dec (readHeader s.mem s.dec.frameBase)) = none ∧
        meetsRunningEnc s (dstRegion s.dec) = false ∧
        t = s.mapDec fun d => beginDecode (d.report (readHeader s.mem s.dec.frameBase))
          (readHeader s.mem s.dec.frameBase)))) := by
  unfold decodeCommand at h
  split at h
  · rename_i code hc
    exact .inl ⟨code, hc, (Host.Outcome.next.inj h).symm⟩
  · rename_i hc
    refine .inr ⟨hc, ?_⟩
    split at h
    · cases h
    · rename_i hm
      refine ⟨by simpa using hm, ?_⟩
      dsimp only at h
      split at h
      · rename_i code hc'
        exact .inl ⟨code, hc', (Host.Outcome.next.inj h).symm⟩
      · rename_i hc'
        split at h
        · cases h
        · rename_i hm'
          exact .inr ⟨hc', by simpa using hm', (Host.Outcome.next.inj h).symm⟩

/-- DECODE when a check before the header fails (R139). -/
theorem decodeCommand_of_argument {cfg : Config} {s : State} {c : Code} (h : firstFailing
    (decodeArgChecks cfg s.dec) = some c) :
    decodeCommand cfg s = .next (s.mapDec fun d => d.finish c) := by
  unfold decodeCommand; rw [h]

/-- DECODE when a check after the header is read fails (R139). -/
theorem decodeCommand_of_header {cfg : Config} {s : State} {c : Code} (h : firstFailing
    (decodeArgChecks cfg s.dec) = none) (hm : meetsRunningEnc s (frameRegion s.dec) = false)
    (h2 : firstFailing (headerChecks cfg
        (readHeader s.mem s.dec.frameBase) ++ decodeOutChecks cfg s.dec
        (readHeader s.mem s.dec.frameBase)) = some c) :
    decodeCommand cfg s = .next (s.mapDec fun d => (d.report
        (readHeader s.mem s.dec.frameBase)).finish c) := by
  unfold decodeCommand
  simp only [h, hm, Bool.false_eq_true, if_false, h2]

/-- DECODE when every check passes (R139, R106). -/
theorem decodeCommand_of_pass {cfg : Config} {s : State} (h : firstFailing
    (decodeArgChecks cfg s.dec) = none) (hm : meetsRunningEnc s (frameRegion s.dec) = false)
    (h2 : firstFailing (headerChecks cfg
        (readHeader s.mem s.dec.frameBase) ++ decodeOutChecks cfg s.dec
        (readHeader s.mem s.dec.frameBase)) = none)
    (hm2 : meetsRunningEnc s (dstRegion s.dec) = false) :
    decodeCommand cfg s = .next (s.mapDec fun d => beginDecode (d.report
        (readHeader s.mem s.dec.frameBase)) (readHeader s.mem s.dec.frameBase)) := by
  unfold decodeCommand
  simp only [h, hm, Bool.false_eq_true, if_false, h2, hm2]

/-- Inversion of PEEK (R141). -/
theorem peekCommand_next {cfg : Config} {s t : State} (h : peekCommand cfg s = .next t) :
    (∃ code, firstFailing (peekArgChecks cfg s.dec) = some code ∧
      t = s.mapDec fun d => d.finish code) ∨
    (firstFailing (peekArgChecks cfg s.dec) = none ∧
      meetsRunningEnc s (frameRegion s.dec) = false ∧
      t = s.mapDec fun d => (d.report (readHeader s.mem s.dec.frameBase)).finish
        ((firstFailing (headerChecks cfg (readHeader s.mem s.dec.frameBase))).getD .ok)) := by
  unfold peekCommand at h
  split at h
  · rename_i code hc
    exact .inl ⟨code, hc, (Host.Outcome.next.inj h).symm⟩
  · rename_i hc
    split at h
    · cases h
    · rename_i hm
      exact .inr ⟨hc, by simpa using hm, (Host.Outcome.next.inj h).symm⟩

/-- PEEK when a check before the header fails (R141). -/
theorem peekCommand_of_argument {cfg : Config} {s : State} {c : Code} (h : firstFailing
    (peekArgChecks cfg s.dec) = some c) :
    peekCommand cfg s = .next (s.mapDec fun d => d.finish c) := by
  unfold peekCommand; rw [h]

/-- PEEK once the header is read (R141). -/
theorem peekCommand_of_header {cfg : Config} {s : State} (h : firstFailing
    (peekArgChecks cfg s.dec) = none) (hm : meetsRunningEnc s (frameRegion s.dec) = false) :
    peekCommand cfg s = .next (s.mapDec fun d => (d.report
        (readHeader s.mem s.dec.frameBase)).finish
        ((firstFailing (headerChecks cfg (readHeader s.mem s.dec.frameBase))).getD .ok)) := by
  unfold peekCommand
  simp only [h, hm, Bool.false_eq_true, if_false]

/-- Inversion of ENCODE (R142). -/
theorem encodeCommand_next {cfg : Config} {s t : State} (h : encodeCommand cfg s = .next t) :
    (∃ code, firstFailing (encodeChecks cfg s.enc) = some code ∧
      t = s.mapEnc fun e => e.finish code) ∨
    (firstFailing (encodeChecks cfg s.enc) = none ∧
      meetsRunningDec s (srcRegion s.enc) = false ∧ meetsRunningDec s (outRegion s.enc) = false ∧
      t = s.mapEnc beginEncode) := by
  unfold encodeCommand at h
  split at h
  · rename_i code hc
    exact .inl ⟨code, hc, (Host.Outcome.next.inj h).symm⟩
  · rename_i hc
    split at h
    · cases h
    · rename_i hm
      simp only [Bool.or_eq_true, not_or, Bool.not_eq_true] at hm
      exact .inr ⟨hc, hm.1, hm.2, (Host.Outcome.next.inj h).symm⟩

/-- ENCODE when a check fails (R142). -/
theorem encodeCommand_of_failure {cfg : Config} {s : State} {c : Code} (h : firstFailing
    (encodeChecks cfg s.enc) = some c) :
    encodeCommand cfg s = .next (s.mapEnc fun e => e.finish c) := by
  unfold encodeCommand; rw [h]

/-- ENCODE when every check passes (R142). -/
theorem encodeCommand_of_pass {cfg : Config} {s : State} (h : firstFailing
    (encodeChecks cfg s.enc) = none) (h1 : meetsRunningDec s (srcRegion s.enc) = false)
    (h2 : meetsRunningDec s (outRegion s.enc) = false) :
    encodeCommand cfg s = .next (s.mapEnc beginEncode) := by
  unfold encodeCommand
  simp only [h, h1, h2, Bool.or_self, Bool.false_eq_true, if_false]

/-- Whatever a start step of DEC answers, it touches DEC alone and leaves OUT_LEN 0 (R136, R149). -/
theorem startDecCommand_next {cfg : Config} {s t : State} {c : Byte}
    (h : startDecCommand cfg c s = .next t) :
    t.mem = s.mem ∧ t.enc = s.enc ∧ t.unseen = s.unseen ∧ t.host = s.host ∧ t.turns = s.turns ∧
      t.dec.outLen = 0 := by
  unfold startDecCommand at h
  dsimp only at h
  split at h
  · rcases decodeCommand_next h with ⟨code, -, rfl⟩ | ⟨-, -, ⟨code, -, rfl⟩ | ⟨-, -, rfl⟩⟩ <;>
      exact ⟨rfl, rfl, rfl, rfl, rfl, rfl⟩
  · split at h
    · rcases peekCommand_next h with ⟨code, -, rfl⟩ | ⟨-, -, rfl⟩ <;>
        exact ⟨rfl, rfl, rfl, rfl, rfl, rfl⟩
    · cases h; exact ⟨rfl, rfl, rfl, rfl, rfl, rfl⟩

/-- Whatever a start step of ENC answers, it touches ENC alone and leaves OUT_LEN 0 (R136, R149). -/
theorem startEncCommand_next {cfg : Config} {s t : State} {c : Byte}
    (h : startEncCommand cfg c s = .next t) :
    t.mem = s.mem ∧ t.dec = s.dec ∧ t.unseen = s.unseen ∧ t.host = s.host ∧ t.turns = s.turns ∧
      t.enc.outLen = 0 := by
  unfold startEncCommand at h
  dsimp only at h
  split at h
  · rcases encodeCommand_next h with ⟨code, -, rfl⟩ | ⟨-, -, -, rfl⟩ <;>
      exact ⟨rfl, rfl, rfl, rfl, rfl, rfl⟩
  · cases h; exact ⟨rfl, rfl, rfl, rfl, rfl, rfl⟩

/-- Where DEC's five read-write fields are as they were, they read as they did. -/
theorem sameDecFields_of {d d' : Decoder} (h1 : d'.frameBase = d.frameBase)
    (h2 : d'.frameLen = d.frameLen) (h3 : d'.dstBase = d.dstBase) (h4 : d'.dstCap = d.dstCap)
    (h5 : d'.outChReq = d.outChReq) : SameDecFields d d' := by
  intro no a b
  rcases (by omega : no = 1 ∨ no = 2 ∨ no = 3 ∨ no = 4 ∨ no = 5) with
    rfl | rfl | rfl | rfl | rfl <;> simp [readDecField, *]

/-- Where ENC's eight read-write fields are as they were, they read as they did. -/
theorem sameEncFields_of {e e' : Encoder} (h1 : e'.srcBase = e.srcBase) (h2 : e'.width = e.width)
    (h3 : e'.height = e.height) (h4 : e'.channels = e.channels) (h5 : e'.stride = e.stride)
    (h6 : e'.outBase = e.outBase) (h7 : e'.outCap = e.outCap) (h8 : e'.colorspace = e.colorspace) :
    SameEncFields e e' := by
  intro no a b
  rcases (by omega : no = 1 ∨ no = 2 ∨ no = 3 ∨ no = 4 ∨ no = 5 ∨ no = 6 ∨ no = 7 ∨ no = 8) with
    rfl | rfl | rfl | rfl | rfl | rfl | rfl | rfl <;> simp [readEncField, *]

/-- A host load of a byte leaves everything but the host port. -/
theorem hostReadByte_next {cfg : Config} {s t : State} {a : Nat}
    (h : hostReadByte cfg a s = .next t) : t = { s with host := t.host } := by
  unfold hostReadByte at h
  split at h
  · split at h <;> cases h <;> rfl
  · cases h

/-- All that a host store can do. -/
theorem hostWriteByte_next {cfg : Config} {s t : State} {a : Nat} {v : Byte}
    (h : hostWriteByte cfg a v s = .next t) :
    a < cfg.memSize ∧ inRunningRegion s a = false ∧
      t = { s with mem := Memory.store s.mem a v
                   unseen := s.unseen.filter fun u => decide (u.addr ≠ a) } := by
  unfold hostWriteByte at h
  split at h
  · rename_i hs
    split at h
    · cases h
    · rename_i hr
      rw [spanOk_iff] at hs
      exact ⟨by omega, by simpa using hr, (Host.Outcome.next.inj h).symm⟩
  · cases h

/-- All that a host read of a field does beside its answer. -/
theorem hostSaw_eq (s : State) (e : Engine) (no : Nat) (st : Status) :
    s.hostSaw e no st = { s with unseen := s.unseen.filter fun u =>
      !(decide (no = 0x10) && st.done) || decide (u.writer ≠ e) } := by
  unfold State.hostSaw
  cases decide (no = 0x10) && st.done
  · simp
  · simp

section hostSaw
variable (s : State) (e : Engine) (no : Nat) (st : Status)

@[simp] theorem hostSaw_dec : (s.hostSaw e no st).dec = s.dec := by rw [hostSaw_eq]
@[simp] theorem hostSaw_enc : (s.hostSaw e no st).enc = s.enc := by rw [hostSaw_eq]
@[simp] theorem hostSaw_mem : (s.hostSaw e no st).mem = s.mem := by rw [hostSaw_eq]
@[simp] theorem hostSaw_host : (s.hostSaw e no st).host = s.host := by rw [hostSaw_eq]
@[simp] theorem hostSaw_turns : (s.hostSaw e no st).turns = s.turns := by rw [hostSaw_eq]

end hostSaw

/-- The value a running DECODE lets the host see early. -/
theorem mem_decEarly {cfg : Config} {s : State} {a : Nat} {x : Byte} :
    x ∈ decEarly cfg s a ↔ s.dec.status.busy = true ∧ inRegion (dstRegion s.dec) a = true ∧
      x = decAhead cfg s a := by
  unfold decEarly
  split <;> simp_all

/-- The value a running ENCODE lets the host see early. -/
theorem mem_encEarly {cfg : Config} {s : State} {a : Nat} {x : Byte} :
    x ∈ encEarly cfg s a ↔ s.enc.status.busy = true ∧ inRegion (outRegion s.enc) a = true ∧
      x = encAhead cfg s a := by
  unfold encEarly
  split <;> simp_all

/-- All the values open to a host load (R58). -/
theorem mem_visibleBytes {cfg : Config} {s : State} {a : Nat} {x : Byte} :
    x ∈ visibleBytes cfg s a ↔
      x = Memory.byteAt s.mem a ∨ (∃ u ∈ s.unseen, u.addr = a ∧ x = u.old) ∨
        (s.dec.status.busy = true ∧ inRegion (dstRegion s.dec) a = true ∧ x = decAhead cfg s a) ∨
        (s.enc.status.busy = true ∧ inRegion (outRegion s.enc) a = true ∧ x = encAhead cfg s a) := by
  simp only [visibleBytes, List.mem_cons, List.mem_append, List.mem_map, List.mem_filter,
    decide_eq_true_eq, mem_decEarly, mem_encEarly, or_assoc, and_assoc, eq_comm (a := x)]

/-- Where no write is unseen and no running command writes, a host load has one value open. -/
theorem visibleBytes_of_seen {cfg : Config} {s : State} {a : Nat} (h : ∀ u ∈ s.unseen, u.addr ≠ a)
    (hd : s.dec.status.busy = true → inRegion (dstRegion s.dec) a = false)
    (he : s.enc.status.busy = true → inRegion (outRegion s.enc) a = false) :
    visibleBytes cfg s a = [Memory.byteAt s.mem a] := by
  have h1 : (s.unseen.filter fun u => decide (u.addr = a)) = [] := by
    simpa [List.filter_eq_nil_iff] using h
  have h2 : decEarly cfg s a = [] := if_neg (by simp_all)
  have h3 : encEarly cfg s a = [] := if_neg (by simp_all)
  simp [visibleBytes, h1, h2, h3]

/-! ## The record of unseen writes -/

/-- Everything an engine's store does to the record. -/
theorem mem_recordUnseen {e : Engine} {m : Memory} {a n : Nat} {l : List Unseen} {u : Unseen} :
    u ∈ recordUnseen e m a n l ↔
      ((a ≤ u.addr ∧ u.addr < a + n) ∧ u.writer = e ∧ u.old = Memory.byteAt m u.addr) ∨
        (u ∈ l ∧ ¬(a ≤ u.addr ∧ u.addr < a + n)) := by
  simp only [recordUnseen, List.mem_append, List.mem_map, List.mem_range, List.mem_filter, inRegion,
    Bool.not_eq_true', Bool.and_eq_false_iff, decide_eq_false_iff_not]
  constructor
  · rintro (⟨j, hj, rfl⟩ | ⟨h1, h2⟩)
    · exact .inl ⟨⟨Nat.le_add_right _ _, Nat.add_lt_add_left hj _⟩, rfl, rfl⟩
    · exact .inr ⟨h1, by omega⟩
  · rintro (⟨⟨h1, h2⟩, h3, h4⟩ | ⟨h1, h2⟩)
    · refine .inl ⟨u.addr - a, by omega, ?_⟩
      obtain ⟨ua, uw, uo⟩ := u
      dsimp only at *
      rw [show a + (ua - a) = ua by omega, h3, h4]
    · exact .inr ⟨h1, by omega⟩

/-- An engine's store keeps at most one entry for an address. -/
theorem recordUnseen_nodup {e : Engine} {m : Memory} {a n : Nat} {l : List Unseen}
    (h : (l.map Unseen.addr).Nodup) : ((recordUnseen e m a n l).map Unseen.addr).Nodup := by
  unfold recordUnseen
  rw [List.map_append, List.map_map]
  refine List.Nodup.append ?_ (h.sublist (List.filter_sublist.map _)) ?_
  · exact List.nodup_range.map fun i j hij => Nat.add_left_cancel hij
  · intro x hx hy
    simp only [List.mem_map, List.mem_range, Function.comp_apply, List.mem_filter, inRegion,
      Bool.not_eq_true', Bool.and_eq_false_iff, decide_eq_false_iff_not] at hx hy
    obtain ⟨j, hj, rfl⟩ := hx
    obtain ⟨u, ⟨-, h2⟩, h3⟩ := hy
    omega

/-- Two entries for one address are the same entry. -/
theorem unseen_eq {l : List Unseen} (h : (l.map Unseen.addr).Nodup) {u w : Unseen} (hu : u ∈ l)
    (hw : w ∈ l) (he : u.addr = w.addr) : u = w :=
  List.inj_on_of_nodup_map h hu hw he

end Sys2Proof.Laws
end

