-- ==== Sys2Proof/Laws/Encoder.lean ====
section
/-! SUPPORT. All that a source pixel does to ENC (R119 to R130). -/

namespace Sys2Proof.Laws

open Sys2Proof.Machine Sys2Proof.Safety

/-- The last pixel step. -/
theorem encLast_iff (s : State) : encLast s = true ↔ s.enc.pix + 1 = s.enc.n := by simp [encLast]

/-- A three-channel source has alpha 0xFF throughout (R119). -/
theorem readPixel_alpha {m : Memory} {e : Encoder} (h : e.ch = 3) : (readPixel m e).a = 0xFF := by
  simp [readPixel, h]

/-- The header has 14 bytes (R118). -/
theorem headerOut_length (cfg : Config) (e : Encoder) : (headerOut cfg e).length = 14 := by
  simp [headerOut, be32Bytes]

/-- A flush leaves RUNACC at 0 and the rest as it was (R124). -/
theorem runFlush_runacc (e : Encoder) : (runFlush e).2 = { e with runacc := 0 } := by
  unfold runFlush
  split
  · rfl
  · rename_i h
    have : e.runacc = 0 := by simpa [encRunActive] using h
    rw [← this]

/-- A flush puts one byte if a run is active (R124). -/
theorem runFlush_length (e : Encoder) : (runFlush e).1.length = (encRunActive e).toNat := by
  unfold runFlush
  split
  · rename_i h; simp [h, encode]
  · rename_i h; simp [h]

/-- The predictor's opcode has at most CH + 1 bytes (R132): RGBA needs an alpha change. -/
theorem predict_length (c : PixelCache) (cur px : Pixel) :
    (encode (predict c cur px)).length ≤ if px.a = cur.a then 4 else 5 := by
  unfold predict
  split
  · split <;> simp [encode]
  · split
    · split <;> simp [encode]
    · split
      · split <;> simp [encode]
      · split <;> rename_i h
        · simp [encode]
        · simp [encode]

/-- What a pixel does to ENC, whichever branch it takes (R120). -/
structure PixelTaken (e : Encoder) (px : Pixel) (last : Bool) (out : List Byte)
    (e' : Encoder) : Prop where
  frame : e' = { e with cur := e'.cur, cache := e'.cache, runacc := e'.runacc }
  cur : e'.cur = px
  honest : CacheHonest e.cache → CacheHonest e'.cache
  run : e'.runacc.toNat ≤ 60
  lastRun : last = true → e'.runacc = 0
  size : out.length + (encRunActive e').toNat ≤
    (encRunActive e).toNat + if px.a = e.cur.a then 4 else 5

/-- All that a pixel does to ENC, for either branch of R120. -/
theorem encodeOne_taken {e : Encoder} (px : Pixel) (last : Bool) (h : e.runacc.toNat ≤ 60) :
    PixelTaken e px last (encodeOne e px last).1 (encodeOne e px last).2 := by
  unfold encodeOne
  split
  · rename_i hpx
    subst hpx
    have hadd : (e.runacc + 1).toNat = e.runacc.toNat + 1 := by bv_omega
    unfold runExtend
    dsimp only
    split
    · refine ⟨rfl, rfl, id, by simp, fun _ => rfl, ?_⟩
      simp [encode, encRunActive]
    · rename_i hf
      simp only [encRunMax, Bool.or_eq_true, decide_eq_true_eq, not_or] at hf
      refine ⟨rfl, rfl, id, by dsimp only; omega, fun hl => absurd hl hf.2, ?_⟩
      have := Bool.toNat_le (encRunActive { e with runacc := e.runacc + 1 })
      simp only [List.length_nil]
      split <;> omega
  · have hfl := runFlush_runacc e
    have hln := runFlush_length e
    have hpr := predict_length e.cache e.cur px
    refine ⟨?_, rfl, ?_, ?_, ?_, ?_⟩
    · rw [hfl]; rfl
    · intro hc
      rw [hfl]
      simp only [Encoder.absorb]
      split
      · exact hc
      · exact cacheHonest_insert hc _
    · rw [hfl]; simp [Encoder.absorb]
    · intro _; rw [hfl]; rfl
    · rw [hfl]
      simp only [List.length_append, hln, Encoder.absorb, encRunActive]
      simp only [encRunActive] at hln
      simpa using hpr

end Sys2Proof.Laws
end

