-- ==== Sys2Proof/Laws/Memory.lean ====
section
/-! SUPPORT. Reads after writes, and that every memory operation keeps the canonical form. -/

namespace Sys2Proof.Laws

open Sys2Proof.Machine Sys2Proof.Safety

@[simp] theorem byteAt_nil (x : Nat) : Memory.byteAt [] x = unlisted := rfl

theorem sortedFrom_mono {lo lo' : Nat} (h : lo' ≤ lo) :
    ∀ {m : Memory}, Memory.sortedFrom lo m = true → Memory.sortedFrom lo' m = true
  | [], _ => rfl
  | (a, b) :: m, hm => by
    simp only [Memory.sortedFrom, Bool.and_eq_true, decide_eq_true_eq] at hm ⊢
    exact ⟨⟨by omega, hm.1.2⟩, hm.2⟩

/-- Nothing below the bound is listed. -/
theorem byteAt_below {lo x : Nat} (hx : x < lo) :
    ∀ {m : Memory}, Memory.sortedFrom lo m = true → Memory.byteAt m x = unlisted
  | [], _ => rfl
  | (a, b) :: m, hm => by
    simp only [Memory.sortedFrom, Bool.and_eq_true, decide_eq_true_eq] at hm
    have hne : x ≠ a := by omega
    have := byteAt_below (show x < a + 1 by omega) hm.2
    simp [Memory.byteAt, hne, this]

theorem byteAt_store_other {x y : Nat} (h : y ≠ x) (v : Byte) :
    ∀ m : Memory, Memory.byteAt (Memory.store m x v) y = Memory.byteAt m y
  | [] => by
    by_cases hv : v = unlisted <;> simp [Memory.store, Memory.byteAt, hv, h]
  | (a, b) :: m => by
    unfold Memory.store
    split
    · split <;> simp [Memory.byteAt, h]
    · split
      · subst_vars; split <;> simp [Memory.byteAt, h]
      · simp [Memory.byteAt, byteAt_store_other h v m]

theorem byteAt_store_same_from {lo x : Nat} (v : Byte) :
    ∀ {m : Memory}, Memory.sortedFrom lo m = true → Memory.byteAt (Memory.store m x v) x = v
  | [], _ => by
    by_cases hv : v = unlisted <;> simp [Memory.store, Memory.byteAt, hv]
  | (a, b) :: m, hm => by
    simp only [Memory.sortedFrom, Bool.and_eq_true, decide_eq_true_eq] at hm
    unfold Memory.store
    split
    · split
      · rename_i hlt hv
        subst hv
        exact byteAt_below (lo := a) hlt (by simp [Memory.sortedFrom, hm.1.2, hm.2])
      · simp [Memory.byteAt]
    · split
      · subst_vars
        split
        · subst_vars; exact byteAt_below (Nat.lt_succ_self _) hm.2
        · simp [Memory.byteAt]
      · rename_i h2
        simp [Memory.byteAt, h2, byteAt_store_same_from v hm.2]

theorem byteAt_store_same {m : Memory} (hm : Memory.wf m = true) (x : Nat) (v : Byte) :
    Memory.byteAt (Memory.store m x v) x = v := byteAt_store_same_from v hm

theorem store_sortedFrom {lo x : Nat} (hx : lo ≤ x) (v : Byte) :
    ∀ {m : Memory}, Memory.sortedFrom lo m = true → Memory.sortedFrom lo (Memory.store m x v) = true
  | [], _ => by
    by_cases hv : v = unlisted <;> simp [Memory.store, Memory.sortedFrom, hv, hx]
  | (a, b) :: m, hm => by
    simp only [Memory.sortedFrom, Bool.and_eq_true, decide_eq_true_eq] at hm
    unfold Memory.store
    split
    · split
      · simp [Memory.sortedFrom, hm]
      · rename_i hlt hv
        simp [Memory.sortedFrom, hm.1.2, hm.2, hx, hv]; omega
    · split
      · subst_vars
        split
        · exact sortedFrom_mono (by omega) hm.2
        · rename_i hv; simp [Memory.sortedFrom, hv, hm.2, hm.1.1]
      · have := store_sortedFrom (show a + 1 ≤ x by omega) v hm.2
        simp [Memory.sortedFrom, hm.1, this]

/-- A one-byte write keeps the canonical form. -/
theorem store_wf {m : Memory} (hm : Memory.wf m = true) (x : Nat) (v : Byte) :
    Memory.wf (Memory.store m x v) = true := store_sortedFrom (Nat.zero_le _) v hm

/-- A string of writes keeps the canonical form. -/
theorem storeAll_wf : ∀ {m : Memory}, Memory.wf m = true → ∀ (x : Nat) (vs : List Byte),
    Memory.wf (Memory.storeAll m x vs) = true
  | _, hm, _, [] => hm
  | _, hm, x, v :: vs => storeAll_wf (store_wf hm x v) (x + 1) vs

theorem byteAt_storeAll_other : ∀ (m : Memory) (x : Nat) (vs : List Byte) (y : Nat),
    y < x ∨ x + vs.length ≤ y → Memory.byteAt (Memory.storeAll m x vs) y = Memory.byteAt m y
  | _, _, [], _, _ => rfl
  | m, x, v :: vs, y, h => by
    simp only [List.length_cons] at h
    rw [Memory.storeAll, byteAt_storeAll_other _ _ vs y (by omega), byteAt_store_other (by omega)]

theorem byteAt_storeAll_same : ∀ {m : Memory}, Memory.wf m = true → ∀ (x : Nat) (vs : List Byte)
    (j : Nat) (h : j < vs.length), Memory.byteAt (Memory.storeAll m x vs) (x + j) = vs[j]
  | _, _, _, [], _, h => absurd h (by simp)
  | m, hm, x, v :: vs, 0, _ => by
    rw [Memory.storeAll, byteAt_storeAll_other _ _ _ _ (by omega)]
    exact byteAt_store_same hm x v
  | m, hm, x, v :: vs, j + 1, h => by
    have := byteAt_storeAll_same (store_wf hm x v) (x + 1) vs j (by simpa using h)
    rw [Memory.storeAll, show x + (j + 1) = x + 1 + j by omega, this]
    rfl

/-- Everything a string of writes does to memory. -/
theorem storeAll_storesExactly {m : Memory} (hm : Memory.wf m = true) (x : Nat) (vs : List Byte) :
    StoresExactly m (Memory.storeAll m x vs) x vs :=
  ⟨byteAt_storeAll_same hm x vs, byteAt_storeAll_other m x vs⟩

theorem storeAll_append : ∀ (m : Memory) (x : Nat) (us vs : List Byte),
    Memory.storeAll m x (us ++ vs) = Memory.storeAll (Memory.storeAll m x us) (x + us.length) vs
  | _, _, [], _ => rfl
  | m, x, u :: us, vs => by
    rw [List.cons_append, Memory.storeAll, storeAll_append, Memory.storeAll, List.length_cons,
      show x + 1 + us.length = x + (us.length + 1) by omega]

end Sys2Proof.Laws
end

