-- ==== Sys2Proof/Laws/Operands.lean ====
section
/-! SUPPORT. What the channel arithmetic and the byte layouts give, as numbers (R12, R47, R65,
    R122). -/

namespace Sys2Proof.Laws

open Sys2Proof.Machine Sys2Proof.Safety

/-- `add8` is addition mod 256 (R12). -/
theorem add8_toNat (x : Byte) (d : Int) : ((add8 x d).toNat : Int) = (x.toNat + d) % 256 :=
  byteOf_toNat_emod _

/-- The wrapped delta lies in −128..+127 and leads from the old value to the new one (R122). -/
theorem delta8_spec (new old : Byte) : -128 ≤ delta8 new old ∧ delta8 new old ≤ 127 ∧
    ((old.toNat : Int) + delta8 new old) % 256 = new.toNat := by
  have h1 := new.isLt
  have h2 := old.isLt
  have := byteOf_toNat_emod ((new.toNat : Int) - old.toNat)
  unfold delta8 s8
  split <;> omega

/-- The legal channel counts as numbers. -/
theorem channelsOk_iff (b : Byte) : channelsOk b = true ↔ b.toNat = 3 ∨ b.toNat = 4 := by
  simp only [channelsOk, Bool.or_eq_true, decide_eq_true_eq, byte_eq_iff]; rfl

/-- A pixel is written as OUT_CH bytes (R114). -/
theorem outBytes_length {srcCh outCh : Byte} (h : channelsOk outCh = true) (p : Pixel) :
    (outBytes srcCh outCh p).length = outCh.toNat := by
  simp only [channelsOk, Bool.or_eq_true, decide_eq_true_eq] at h
  rcases h with h | h <;> subst h
  · rfl
  · unfold outBytes; rw [if_neg (by decide)]; split <;> rfl

/-- A big-endian number from its bytes (R47). -/
theorem be32_toNat (a b c d : Byte) : (be32 a b c d).toNat =
    a.toNat * 16777216 + b.toNat * 65536 + c.toNat * 256 + d.toNat := by
  have h1 := a.isLt
  have h2 := b.isLt
  have h3 := c.isLt
  have h4 := d.isLt
  simp only [be32, BitVec.toNat_append]
  rw [← Nat.shiftLeft_add_eq_or_of_lt (by omega), ← Nat.shiftLeft_add_eq_or_of_lt (by omega),
    ← Nat.shiftLeft_add_eq_or_of_lt (by omega)]
  simp only [Nat.shiftLeft_eq]
  omega

/-- The bytes of a big-endian number (R47). -/
theorem be32Bytes_eq (v : BitVec 32) : be32Bytes v =
    [BitVec.ofNat 8 (v.toNat / 16777216), BitVec.ofNat 8 (v.toNat / 65536),
      BitVec.ofNat 8 (v.toNat / 256), BitVec.ofNat 8 v.toNat] := by
  have := v.isLt
  simp only [be32Bytes, List.cons.injEq, and_true, BitVec.toNat_eq, BitVec.extractLsb'_toNat,
    BitVec.toNat_ofNat, Nat.shiftRight_eq_div_pow]
  refine ⟨?_, ?_, ?_, ?_⟩ <;> simp

end Sys2Proof.Laws
end

