-- ==== Sys2Proof/Laws/Invariant.lean ====
section
/-! SUPPORT. What each move needs of the invariant and what it leaves of it. -/

namespace Sys2Proof.Laws

open Sys2Proof.Machine Sys2Proof.Safety

/-- The invariant speaks of the engines, memory and the unseen writes only. -/
theorem inv_congr {cfg : Config} {s t : State} (h : Inv cfg s) (hd : t.dec = s.dec)
    (he : t.enc = s.enc) (hm : t.mem = s.mem) (hu : t.unseen = s.unseen) : Inv cfg t := by
  obtain ⟨td, te, tm, tu, th, tt⟩ := t
  obtain ⟨sd, se, sm, su, sh, st⟩ := s
  dsimp only at hd he hm hu
  subst hd he hm hu
  exact ⟨h.memWf, h.unseenOnce, h.decWidths, h.encWidths, h.decStatus, h.encStatus,
    h.decCache, h.encCache, h.decRun, h.encRun, h.decode, h.encode, h.enginesApart⟩

/-- The invariant after a change of DEC and memory, from what it asks of the new DEC. -/
theorem inv_setDec {cfg : Config} {s : State} (h : Inv cfg s) {m : Memory}
    {l : List Unseen} {d : Decoder} (hm : Memory.wf m = true) (hl : (l.map Unseen.addr).Nodup)
    (hw : DecWidthsFit cfg d)
    (hs : StatusLegal d.status) (hc : CacheHonest d.cache) (hr : d.runcnt.toNat ≤ 61)
    (hu : d.status.busy = true → DecodeUnderWay cfg d ∧ meetsRunningEnc s (frameRegion d) = false ∧
      meetsRunningEnc s (dstRegion d) = false) :
    Inv cfg { s with mem := m, unseen := l, dec := d } :=
  ⟨hm, hl, hw, h.encWidths, hs, h.encStatus, hc, h.encCache, hr, h.encRun,
    fun hb => (hu hb).1, h.encode, fun hb => (hu hb).2⟩

/-- The invariant after a change of ENC and memory, from what it asks of the new ENC. -/
theorem inv_setEnc {cfg : Config} {s : State} (h : Inv cfg s) {m : Memory}
    {l : List Unseen} {e : Encoder} (hm : Memory.wf m = true) (hl : (l.map Unseen.addr).Nodup)
    (hw : EncWidthsFit cfg e)
    (hs : StatusLegal e.status) (hc : CacheHonest e.cache) (hr : e.runacc.toNat ≤ 60)
    (hu : e.status.busy = true → EncodeUnderWay cfg e)
    (ha : s.dec.status.busy = true →
      meetsRunningEnc { s with enc := e } (frameRegion s.dec) = false ∧
      meetsRunningEnc { s with enc := e } (dstRegion s.dec) = false) :
    Inv cfg { s with mem := m, unseen := l, enc := e } :=
  ⟨hm, hl, h.decWidths, hw, h.decStatus, hs, h.decCache, hc, h.decRun, hr,
    h.decode, hu, ha⟩

/-! ## DEC -/

/-- An opcode keeps the cache honest (R96). -/
theorem opEffect_honest {i : Instr} {d : Decoder} (h : CacheHonest d.cache) :
    CacheHonest (opEffect i d).cache := by
  cases i <;> first | exact cacheHonest_insert h _ | exact h

/-- An opcode leaves RUNCNT at most 61 (R23). -/
theorem opEffect_run {i : Instr} {d : Decoder} (hw : i.wf = true) (h : d.runcnt.toNat ≤ 61) :
    (opEffect i d).runcnt.toNat ≤ 61 := by
  cases i with
  | run n =>
    simp only [Instr.wf, runFieldOk, decide_eq_true_eq] at hw
    simp [opEffect]; omega
  | _ => exact h

/-- What every case of R107 leaves of DEC before its pixel is written. -/
structure PathKeeps (d d' : Decoder) : Prop where
  frame : d' = { d with cur := d'.cur, cache := d'.cache, runcnt := d'.runcnt, sp := d'.sp }
  honest : CacheHonest d'.cache
  run : d'.runcnt.toNat ≤ 61
  spUp : d.sp ≤ d'.sp
  spHigh : d'.sp ≤ d.limit + 4

/-- All that a pixel step does to DEC before it writes the pixel. -/
theorem path_keeps {cfg : Config} {s : State} {f : Decoder → Decoder} (hp : DecPath cfg s f)
    (hc : CacheHonest s.dec.cache) (hr : s.dec.runcnt.toNat ≤ 61)
        (hsp : s.dec.sp ≤ s.dec.limit + 4) :
    PathKeeps s.dec (f s.dec) := by
  cases hp with
  | activeRun h =>
    have : s.dec.runcnt.toNat ≠ 0 := fun h' => h (BitVec.eq_of_toNat_eq h')
    refine ⟨rfl, hc, ?_, Nat.le_refl _, hsp⟩
    simp only [countDown_runcnt]
    bv_omega
  | opcode i h hlt hf =>
    have hfs := fetchOp_some hf
    have hl := opLength_bounds (Memory.byteAt s.mem (fetchAddr s))
    refine ⟨opEffect_frame i _, opEffect_honest hc, opEffect_run hfs.1 hr, ?_, ?_⟩ <;>
      rw [opEffect_sp] <;> omega
  | exhausted h hle => exact ⟨rfl, hc, hr, Nat.le_refl _, hsp⟩

/-- The pixel at hand has room in DST (R139, check 8). -/
theorem pixel_room {n pix c cap : Nat} (hpix : pix < n) (h : n * c ≤ cap) : pix * c + c ≤ cap := by
  calc pix * c + c = (pix + 1) * c := by ring
    _ ≤ n * c := Nat.mul_le_mul_right c hpix
    _ ≤ cap := h

/-- Under the invariant the opcode at SP can be fetched (R109). -/
theorem fetchOp_of_inv {cfg : Config} {s : State} (h : DecodeUnderWay cfg s.dec)
    (hsp : s.dec.sp < s.dec.limit) : ∃ i, fetchOp cfg s = some i := by
  have hl := opLength_bounds (Memory.byteAt s.mem (fetchAddr s))
  have hf := h.frame
  have hfb := h.fb
  have hlim := h.limit
  simp only [regionOk, frameRegion, spanOk_iff, trailerBytes] at hf hlim
  have : spanOk cfg (fetchAddr s) (opLength (Memory.byteAt s.mem (fetchAddr s))) = true := by
    rw [spanOk_iff]; unfold fetchAddr at *; omega
  exact ⟨_, if_pos this⟩

/-- Under the invariant one of the cases of R107 applies. -/
theorem path_exists {cfg : Config} {s : State} (h : DecodeUnderWay cfg s.dec) :
    ∃ f, DecPath cfg s f := by
  by_cases hr : s.dec.runcnt = 0
  · by_cases hsp : s.dec.sp < s.dec.limit
    · obtain ⟨i, hi⟩ := fetchOp_of_inv h hsp
      exact ⟨_, .opcode i hr hsp hi⟩
    · exact ⟨_, .exhausted hr (Nat.not_lt.mp hsp)⟩
  · exact ⟨_, .activeRun hr⟩

/-- Under the invariant a pixel step of DEC answers a next state. -/
theorem decodePixel_of_inv {cfg : Config} {s : State} (h : Inv cfg s)
    (hb : s.dec.status.busy = true) :
    ∃ f, DecPath cfg s f ∧ decodePixel cfg s = .next (emitted (s.mapDec f)) := by
  have hu := h.decode hb
  obtain ⟨f, hp⟩ := path_exists hu
  refine ⟨f, hp, ?_⟩
  rw [decodePixel_of_path hp]
  apply emitPixel_of_room
  have hk := (path_keeps hp h.decCache h.decRun hu.spHigh).frame
  have e1 : (f s.dec).srcCh = s.dec.srcCh := by rw [hk]
  have e2 : (f s.dec).outCh = s.dec.outCh := by rw [hk]
  have e3 : pixelAddr (f s.dec) = pixelAddr s.dec := by rw [hk]; rfl
  have hd := hu.dst
  simp only [regionOk, dstRegion, spanOk_iff] at hd
  have := pixel_room hu.remain hu.room
  have := hu.db
  rw [mapDec_dec, e1, e2, e3, outBytes_length hu.outChOk, spanOk_iff, pixelAddr]
  omega

/-- A pixel step of DEC keeps the invariant. -/
theorem inv_emitted {cfg : Config} {s : State} {f : Decoder → Decoder} (h : Inv cfg s)
    (hb : s.dec.status.busy = true) (hp : DecPath cfg s f) : Inv cfg (emitted (s.mapDec f)) := by
  have hu := h.decode hb
  have hk := path_keeps hp h.decCache h.decRun hu.spHigh
  have hw := h.decWidths
  have hlim := hu.limit
  simp only [trailerBytes] at hlim
  have hspf : fits cfg (f s.dec).sp = true :=
    fits_of_le (by have := hk.spHigh; omega) hw.frameLen
  have hrem := hu.remain
  have hlow := hu.spLow
  have hpixf : fits cfg (s.dec.pix + 1) = true := fits_of_le hrem hw.n
  have hea := h.enginesApart hb
  unfold emitted State.engineStore
  simp only [mapDec_dec, mapDec_mem, mapDec_unseen]
  refine inv_setDec (s := s) h (storeAll_wf h.memWf _ _) (recordUnseen_nodup h.unseenOnce)
      ?_ ?_ ?_ ?_ ?_ <;>
    by_cases hl : s.dec.pix + 1 = s.dec.n
  all_goals
    obtain ⟨hfr, hc, hr, hup, hhi⟩ := hk
    generalize f s.dec = d' at *
    have e1 : d'.pix = s.dec.pix := by rw [hfr]
    have e2 : d'.n = s.dec.n := by rw [hfr]
    first
      | rw [pixelDone_last (by rw [e1, e2, hl])]
      | rw [pixelDone_more (by rw [e1, e2]; exact hl)]
    rw [hfr]
  · exact ⟨hw.frameBase, hw.frameLen, hw.dstBase, hw.dstCap, fits_of_le hu.room hw.dstCap, hspf,
        hpixf,
        hw.n, hw.limit, hw.fb, hw.db⟩
  · exact ⟨hw.frameBase, hw.frameLen, hw.dstBase, hw.dstCap, hw.outLen, hspf, hpixf,
        hw.n, hw.limit, hw.fb, hw.db⟩
  · simp [StatusLegal, statusEnded]
  · exact h.decStatus
  · exact hc
  · exact hc
  · exact hr
  · exact hr
  · intro hb'; simp [statusEnded] at hb'
  · intro _
    exact ⟨⟨hu.command, hu.code, hu.outLen, hu.fb, hu.db, hu.limit, hu.frameLen, hu.frame, hu.dst,
        hu.apart, hu.n, hu.srcCh, hu.srcChOk, hu.outCh, hu.outChOk, hu.room,
        by dsimp only; omega, by dsimp only; omega, hhi⟩, hea⟩

/-! ## ENC -/

/-- A region that meets nothing of ENC's command still does not after a step that keeps its regions. -/
theorem meetsRunningEnc_congr {s t : State} (r : Region) (h : t.enc.status.busy = true →
    s.enc.status.busy = true)
    (h1 : srcRegion t.enc = srcRegion s.enc) (h2 : outRegion t.enc = outRegion s.enc)
    (hf : meetsRunningEnc s r = false) : meetsRunningEnc t r = false := by
  unfold meetsRunningEnc at *
  rw [h1, h2]
  cases hb : t.enc.status.busy
  · rfl
  · rw [h hb] at hf; exact hf

/-- A non-run pixel costs at most CH + 1 bytes (R132). -/
theorem opcode_bytes_le {e : Encoder} {px : Pixel} (hch : channelsOk e.ch = true)
    (ho : e.ch = 3 → e.cur.a = 0xFF) (hp : e.ch = 3 → px.a = 0xFF) :
    (if px.a = e.cur.a then 4 else 5) ≤ e.ch.toNat + 1 := by
  simp only [channelsOk, Bool.or_eq_true, decide_eq_true_eq] at hch
  rcases hch with h | h
  · rw [if_pos (by rw [ho h, hp h]), h]; decide
  · rw [h]; split <;> decide

/-- The output count after a pixel stays within the bound (R132). -/
theorem op_bound {cfg : Config} {s : State} (h : Inv cfg s) (hb : s.enc.status.busy = true)
    (h0 : s.enc.op ≠ 0) :
    14 ≤ s.enc.op ∧
    s.enc.op + (encOut s).1.length + (encRunActive (encOut s).2).toNat
      ≤ 14 + (s.enc.pix + 1) * (s.enc.ch.toNat + 1) ∧
    14 + (s.enc.pix + 1) * (s.enc.ch.toNat + 1) + 8 ≤ s.enc.outCap := by
  have hu := h.encode hb
  have hk := encodeOne_taken (readPixel s.mem s.enc) (encLast s) h.encRun
  have hsz := hk.size
  have hcb := opcode_bytes_le hu.chOk hu.opaque_ (fun h => readPixel_alpha (m := s.mem) h)
  have haf := hu.afterHeader h0
  have hroom := hu.room
  have hn := hu.n
  have hch := hu.ch
  simp only [headerBytes] at haf
  simp only [frameBound, minFrame, ← hn, ← hch] at hroom
  have e1 : (s.enc.pix + 1) * (s.enc.ch.toNat + 1) = s.enc.pix * (s.enc.ch.toNat + 1) +
      (s.enc.ch.toNat + 1) := by
    ring
  have e2 : (s.enc.pix + 1) * (s.enc.ch.toNat + 1) ≤ s.enc.n * (s.enc.ch.toNat + 1) :=
    Nat.mul_le_mul_right _ hu.remain
  unfold encOut
  omega

/-- The header step keeps the invariant. -/
theorem inv_header {cfg : Config} {s : State} (h : Inv cfg s) (hb : s.enc.status.busy = true)
    (h0 : s.enc.op = 0) : Inv cfg (putDone (headerOut cfg s.enc) s) := by
  have hu := h.encode hb
  have hw := h.encWidths
  have hat := hu.atHeader h0
  have hlen := headerOut_length cfg s.enc
  have hroom := hu.room
  simp only [frameBound, minFrame] at hroom
  have hop : fits cfg 14 = true := fits_of_le (w := s.enc.outCap) (by omega) hw.outCap
  unfold putDone
  rw [h0, hlen]
  refine inv_setEnc h (storeAll_wf h.memWf _ _) (recordUnseen_nodup h.unseenOnce)
      ?_ h.encStatus h.encCache h.encRun ?_ ?_
  · exact ⟨hw.srcBase, hw.stride, hw.outBase, hw.outCap, hw.outLen, hw.pix, hop, hw.n, hw.sb, hw.ob⟩
  · intro _
    refine ⟨hu.command, hu.code, hu.outLen, hu.sb, hu.ob, hu.ch, hu.chOk, hu.n, hu.src, hu.out,
      hu.apart, hu.room, hu.remain, hu.opaque_, fun h => by simp at h, fun _ => ?_⟩
    simp [hat.1, encRunActive, hat.2.1]
  · intro hd
    exact ⟨meetsRunningEnc_congr _ (fun h => h) rfl rfl (h.enginesApart hd).1,
      meetsRunningEnc_congr _ (fun h => h) rfl rfl (h.enginesApart hd).2⟩

/-- A pixel step of ENC keeps the invariant. -/
theorem inv_encPixel {cfg : Config} {s : State} (h : Inv cfg s) (hb : s.enc.status.busy = true)
    (h0 : s.enc.op ≠ 0) : Inv cfg (encPixelDone cfg s) := by
  have hu := h.encode hb
  have hw := h.encWidths
  have hk : PixelTaken s.enc (readPixel s.mem s.enc) (encLast s) (encOut s).1 (encOut s).2 :=
    encodeOne_taken (readPixel s.mem s.enc) (encLast s) h.encRun
  obtain ⟨hb1, hb2, hb3⟩ := op_bound h hb h0
  have hpa := fun h => readPixel_alpha (m := s.mem) (e := s.enc) h
  have hrem := hu.remain
  have hpixf : fits cfg (s.enc.pix + 1) = true := fits_of_le hrem hw.n
  obtain ⟨hfr, hcur, hhon, hrun, hlr, _⟩ := hk
  have htr : cfg.trailer.toList.length = 8 := by simp
  unfold encPixelDone encTaken
  generalize encOut s = r at *
  obtain ⟨out, e'⟩ := r
  dsimp only at *
  have hapart : ∀ e'' : Encoder, (e''.status.busy = true → s.enc.status.busy = true) →
      srcRegion e'' = srcRegion s.enc → outRegion e'' = outRegion s.enc → s.dec.status.busy = true →
      meetsRunningEnc { s with enc := e'' } (frameRegion s.dec) = false ∧
      meetsRunningEnc { s with enc := e'' } (dstRegion s.dec) = false := fun e'' h1 h2 h3 hd =>
    ⟨meetsRunningEnc_congr (t := { s with enc := e'' }) _ h1 h2 h3 (h.enginesApart hd).1,
      meetsRunningEnc_congr (t := { s with enc := e'' }) _ h1 h2 h3 (h.enginesApart hd).2⟩
  split
  · rename_i hl
    have hopf : fits cfg (s.enc.op + (out ++ cfg.trailer.toList).length) = true := by
      refine fits_of_le (w := s.enc.outCap) ?_ hw.outCap
      rw [List.length_append, htr]; omega
    rw [hfr]
    refine inv_setEnc (s := s) h (storeAll_wf h.memWf _ _) (recordUnseen_nodup h.unseenOnce) ?_ ?_
        (hhon h.encCache) hrun ?_ ?_
    · exact ⟨hw.srcBase, hw.stride, hw.outBase, hw.outCap, hopf, hpixf, hopf, hw.n, hw.sb, hw.ob⟩
    · simp [StatusLegal, encodeFinish, Encoder.finish, statusEnded]
    · intro hb'; simp [encodeFinish, Encoder.finish, statusEnded] at hb'
    · exact hapart _ (fun hb' => by simp [encodeFinish, Encoder.finish, statusEnded] at hb') rfl rfl
  · rename_i hl
    have hl' : s.enc.pix + 1 ≠ s.enc.n := fun h => hl ((encLast_iff s).mpr h)
    have hopf : fits cfg (s.enc.op + out.length) = true :=
      fits_of_le (w := s.enc.outCap) (by omega) hw.outCap
    have hra : (encRunActive e') = encRunActive { s.enc with
        cur := e'.cur, cache := e'.cache, runacc := e'.runacc } := by
      rw [← hfr]
    rw [hfr]
    refine inv_setEnc (s := s) h (storeAll_wf h.memWf _ _) (recordUnseen_nodup h.unseenOnce) ?_ h.encStatus
        (hhon h.encCache) hrun ?_ ?_
    · exact ⟨hw.srcBase, hw.stride, hw.outBase, hw.outCap, hw.outLen, hpixf, hopf, hw.n, hw.sb,
          hw.ob⟩
    · intro _
      refine ⟨hu.command, hu.code, hu.outLen, hu.sb, hu.ob, hu.ch, hu.chOk, hu.n, hu.src, hu.out,
        hu.apart, hu.room, by dsimp only [State.mapEnc]; omega, fun h3 => by
          dsimp only [State.mapEnc]; rw [hcur]; exact hpa h3, fun h => ?_, fun _ => ⟨?_, ?_⟩⟩
      · dsimp only [State.mapEnc] at h; omega
      · dsimp only [State.mapEnc, headerBytes]; omega
      · dsimp only [State.mapEnc, headerBytes]
        rw [hra] at hb2
        exact hb2
    · exact hapart _ (fun h => h) rfl rfl

/-- Under the invariant a step of ENC answers a next state. -/
theorem encodeStep_of_inv {cfg : Config} {s : State} (h : Inv cfg s)
    (hb : s.enc.status.busy = true) :
    encodeStep cfg s = .next (if s.enc.op = 0 then putDone (headerOut cfg s.enc) s
      else encPixelDone cfg s) := by
  have hu := h.encode hb
  have hout := hu.out
  have hsrc := hu.src
  have hroom := hu.room
  simp only [frameBound, minFrame] at hroom
  simp only [regionOk, outRegion, srcRegion, spanOk_iff] at hout hsrc
  rw [← hu.ob] at hout
  rw [← hu.sb, ← hu.n, ← hu.ch] at hsrc
  unfold encodeStep
  split
  · rename_i h0
    apply putBytes_of_room
    rw [spanOk_iff, headerOut_length]; omega
  · rename_i h0
    obtain ⟨hb1, hb2, hb3⟩ := op_bound h hb h0
    have hfr := (encodeOne_taken (readPixel s.mem s.enc) (encLast s) h.encRun).frame
    change (encOut s).2 = _ at hfr
    have e1 : (encTaken s).enc.ob = s.enc.ob := by
      change (encOut s).2.ob = _; rw [hfr]
    have e2 : (encTaken s).enc.op = s.enc.op := by
      change (encOut s).2.op = _; rw [hfr]
    apply encodePixel_of_room
    · have := pixel_room hu.remain (Nat.le_refl (s.enc.n * s.enc.ch.toNat))
      have hc := hu.chOk
      simp only [channelsOk, Bool.or_eq_true, decide_eq_true_eq] at hc
      have : pixelBytes s.enc.ch = s.enc.ch.toNat := by
        rcases hc with h | h <;> rw [h] <;> rfl
      rw [spanOk_iff, this, sourceAddr]; omega
    · rw [e1, e2, spanOk_iff]
      simp only [trailerBytes]
      split <;> omega

/-- All that a pixel step of ENC does (R120, R131). -/
theorem encPixelDone_spec {cfg : Config} {s : State} (h : Inv cfg s)
    (hb : s.enc.status.busy = true) :
    let t := encPixelDone cfg s
    let tr := if encLast s then cfg.trailer.toList else []
    StoresExactly s.mem t.mem (s.enc.outBase + s.enc.op) ((encOut s).1 ++ tr) ∧
    t.enc.op = s.enc.op +
        (encOut s).1.length + tr.length ∧ t.enc.cur = readPixel s.mem s.enc ∧ t.enc.cache =
        (encOut s).2.cache ∧
    t.enc.runacc = (encOut s).2.runacc ∧ t.enc.pix = s.enc.pix + 1 ∧ t.dec = s.dec ∧
    t.host = s.host ∧ t.turns = s.turns ∧
    t.enc.n = s.enc.n ∧ t.enc.ch = s.enc.ch ∧ t.enc.outBase = s.enc.outBase ∧
    (encLast s = true → t.enc.status = ⟨.ok, false, true⟩ ∧ t.enc.outLen = t.enc.op) ∧
    (encLast s = false → t.enc.status = s.enc.status ∧ t.enc.outLen = s.enc.outLen) := by
  have hk : PixelTaken s.enc (readPixel s.mem s.enc) (encLast s) (encOut s).1 (encOut s).2 :=
    encodeOne_taken (readPixel s.mem s.enc) (encLast s) h.encRun
  have hfr := hk.frame
  have hcur := hk.cur
  have hu := h.encode hb
  have hm := h.memWf
  have hob := hu.ob
  dsimp only
  unfold encPixelDone encTaken
  generalize readPixel s.mem s.enc = px at *
  generalize encOut s = r at *
  obtain ⟨out, e'⟩ := r
  dsimp only at *
  have e1 : e'.ob = s.enc.ob := by rw [hfr]
  have e2 : e'.op = s.enc.op := by rw [hfr]
  have e3 : e'.n = s.enc.n := by rw [hfr]
  have e4 : e'.ch = s.enc.ch := by rw [hfr]
  have e5 : e'.outBase = s.enc.outBase := by rw [hfr]
  have e6 : e'.status = s.enc.status := by rw [hfr]
  have e7 : e'.outLen = s.enc.outLen := by rw [hfr]
  cases hl : encLast s
  · simp only [Bool.false_eq_true, if_false, putDone, mapEnc_enc, e1, e2,
        List.append_nil]
    refine ⟨by rw [← hob]; exact storeAll_storesExactly hm _ _, rfl, hcur, trivial, trivial,
        trivial, rfl, rfl, rfl, e3, e4, e5, fun h => by simp at h, fun _ => ⟨e6, e7⟩⟩
  · simp only [if_true, putDone, mapEnc_enc, mapEnc_mem, e1, e2]
    refine ⟨by rw [← hob]; exact storeAll_storesExactly hm _ _, ?_, hcur, rfl, rfl, rfl, rfl, rfl,
      rfl, e3, e4, e5, fun _ => ⟨rfl, rfl⟩, fun h => by simp at h⟩
    simp [encodeFinish, Encoder.finish, Nat.add_assoc]

/-! ## The host -/

/-- A command that ended is not busy. -/
theorem statusEnded_legal (c : Code) : StatusLegal (statusEnded c) := by simp [StatusLegal,
    statusEnded]

/-- A command that started is not done. -/
theorem statusStarted_legal : StatusLegal statusStarted := by simp [StatusLegal, statusStarted]

/-- Whatever ends DEC's command, the invariant asks only what is left in its fields. -/
theorem inv_decIdle {cfg : Config} {s : State} (h : Inv cfg s) {d : Decoder}
    (hw : DecWidthsFit cfg d) (hs : StatusLegal d.status)
    (hi : d.status.busy = false) (hc : CacheHonest d.cache) (hr : d.runcnt.toNat ≤ 61) :
    Inv cfg (s.mapDec fun _ => d) :=
  inv_setDec h h.memWf h.unseenOnce hw hs hc hr (fun h' => by rw [hi] at h'; cases h')

/-- The invariant after ENC goes idle. -/
theorem inv_encIdle {cfg : Config} {s : State} (h : Inv cfg s) {e : Encoder}
    (hw : EncWidthsFit cfg e) (hs : StatusLegal e.status)
    (hi : e.status.busy = false) (hc : CacheHonest e.cache) (hr : e.runacc.toNat ≤ 60) :
    Inv cfg (s.mapEnc fun _ => e) :=
  inv_setEnc h h.memWf h.unseenOnce hw hs hc hr (fun h' => by rw [hi] at h'; cases h')
    (fun _ => by simp [meetsRunningEnc, hi])

/-- DECODE's start keeps the invariant. -/
theorem inv_startDecode {cfg : Config} {s t : State} (h : Inv cfg s) (c : Byte) (hc1 : c = 0x01)
    (ht : decodeCommand cfg (s.mapDec (startDec c)) = .next t) : Inv cfg t := by
  have hw := h.decWidths
  have f0 : fits cfg 0 = true := fits_small (by omega)
  rcases decodeCommand_next ht with ⟨code, -, rfl⟩ | ⟨ha, hmf, ⟨code, -, rfl⟩ | ⟨hck, hmd, rfl⟩⟩
  · refine inv_decIdle (d := (startDec c s.dec).finish code) h ?_
        (statusEnded_legal _) rfl cacheHonest_blank (by simp [startDec, Decoder.finish])
    exact ⟨hw.frameBase, hw.frameLen, hw.dstBase, hw.dstCap, f0, f0, f0, hw.n, hw.limit, hw.fb,
        hw.db⟩
  · refine inv_decIdle (d := ((startDec c s.dec).report _).finish code) h ?_
        (statusEnded_legal _) rfl cacheHonest_blank (by simp [startDec, Decoder.finish,
        Decoder.report])
    exact ⟨hw.frameBase, hw.frameLen, hw.dstBase, hw.dstCap, f0, f0, f0, hw.n, hw.limit, hw.fb,
        hw.db⟩
  · simp only [mapDec_dec, mapDec_mem] at ha hck hmf hmd ⊢
    generalize hH : readHeader s.mem (startDec c s.dec).frameBase = H at *
    simp only [firstFailing_none, decodeArgChecks, headerChecks, decodeOutChecks,
        List.mem_append, List.mem_cons, List.not_mem_nil, or_false, forall_eq,
        Bool.or_eq_false_iff, Bool.not_eq_false', decide_eq_false_iff_not, or_imp,
        forall_and] at ha hck
    obtain ⟨⟨hf1, hf2⟩, hov, hlen⟩ := ha
    obtain ⟨⟨-, hch, hw0, hh0⟩, hoc, hfit, hcap⟩ := hck
    have hwp : 0 < H.width.toNat := by
      rcases Nat.eq_zero_or_pos H.width.toNat with h0 | h0
      · exact absurd (BitVec.eq_of_toNat_eq h0) hw0
      · exact h0
    have hhp : 0 < H.height.toNat := by
      rcases Nat.eq_zero_or_pos H.height.toNat with h0 | h0
      · exact absurd (BitVec.eq_of_toNat_eq h0) hh0
      · exact h0
    have hocp : 0 < (outChannels (startDec c s.dec) H).toNat := by
      rcases (channelsOk_iff _).mp hoc with h | h <;> omega
    have hnp := Nat.mul_pos hwp hhp
    have hnfit : fits cfg (H.width.toNat * H.height.toNat) = true :=
      fits_of_le (Nat.le_mul_of_pos_right _ hocp) hfit
    refine inv_setDec (d := beginDecode
        ((startDec c s.dec).report H) H) h h.memWf h.unseenOnce
        ?_ statusStarted_legal cacheHonest_blank (by simp [beginDecode, startDec,
        Decoder.report]) ?_
    · refine ⟨hw.frameBase, hw.frameLen, hw.dstBase, hw.dstCap, f0, fits_small
          (show 14 < 4294967296 by decide), f0, hnfit, ?_, hw.frameBase, hw.dstBase⟩
      exact fits_of_le (Nat.sub_le _ _) hw.frameLen
    · intro _
      have hl : 22 ≤ s.dec.frameLen := by
        simpa [startDec, minFrame] using hlen
      refine ⟨⟨hc1, rfl, rfl, rfl, rfl, ?_, hl, hf1, hf2, hov, rfl, rfl, hch, rfl, hoc, ?_, hnp,
          Nat.le_refl _, ?_⟩, hmf, hmd⟩
      · simp [beginDecode, startDec, Decoder.report, trailerBytes]; omega
      · exact Nat.not_lt.mp hcap
      · simp [beginDecode, startDec, Decoder.report, trailerBytes, headerBytes]; omega

/-- PEEK keeps the invariant. -/
theorem inv_startPeek {cfg : Config} {s t : State} (h : Inv cfg s) (c : Byte)
    (ht : peekCommand cfg (s.mapDec (startDec c)) = .next t) : Inv cfg t := by
  have hw := h.decWidths
  have f0 : fits cfg 0 = true := fits_small (by omega)
  rcases peekCommand_next ht with ⟨code, -, rfl⟩ | ⟨-, -, rfl⟩
  · refine inv_decIdle (d := (startDec c s.dec).finish code) h ?_
        (statusEnded_legal _) rfl cacheHonest_blank (by simp [startDec, Decoder.finish])
    exact ⟨hw.frameBase, hw.frameLen, hw.dstBase, hw.dstCap, f0, f0, f0, hw.n, hw.limit, hw.fb,
        hw.db⟩
  · refine inv_decIdle (d := ((startDec c s.dec).report _).finish _) h ?_
        (statusEnded_legal _) rfl cacheHonest_blank (by simp [startDec, Decoder.finish,
        Decoder.report])
    exact ⟨hw.frameBase, hw.frameLen, hw.dstBase, hw.dstCap, f0, f0, f0, hw.n, hw.limit, hw.fb,
        hw.db⟩

/-- A host write to a field of DEC keeps the invariant. -/
theorem inv_hostWriteDec {cfg : Config} {s t : State} (h : Inv cfg s) {no v : Nat}
    (ht : hostWriteDec cfg no v s = .next t) : Inv cfg t := by
  have hw := h.decWidths
  have f0 : fits cfg 0 = true := fits_small (by omega)
  unfold hostWriteDec at ht
  split at ht
  · cases ht; exact h
  rename_i hbusy
  have hidle : s.dec.status.busy = false := by simpa using hbusy
  split at ht
  · split at ht
    · cases ht; exact h
    · unfold startDecCommand at ht
      dsimp only at ht
      split at ht
      · rename_i hc; exact inv_startDecode h _ hc ht
      · split at ht
        · exact inv_startPeek h _ ht
        · cases ht
          refine inv_decIdle (d := (startDec (toByte v) s.dec).finish _) h ?_
              (statusEnded_legal _) rfl cacheHonest_blank (by simp [startDec, Decoder.finish])
          exact ⟨hw.frameBase, hw.frameLen, hw.dstBase, hw.dstCap, f0, f0, f0, hw.n, hw.limit,
              hw.fb, hw.db⟩
  · cases ht
    have hwr := fits_wrap cfg v
    have key : ∀ d : Decoder, d.status = s.dec.status →
        d.cache = s.dec.cache → d.runcnt = s.dec.runcnt → DecWidthsFit cfg d → Inv cfg
        (s.mapDec fun _ => d) := fun d h2 h3 h4 h5 =>
      inv_decIdle h h5 (by rw [h2]; exact h.decStatus)
          (by rw [h2]; exact hidle) (by rw [h3]; exact h.decCache) (by rw [h4]; exact h.decRun)
    refine key (writeDecField cfg no v s.dec) ?_ ?_ ?_ ?_ <;> unfold writeDecField <;> split <;> first
      | rfl
      | exact hw
      | exact ⟨hwr, hw.frameLen, hw.dstBase, hw.dstCap, hw.outLen, hw.sp, hw.pix, hw.n, hw.limit,
          hw.fb, hw.db⟩
      | exact ⟨hw.frameBase, hwr, hw.dstBase, hw.dstCap, hw.outLen, hw.sp, hw.pix, hw.n,
          hw.limit, hw.fb, hw.db⟩
      | exact ⟨hw.frameBase, hw.frameLen, hwr, hw.dstCap, hw.outLen, hw.sp, hw.pix, hw.n,
          hw.limit, hw.fb, hw.db⟩
      | exact ⟨hw.frameBase, hw.frameLen, hw.dstBase, hwr, hw.outLen, hw.sp, hw.pix, hw.n,
          hw.limit, hw.fb, hw.db⟩
      | exact ⟨hw.frameBase, hw.frameLen, hw.dstBase, hw.dstCap, hw.outLen, hw.sp, hw.pix, hw.n,
          hw.limit, hw.fb, hw.db⟩

/-- ENCODE's start keeps the invariant. -/
theorem inv_startEncode {cfg : Config} {s t : State} (h : Inv cfg s) (c : Byte) (hc1 : c = 0x02)
    (ht : encodeCommand cfg (s.mapEnc (startEnc c)) = .next t) : Inv cfg t := by
  have hw := h.encWidths
  have f0 : fits cfg 0 = true := fits_small (by omega)
  rcases encodeCommand_next ht with ⟨code, -, rfl⟩ | ⟨hck, hms, hmo, rfl⟩
  · refine inv_encIdle (e := (startEnc c s.enc).finish code) h ?_
        (statusEnded_legal _) rfl cacheHonest_blank (by simp [startEnc, Encoder.finish])
    exact ⟨hw.srcBase, hw.stride, hw.outBase, hw.outCap, f0, f0, f0, hw.n, hw.sb, hw.ob⟩
  · simp only [mapEnc_enc] at hck hms hmo ⊢
    simp only [firstFailing_none, encodeChecks, List.mem_cons, List.not_mem_nil, or_false,
        forall_eq, Bool.or_eq_false_iff, Bool.not_eq_false', decide_eq_false_iff_not, or_imp,
        forall_and] at hck
    obtain ⟨hch, ⟨hw0, hh0⟩, hfit, hst, ⟨hs1, hs2⟩, hov, hcap⟩ := hck
    have hwp : 0 < (startEnc c s.enc).width.toNat := by
      rcases Nat.eq_zero_or_pos (startEnc c s.enc).width.toNat with h0 | h0
      · exact absurd (BitVec.eq_of_toNat_eq h0) hw0
      · exact h0
    have hhp : 0 < (startEnc c s.enc).height.toNat := by
      rcases Nat.eq_zero_or_pos (startEnc c s.enc).height.toNat with h0 | h0
      · exact absurd (BitVec.eq_of_toNat_eq h0) hh0
      · exact h0
    have hnp := Nat.mul_pos hwp hhp
    have hnfit : fits cfg ((startEnc c s.enc).width.toNat *
        (startEnc c s.enc).height.toNat) = true := by
      refine fits_of_le ?_ hfit
      unfold frameBound
      have := Nat.le_mul_of_pos_right ((startEnc c s.enc).width.toNat *
          (startEnc c s.enc).height.toNat) (Nat.succ_pos
          (startEnc c s.enc).channels.toNat)
      exact Nat.le_trans this (Nat.le_add_left _ _)
    refine inv_setEnc (e := beginEncode (startEnc c s.enc)) h h.memWf h.unseenOnce
        ?_ statusStarted_legal cacheHonest_blank (by simp [beginEncode, startEnc]) ?_ ?_
    · exact ⟨hw.srcBase, hw.stride, hw.outBase, hw.outCap, f0, f0, f0, hnfit, hw.srcBase,
          hw.outBase⟩
    · intro _
      refine ⟨hc1, rfl, rfl, rfl, rfl, rfl, hch, rfl, hs1, hs2, hov, Nat.not_lt.mp hcap, hnp,
          fun _ => rfl, fun _ => ⟨rfl, rfl, rfl, rfl⟩, fun h => absurd rfl h⟩
    · intro hd
      simp only [meetsRunningDec, mapEnc_dec, hd, Bool.true_and, Bool.or_eq_false_iff] at hms hmo
      have sym : ∀ a b : Region, regionsOverlap a b = false → regionsOverlap b a = false := by
        intro a b hab
        rw [← Bool.not_eq_true, regionsOverlap_iff] at *
        rintro ⟨x, h1, h2⟩; exact hab ⟨x, h2, h1⟩
      have e1 : meetsRunningEnc { s with enc := beginEncode (startEnc c s.enc) }
          (frameRegion s.dec) = false := by
        simp only [meetsRunningEnc, Bool.and_eq_false_iff, Bool.or_eq_false_iff]
        exact .inr ⟨sym _ _ hms.1, sym _ _ hmo.1⟩
      have e2 : meetsRunningEnc { s with enc := beginEncode (startEnc c s.enc) }
          (dstRegion s.dec) = false := by
        simp only [meetsRunningEnc, Bool.and_eq_false_iff, Bool.or_eq_false_iff]
        exact .inr ⟨sym _ _ hms.2, sym _ _ hmo.2⟩
      exact ⟨e1, e2⟩

/-- A host write to a field of ENC keeps the invariant. -/
theorem inv_hostWriteEnc {cfg : Config} {s t : State} (h : Inv cfg s) {no v : Nat}
    (ht : hostWriteEnc cfg no v s = .next t) : Inv cfg t := by
  have hw := h.encWidths
  have f0 : fits cfg 0 = true := fits_small (by omega)
  unfold hostWriteEnc at ht
  split at ht
  · cases ht; exact h
  rename_i hbusy
  have hidle : s.enc.status.busy = false := by simpa using hbusy
  split at ht
  · split at ht
    · cases ht; exact h
    · unfold startEncCommand at ht
      dsimp only at ht
      split at ht
      · rename_i hc; exact inv_startEncode h _ hc ht
      · cases ht
        refine inv_encIdle (e := (startEnc (toByte v) s.enc).finish _) h ?_
            (statusEnded_legal _) rfl cacheHonest_blank (by simp [startEnc, Encoder.finish])
        exact ⟨hw.srcBase, hw.stride, hw.outBase, hw.outCap, f0, f0, f0, hw.n, hw.sb, hw.ob⟩
  · cases ht
    have hwr := fits_wrap cfg v
    have key : ∀ e : Encoder, e.status = s.enc.status →
        e.cache = s.enc.cache → e.runacc = s.enc.runacc → EncWidthsFit cfg e → Inv cfg
        (s.mapEnc fun _ => e) := fun d h2 h3 h4 h5 =>
      inv_encIdle h h5 (by rw [h2]; exact h.encStatus)
          (by rw [h2]; exact hidle) (by rw [h3]; exact h.encCache) (by rw [h4]; exact h.encRun)
    refine key (writeEncField cfg no v s.enc) ?_ ?_ ?_ ?_ <;> unfold writeEncField <;> split <;> first
      | rfl
      | exact hw
      | exact ⟨hwr, hw.stride, hw.outBase, hw.outCap, hw.outLen, hw.pix, hw.op, hw.n, hw.sb, hw.ob⟩
      | exact ⟨hw.srcBase, hwr, hw.outBase, hw.outCap, hw.outLen, hw.pix, hw.op, hw.n, hw.sb, hw.ob⟩
      | exact ⟨hw.srcBase, hw.stride, hwr, hw.outCap, hw.outLen, hw.pix, hw.op, hw.n, hw.sb, hw.ob⟩
      | exact ⟨hw.srcBase, hw.stride, hw.outBase, hwr, hw.outLen, hw.pix, hw.op, hw.n, hw.sb, hw.ob⟩
      | exact ⟨hw.srcBase, hw.stride, hw.outBase, hw.outCap, hw.outLen, hw.pix, hw.op, hw.n,
          hw.sb, hw.ob⟩

/-- A host store outside the running regions keeps the invariant. -/
theorem inv_hostStore {cfg : Config} {s : State} (h : Inv cfg s) (a : Nat) (v : Byte) : Inv cfg
    { s with mem := Memory.store s.mem a v
             unseen := s.unseen.filter fun u => decide (u.addr ≠ a) } :=
  ⟨store_wf h.memWf _ _, h.unseenOnce.sublist (List.filter_sublist.map _), h.decWidths, h.encWidths,
    h.decStatus, h.encStatus, h.decCache, h.encCache, h.decRun, h.encRun, h.decode, h.encode,
    h.enginesApart⟩

/-- A host read of a field keeps the invariant. -/
theorem inv_hostSaw {cfg : Config} {s : State} (h : Inv cfg s) (e : Engine) (no v : Nat)
    (st : Status) : Inv cfg ((s.answer v).hostSaw e no st) := by
  rw [hostSaw_eq]
  exact ⟨h.memWf, h.unseenOnce.sublist (List.filter_sublist.map _), h.decWidths, h.encWidths,
    h.decStatus, h.encStatus, h.decCache, h.encCache, h.decRun, h.encRun, h.decode, h.encode,
    h.enginesApart⟩

/-- A move of the host keeps the invariant. -/
theorem inv_hostMove {cfg : Config} {s t : State} {op : HostOp} (h : Inv cfg s)
    (ht : hostMove cfg op s = .next t) : Inv cfg t := by
  cases op with
  | writeField e no v => cases e with
    | dec => exact inv_hostWriteDec h ht
    | enc => exact inv_hostWriteEnc h ht
  | readField e no => cases e with
    | dec => cases ht; exact inv_hostSaw h .dec no _ _
    | enc => cases ht; exact inv_hostSaw h .enc no _ _
  | writeByte a v =>
    obtain ⟨-, -, rfl⟩ := hostWriteByte_next ht
    exact inv_hostStore h a v
  | readByte a =>
    rw [hostReadByte_next ht]
    exact inv_congr h rfl rfl rfl rfl

end Sys2Proof.Laws
end

