-- ==== Sys2Proof/Laws/PerInstr.lean ====
section
/-! SUPPORT. Statements made of every opcode, one lemma per constructor. -/

namespace Sys2Proof.Laws

/-- The length of an opcode's bytes is the one its tag byte names (R66). -/
def TagNamesLength.Statement (i : Instr) : Prop :=
  i.wf = true → ∃ b1 rest, encode i = b1 :: rest ∧ rest.length + 1 = opLength b1

theorem TagNamesLength.rgb (r g b : Byte) : TagNamesLength.Statement (.rgb r g b) :=
  fun _ => ⟨_, _, rfl, rfl⟩

theorem TagNamesLength.rgba (r g b a : Byte) : TagNamesLength.Statement (.rgba r g b a) :=
  fun _ => ⟨_, _, rfl, rfl⟩

theorem TagNamesLength.index (k : Slot) : TagNamesLength.Statement (.index k) := by
  intro _
  refine ⟨_, _, rfl, ?_⟩
  have hk : k.val < 64 := k.isLt
  have h := byteOf_toNat (x := 0x00 + (k.val : Int)) (by omega) (by omega)
  rw [opLength_one (.inl (by omega))]; rfl

theorem TagNamesLength.diff (dr dg db : Int) : TagNamesLength.Statement (.diff dr dg db) := by
  intro hw
  simp only [Instr.wf, diffDeltaOk, inRange, Bool.and_eq_true, decide_eq_true_eq] at hw
  refine ⟨_, _, rfl, ?_⟩
  have h := byteOf_toNat (x := 0x40 + 16 * (dr + 2) + 4 * (dg + 2) + (db + 2)) (by omega) (by omega)
  rw [opLength_one (.inl (by omega))]; rfl

theorem TagNamesLength.luma (vg drg dbg : Int) : TagNamesLength.Statement (.luma vg drg dbg) := by
  intro hw
  simp only [Instr.wf, lumaGreenOk, lumaCrossOk, inRange, Bool.and_eq_true, decide_eq_true_eq] at hw
  refine ⟨_, _, rfl, ?_⟩
  have h := byteOf_toNat (x := 0x80 + (vg + 32)) (by omega) (by omega)
  rw [opLength_two (by omega) (by omega)]; rfl

theorem TagNamesLength.run (n : Nat) : TagNamesLength.Statement (.run n) := by
  intro hw
  simp only [Instr.wf, runFieldOk, decide_eq_true_eq] at hw
  refine ⟨_, _, rfl, ?_⟩
  have h := byteOf_toNat (x := 0xC0 + (n : Int)) (by omega) (by omega)
  rw [opLength_one (.inr (by omega))]; rfl

end Sys2Proof.Laws
end

