-- ==== Sys2Proof/Tests/Slice0.lean ====
section
/-! SUPPORT. Tests on fixed values, each expected value taken from the spec's encodings and worked
examples, and for each obligation with hypotheses a witness that meets them. -/

namespace Sys2Proof.Tests

open Sys2Proof.Machine Sys2Proof.Safety

/-! ## Helpers -/

/-- The step gives a next state with the property. -/
def nextIs (o : Host.Outcome State Fault Refusal) (p : State → Bool) : Bool :=
  match o with
  | .next t => p t
  | _ => false

/-- Parameters for the tests of the header check: MAGIC is 01 02 03 04, ADDR_BITS is 32. -/
def cfg : Config := ⟨0, #v[1, 2, 3, 4], #v[9, 9, 9, 9, 9, 9, 9, 9]⟩

/-- DEC idle with one pixel in CUR and one more in its slot. -/
def holding (cur slot : Pixel) : State :=
  State.reset.mapDec fun d => { d with cur := cur, cache := cacheInsert d.cache slot }

/-- The opcode gives this CUR, SP and RUNCNT, and leaves this pixel in this slot. -/
def execGives (i : Instr) (s : State) (cur : Pixel) (sp : Nat) (k : Slot) (slot : Pixel) : Bool :=
  nextIs (exec i s) fun t => decide (t.dec.cur = cur) && decide (t.dec.sp = sp)
    && decide (t.dec.cache.get k = slot)

/-! ## What WellFormed refuses -/

theorem test_wf_refuses_diff_delta_above : (Instr.diff 2 0 0).wf = false := by decide
theorem test_wf_refuses_diff_delta_below : (Instr.diff 0 (-3) 0).wf = false := by decide
theorem test_wf_refuses_diff_blue : (Instr.diff 0 0 2).wf = false := by decide
theorem test_wf_refuses_luma_green : (Instr.luma 32 0 0).wf = false := by decide
theorem test_wf_refuses_luma_red : (Instr.luma 0 8 0).wf = false := by decide
theorem test_wf_refuses_luma_blue : (Instr.luma 0 0 (-9)).wf = false := by decide
theorem test_wf_refuses_run_62 : (Instr.run 62).wf = false := by decide

/-! ## Decoding and encoding: the words of R68 to R73 and of 95_test_vectors.md -/

theorem test_decode_rgb : decodeOp 0xFE 1 2 3 4 = .rgb 1 2 3 := by decide
theorem test_decode_rgba : decodeOp 0xFF 1 2 3 4 = .rgba 1 2 3 4 := by decide
theorem test_decode_index : decodeOp 0b00001001 0 0 0 0 = .index 9 := by decide
theorem test_decode_diff : decodeOp 0b01110010 0 0 0 0 = .diff 1 (-2) 0 := by decide
theorem test_decode_luma : decodeOp 0b10101010 0b01011111 0 0 0 = .luma 10 (-3) 7 := by decide
theorem test_decode_run : decodeOp 0b11111101 0 0 0 0 = .run 61 := by decide

theorem test_decode_needs_payload : decode [0xFE, 1, 2] = .error (.payloadMissing 4 3) := by rfl
theorem test_decode_needs_tag : decode [] = .error .noTagByte := by rfl

theorem test_encode_rgb : encode (.rgb 10 20 30) = [0xFE, 0x0A, 0x14, 0x1E] := by decide
theorem test_encode_rgba : encode (.rgba 10 20 30 128) = [0xFF, 0x0A, 0x14, 0x1E, 0x80] := by decide
theorem test_encode_index : encode (.index 9) = [0x09] := by decide
theorem test_encode_diff : encode (.diff 1 (-2) 0) = [0x72] := by decide
theorem test_encode_luma : encode (.luma 10 (-3) 7) = [0xAA, 0x5F] := by decide
theorem test_encode_runl : encode (runl 62) = [0xFD] := by decide

theorem test_table_word_rgb : decodeTableWord 32 0x1E140AFE = some (.rgb 10 20 30) := by decide
theorem test_table_word_luma : decodeTableWord 16 0x5FAA = some (.luma 10 (-3) 7) := by decide

/-! ## The six opcodes, examples of R100 to R105 and 95_test_vectors.md 2.2 -/

theorem test_rgb_keeps_alpha :
    execGives (.rgb 1 2 3) (holding ⟨9, 9, 9, 7⟩ ⟨9, 9, 9, 9⟩) ⟨1, 2, 3, 7⟩ 4 47 ⟨1, 2, 3, 7⟩ = true := by
  decide

theorem test_rgba_inserts :
    execGives (.rgba 1 2 3 4) State.reset ⟨1, 2, 3, 4⟩ 5 14 ⟨1, 2, 3, 4⟩ = true := by decide

theorem test_index_reads_slot :
    execGives (.index 9) (holding ⟨1, 1, 1, 1⟩ ⟨10, 20, 30, 255⟩) ⟨10, 20, 30, 255⟩ 1 22
      ⟨0, 0, 0, 0⟩ = true := by decide

theorem test_index_unwritten_slot :
    execGives (.index 5) State.reset ⟨0, 0, 0, 0⟩ 1 0 ⟨0, 0, 0, 0⟩ = true := by decide

theorem test_diff_inserts :
    execGives (.diff 1 (-2) 0) (holding ⟨10, 20, 30, 255⟩ ⟨0, 0, 0, 0⟩) ⟨11, 18, 30, 255⟩ 1 2
      ⟨11, 18, 30, 255⟩ = true := by decide

theorem test_diff_wraps :
    execGives (.diff 1 (-1) 0) (holding ⟨255, 0, 128, 7⟩ ⟨0, 0, 0, 0⟩) ⟨0, 255, 128, 7⟩ 1 8
      ⟨0, 255, 128, 7⟩ = true := by decide

theorem test_luma_largest_change :
    execGives (.luma 31 7 7) (holding ⟨250, 5, 0, 255⟩ ⟨0, 0, 0, 0⟩) ⟨32, 36, 38, 255⟩ 2 19
      ⟨32, 36, 38, 255⟩ = true := by decide

theorem test_luma_smallest_change :
    execGives (.luma (-32) (-8) (-8)) (holding ⟨5, 250, 255, 255⟩ ⟨0, 0, 0, 0⟩) ⟨221, 218, 215, 255⟩ 2
      47 ⟨221, 218, 215, 255⟩ = true := by decide

theorem test_run_sets_count :
    nextIs (exec (.run 61) State.reset) (fun t => decide (t.dec.runcnt = 61)
      && decide (t.dec.cur = ⟨0, 0, 0, 255⟩) && decide (t.dec.cache.get 53 = ⟨0, 0, 0, 0⟩)) = true := by
  decide

/-! ## Hash, output format and the predictor (95_test_vectors.md 2.1, 2.4, 2.5) -/

theorem test_hash_collision :
    hashSlot ⟨1, 2, 3, 255⟩ = 23 ∧ hashSlot ⟨254, 254, 254, 255⟩ = 23 := by decide

theorem test_output_drops_alpha : outBytes 4 3 ⟨10, 20, 30, 128⟩ = [0x0A, 0x14, 0x1E] := by decide

theorem test_output_opaque : outBytes 3 4 ⟨1, 2, 3, 4⟩ = [1, 2, 3, 0xFF] := by decide

theorem test_predict_index_before_diff :
    predict (cacheInsert PixelCache.blank ⟨10, 20, 30, 255⟩) ⟨11, 20, 30, 255⟩ ⟨10, 20, 30, 255⟩
      = .index 9 := by decide

theorem test_predict_diff_wraps :
    encode (predict PixelCache.blank ⟨0, 0, 0, 255⟩ ⟨255, 255, 0, 255⟩) = [0x56] := by decide

theorem test_predict_luma_wraps :
    encode (predict PixelCache.blank ⟨250, 0, 0, 255⟩ ⟨2, 8, 0, 255⟩) = [0xA8, 0x80] := by decide

theorem test_predict_green_too_far :
    predict PixelCache.blank ⟨100, 100, 100, 255⟩ ⟨132, 132, 132, 255⟩ = .rgb 132 132 132 := by decide

theorem test_predict_alpha_change :
    predict PixelCache.blank ⟨10, 20, 30, 255⟩ ⟨11, 20, 30, 128⟩ = .rgba 11 20 30 128 := by decide

/-! ## A step fetches and runs an opcode -/

theorem test_step_runs_placed_word :
    nextIs (step (State.reset.withFetchWord 32 0x030201FE)) (fun t =>
      decide (t.dec.cur = ⟨1, 2, 3, 255⟩) && decide (t.dec.sp = 18) && decide (t.dec.pix = 1)
        && decide (bytesAt t.mem 32 5 = [1, 2, 3, 255, 0])) = true := by decide

/-! ## Commands (95_test_vectors.md 2.6), under parameters of the test's own -/

/-- The two-pixel frame of example E1 at address 0x1000. -/
def frame27 : Memory :=
  Memory.storeAll [] 0x1000
    [1, 2, 3, 4, 0, 0, 0, 2, 0, 0, 0, 1, 4, 0, 0xFE, 0x0A, 0x14, 0x1E, 0xC0, 9, 9, 9, 9, 9, 9, 9, 9]

/-- The defaults of 95_test_vectors.md 2.6 for DEC, changed by a function, and a CMD write. -/
def decRow (code : Nat) (f : Decoder → Decoder) : State :=
  { State.reset with
    mem := frame27
    dec := f { Decoder.reset with frameBase := 0x1000, frameLen := 27, dstBase := 0x2000, dstCap := 8 }
    host := ⟨[.writeField .dec 0x00 code], [], 0⟩ }

/-- The defaults of 95_test_vectors.md 2.6 for ENC, changed by a function, and a CMD write. -/
def encRow (code : Nat) (f : Encoder → Encoder) : State :=
  { State.reset with
    enc := f { Encoder.reset with
      srcBase := 0x3000, width := 2, height := 1, channels := 4, stride := 8, outBase := 0x4000
      outCap := 32 }
    host := ⟨[.writeField .enc 0x00 code], [], 0⟩ }

/-- DEC's STATUS byte after one step. -/
def decStatusIs (s : State) (b : Byte) : Bool :=
  nextIs (stepWith cfg s) fun t => decide (statusByte t.dec.status = b)

/-- ENC's STATUS byte after one step. -/
def encStatusIs (s : State) (b : Byte) : Bool :=
  nextIs (stepWith cfg s) fun t => decide (statusByte t.enc.status = b)

theorem test_decode_starts :
    nextIs (stepWith cfg (decRow 1 id)) (fun t => decide (statusByte t.dec.status = 0x40)
      && decide (t.dec.n = 2) && decide (t.dec.limit = 19) && decide (t.dec.sp = 14)) = true := by decide

theorem test_decode_regions_overlap :
    decStatusIs (decRow 1 fun d => { d with dstBase := 0x1010 }) 0x81 = true := by decide

theorem test_decode_frame_too_short :
    decStatusIs (decRow 1 fun d => { d with frameLen := 21 }) 0x82 = true := by decide

theorem test_decode_bad_output_channels :
    decStatusIs (decRow 1 fun d => { d with outChReq := 1 }) 0x84 = true := by decide

theorem test_decode_no_room :
    decStatusIs (decRow 1 fun d => { d with dstCap := 7 }) 0x83 = true := by decide

theorem test_peek_reports :
    nextIs (stepWith cfg (decRow 3 id)) (fun t => decide (statusByte t.dec.status = 0x80)
      && decide (t.dec.outLen = 0) && decide (t.dec.hdrWidth = 2) && decide (t.dec.hdrChannels = 4))
      = true := by decide

theorem test_dec_unknown_code : decStatusIs (decRow 2 id) 0x81 = true := by decide

theorem test_encode_starts : encStatusIs (encRow 2 id) 0x40 = true := by decide

theorem test_encode_channels_before_stride :
    encStatusIs (encRow 2 fun e => { e with channels := 2, stride := 12 }) 0x84 = true := by decide

theorem test_encode_bad_stride :
    encStatusIs (encRow 2 fun e => { e with stride := 12 }) 0x85 = true := by decide

theorem test_encode_bound_too_large :
    encStatusIs (encRow 2 fun e => { e with outCap := 31 }) 0x83 = true := by decide

/-! ## Witnesses: states that meet an obligation's hypotheses -/

/-- A DECODE of a 2 by 1 image under way: channel counts, frame offset, pixels done and run. LIMIT is
19. -/
def decAt (src out : Byte) (sp pix : Nat) (run : BitVec 6) : State :=
  State.reset.mapDec fun d => { d.atFetch with
    hdrChannels := src, srcCh := src, outChReq := out, outCh := out, sp := sp, pix := pix, runcnt := run }

/-- An ENCODE of a `w` by 1 image under way: its source at 0, its output at 4096. -/
def encAt (ch : Byte) (w op pix : Nat) (run : BitVec 6) : State :=
  State.reset.mapEnc fun e => { e with
    cmd := 0x02, status := statusStarted, width := BitVec.ofNat 32 w, height := 1, channels := ch
    stride := w * ch.toNat, outBase := 4096, outCap := 4096, n := w, ch := ch, ob := 4096, op := op
    pix := pix, runacc := run }

/-- Both engines idle and the host about to make a move. -/
def hostAt (op : HostOp) : State := { State.reset with host := ⟨[op], [], 0⟩ }

/-- The host about to make a move in the state given, which its turn comes first in. -/
def hostTurn (s : State) (op : HostOp) : State := { s with host := ⟨[op], [], 0⟩, turns := [.host] }

theorem resetInv (cfg : Config) : Inv cfg State.reset where
  memWf := rfl
  unseenOnce := List.nodup_nil
  decWidths := by constructor <;> rfl
  encWidths := by constructor <;> rfl
  decStatus := by unfold StatusLegal; decide
  encStatus := by unfold StatusLegal; decide
  decCache := Laws.cacheHonest_blank
  encCache := Laws.cacheHonest_blank
  decRun := by decide
  encRun := by decide
  decode := by intro h; cases h
  encode := by intro h; cases h
  enginesApart := by intro h; cases h

theorem inv_host (cfg : Config) {s : State} (h : Inv cfg s) (p : HostPort) (ts : List Agent) :
    Inv cfg { s with host := p, turns := ts } := Laws.inv_congr h rfl rfl rfl rfl

theorem decAt_inv (cfg : Config) {src out : Byte} {sp pix : Nat} {run : BitVec 6}
    (hs : src = 3 ∨ src = 4) (ho : out = 3 ∨ out = 4) (h1 : 14 ≤ sp) (h2 : sp ≤ 23) (h3 : pix < 2)
    (h4 : run.toNat ≤ 61) : Inv cfg (decAt src out sp pix run) := by
  refine Laws.inv_setDec (m := []) (l := []) (resetInv cfg) rfl List.nodup_nil ?_ Laws.statusStarted_legal
    Laws.cacheHonest_blank h4 fun _ => ⟨?_, rfl, rfl⟩
  · constructor <;> first | rfl | exact Laws.fits_small (by show _ < _; dsimp only; omega)
  · constructor <;> try rfl
    · show 22 ≤ 27; decide
    · rcases hs with rfl | rfl <;> rfl
    · rcases ho with rfl | rfl <;> rfl
    · rcases ho with rfl | rfl <;> rfl
    · rcases ho with rfl | rfl
      · show 2 * 3 ≤ 8; decide
      · show 2 * 4 ≤ 8; decide
    · exact h3
    · exact h1
    · exact h2

theorem encAt_inv (cfg : Config) {ch : Byte} {w op pix : Nat} {run : BitVec 6}
    (hc : ch = 3 ∨ ch = 4) (hw : w ≤ 100) (hp : pix < w) (hr : run.toNat ≤ 60)
    (h0 : op = 0 → pix = 0 ∧ run = 0)
    (h1 : op ≠ 0 → 14 ≤ op ∧ op + 1 ≤ 14 + pix * (ch.toNat + 1) ∨ op = 14 ∧ run = 0) :
    Inv cfg (encAt ch w op pix run) := by
  have hop : op ≤ 600 := by
    by_cases h : op = 0
    · omega
    · have := Nat.mul_le_mul (show pix ≤ 100 by omega)
        (show ch.toNat + 1 ≤ 5 by rcases hc with rfl | rfl <;> decide)
      have := h1 h; omega
  refine Laws.inv_setEnc (m := []) (l := []) (resetInv cfg) rfl List.nodup_nil ?_ Laws.statusStarted_legal
    Laws.cacheHonest_blank hr (fun _ => ?_) (by intro h; cases h)
  · constructor <;> first
      | rfl
      | exact Laws.fits_small (by show _ < _; dsimp only; omega)
      | (rcases hc with rfl | rfl <;> exact Laws.fits_small (by show _ * _ < _; simp; omega))
  · have hwn : (BitVec.ofNat 32 w).toNat = w := by simp; omega
    have hmul : (BitVec.ofNat 32 w).toNat * (1 : BitVec 32).toNat = w := by rw [hwn]; simp
    have hsrc : srcRegion (encAt ch w op pix run).enc = ⟨0, w * ch.toNat⟩ := by
      show Region.mk 0 ((BitVec.ofNat 32 w).toNat * (1 : BitVec 32).toNat * ch.toNat) = _; rw [hmul]
    refine
      { command := rfl, code := rfl, outLen := rfl, sb := rfl, ob := rfl, ch := rfl, chOk := ?_
        n := hmul.symm, src := ?_, out := ?_, apart := ?_, room := ?_, remain := hp
        opaque_ := fun _ => rfl, atHeader := fun h => ⟨(h0 h).1, (h0 h).2, rfl, rfl⟩
        afterHeader := fun h => ?_ }
    · rcases hc with rfl | rfl <;> rfl
    · show regionOk cfg (srcRegion (encAt ch w op pix run).enc) = true
      rw [hsrc, regionOk, Laws.spanOk_iff]
      have := Laws.memSize_ge cfg
      rcases hc with rfl | rfl <;> simp <;> omega
    · show spanOk cfg 4096 4096 = true
      rw [Laws.spanOk_iff]
      have := Laws.memSize_ge cfg
      omega
    · show regionsOverlap (srcRegion (encAt ch w op pix run).enc) ⟨4096, 4096⟩ = false
      rw [hsrc]
      rcases hc with rfl | rfl <;> simp [regionsOverlap] <;> omega
    · show 22 + _ * _ * _ ≤ 4096
      rw [hmul]
      rcases hc with rfl | rfl <;> simp <;> omega
    · show 14 ≤ op ∧ op + (decide (run ≠ 0)).toNat ≤ 14 + pix * (ch.toNat + 1)
      rcases h1 h with h' | ⟨h', rfl⟩
      · have := Bool.toNat_le (decide (run ≠ 0)); omega
      · simp [h']

/-- A step that gives a next state with the property has one. -/
theorem next_of {o : Host.Outcome State Fault Refusal} {p : State → Bool} (h : nextIs o p = true) :
    ∃ t, o = .next t ∧ p t = true := by
  cases o with
  | next t => exact ⟨t, rfl, h⟩
  | _ => cases h

/-- A step gives a next state. -/
def goesOn (s : State) : Prop := ∃ t, step s = .next t

theorem goesOn_of {s : State} (h : nextIs (step s) (fun _ => true) = true) : goesOn s :=
  let ⟨t, ht, _⟩ := next_of h
  ⟨t, ht⟩

/-- A DECODE under way that meets the invariant, whose step is next and goes on. -/
def DecMeets (s : State) : Prop := Inv Config.block s ∧ DecMoves s ∧ goesOn s

/-- An ENCODE under way that meets the invariant, whose step is next and goes on. -/
def EncMeets (s : State) : Prop := Inv Config.block s ∧ EncMoves s ∧ goesOn s

theorem meets_first_pixel : DecMeets (decAt 4 4 14 0 0) :=
  ⟨decAt_inv _ (by decide) (by decide) (by decide) (by decide) (by decide) (by decide),
    ⟨by decide, by decide⟩, goesOn_of (by decide)⟩

theorem meets_last_pixel : DecMeets (decAt 4 3 18 1 0) :=
  ⟨decAt_inv _ (by decide) (by decide) (by decide) (by decide) (by decide) (by decide),
    ⟨by decide, by decide⟩, goesOn_of (by decide)⟩

theorem meets_longest_run : DecMeets (decAt 3 4 23 1 61) :=
  ⟨decAt_inv _ (by decide) (by decide) (by decide) (by decide) (by decide) (by decide),
    ⟨by decide, by decide⟩, goesOn_of (by decide)⟩

theorem meets_exhausted : DecMeets (decAt 4 4 19 0 0) :=
  ⟨decAt_inv _ (by decide) (by decide) (by decide) (by decide) (by decide) (by decide),
    ⟨by decide, by decide⟩, goesOn_of (by decide)⟩

theorem meets_run_goes_on : EncMeets (encAt 3 100 14 0 0) :=
  ⟨encAt_inv _ (by decide) (by decide) (by decide) (by decide) (by decide) (by decide),
    ⟨by decide, by decide⟩, goesOn_of (by decide)⟩

theorem meets_run_of_61 : EncMeets (encAt 3 100 14 60 60) :=
  ⟨encAt_inv _ (by decide) (by decide) (by decide) (by decide) (by decide) (by decide),
    ⟨by decide, by decide⟩, goesOn_of (by decide)⟩

theorem meets_run_ends_image : EncMoves (encAt 3 1 14 0 0) ∧ Inv Config.block (encAt 3 1 14 0 0) :=
  ⟨⟨by decide, by decide⟩,
    encAt_inv _ (by decide) (by decide) (by decide) (by decide) (by decide) (by decide)⟩

theorem meets_new_pixel : EncMeets (encAt 4 2 14 0 0) :=
  ⟨encAt_inv _ (by decide) (by decide) (by decide) (by decide) (by decide) (by decide),
    ⟨by decide, by decide⟩, goesOn_of (by decide)⟩

theorem meets_new_pixel_after_run :
    EncMoves (encAt 4 2 14 1 1) ∧ Inv Config.block (encAt 4 2 14 1 1) :=
  ⟨⟨by decide, by decide⟩,
    encAt_inv _ (by decide) (by decide) (by decide) (by decide) (by decide) (by decide)⟩

theorem meets_header :
    EncMoves (encAt 4 1 0 0 0) ∧ Inv Config.block (encAt 4 1 0 0 0) ∧ (encAt 4 1 0 0 0).enc.op = 0 :=
  ⟨⟨by decide, by decide⟩,
    encAt_inv _ (by decide) (by decide) (by decide) (by decide) (by decide) (by decide), rfl⟩

/-! ## One witness for each obligation with hypotheses -/

theorem witness_StepKeepsInv : DecMeets (decAt 4 4 14 0 0) ∧ EncMeets (encAt 4 2 14 0 0) :=
  ⟨meets_first_pixel, meets_new_pixel⟩

theorem witness_DecodeOfEncode :
    (Instr.diff (-2) 1 0).wf = true ∧ (Instr.luma (-32) 7 (-8)).wf = true ∧
      (Instr.luma 31 (-8) 7).wf = true ∧ (Instr.run 61).wf = true ∧ (Instr.index 63).wf = true ∧
      (Instr.rgb 255 0 1).wf = true ∧ (Instr.rgba 0 1 2 255).wf = true := by decide

theorem witness_EncodeOfDecode : decode [0x80, 0x0F, 7] = .ok (.luma (-32) (-8) 7, [7]) := by rfl

theorem witness_TagValuePicksOpcode :
    (0x3F : Byte).toNat < 64 ∧ (64 ≤ (0x40 : Byte).toNat ∧ (0x7F : Byte).toNat < 128) ∧
      (128 ≤ (0x80 : Byte).toNat ∧ (0xBF : Byte).toNat < 192) ∧
      (192 ≤ (0xC0 : Byte).toNat ∧ (0xFD : Byte).toNat < 254) ∧
      (0xFE : Byte).toNat = 254 ∧ (0xFF : Byte).toNat = 255 := by decide

theorem witness_DecoderTakesOpcodeLength :
    ([1, 2, 3] : List Byte).length + 1 < 5 ∧ 5 ≤ ([1, 2, 3, 4] : List Byte).length + 1 := by decide

theorem witness_IndexCopiesSlotVerbatim :
    CacheHonest State.reset.dec.cache ∧
      nextIs (exec (.index 5) State.reset) (fun t => decide ((3 * t.dec.cur.r.toNat
        + 5 * t.dec.cur.g.toNat + 7 * t.dec.cur.b.toNat + 11 * t.dec.cur.a.toNat) % 64 ≠ 5)) = true :=
  ⟨Laws.cacheHonest_blank, by decide⟩

theorem witness_DiffAddsDeltasModulo256 :
    (-2 ≤ (-2 : Int) ∧ (-2 : Int) ≤ 1) ∧ (-2 ≤ (1 : Int) ∧ (1 : Int) ≤ 1) ∧
      ((0x4E : Byte).toNat : Int) = 0x40 + 16 * (-2 + 2) + 4 * (1 + 2) + (0 + 2) := by decide

theorem witness_LumaAddsGreenAndCrossDeltas :
    (-32 ≤ (31 : Int) ∧ (31 : Int) ≤ 31) ∧ (-8 ≤ (-8 : Int) ∧ (7 : Int) ≤ 7) ∧
      ((0xBF : Byte).toNat : Int) = 0x80 + (31 + 32) ∧
      ((0x0F : Byte).toNat : Int) = 16 * (-8 + 8) + (7 + 8) := by decide

theorem witness_RunSetsRunCount :
    (0 : Nat) ≤ 61 ∧ (0xC0 : Byte).toNat = 0xC0 + 0 ∧ (61 : Nat) ≤ 61 ∧
      (0xFD : Byte).toNat = 0xC0 + 61 := by decide

theorem witness_OpcodeFrame : nextIs (exec (.luma 0 0 0) State.reset) (fun _ => true) = true := by decide

theorem witness_HashInAnyWidth : (6 : Nat) ≤ 6 := by decide

/-- The tag is the last byte before LIMIT, the payload lies in the trailer (program P4's shape). -/
theorem witness_StepRunsDecodedOpcode :
    let s := { decAt 4 4 18 0 0 with mem := [(18, 0xFF), (19, 1), (20, 2), (21, 3), (22, 4)] }
    DecMoves s ∧ s.dec.runcnt = 0 ∧ s.dec.sp < s.dec.limit ∧
      s.dec.fb + s.dec.sp + 5 ≤ Config.block.memSize ∧
      decode (bytesAt s.mem (s.dec.fb + s.dec.sp) 5) = .ok (.rgba 1 2 3 4, []) :=
  ⟨⟨by decide, by decide⟩, by decide, by decide,
    Nat.le_trans (by show 23 ≤ 4294967296; decide) (Laws.memSize_ge _), by rfl⟩

theorem witness_ActiveRunEmitsCur :
    DecMeets (decAt 3 4 23 1 61) ∧ (decAt 3 4 23 1 61).dec.runcnt ≠ 0 :=
  ⟨meets_longest_run, by decide⟩

theorem witness_ExhaustedStreamRepeatsCur :
    let s := decAt 4 4 19 0 0
    DecMeets s ∧ s.turns = [] ∧ s.dec.status.busy = true ∧ s.dec.runcnt = 0 ∧
      s.dec.limit ≤ s.dec.sp ∧ s.dec.pix ≤ 1 ∧ 1 < s.dec.n :=
  ⟨meets_exhausted, rfl, rfl, rfl, by decide, by decide, by decide⟩

theorem witness_PixelStepWritesFormattedPixel :
    (DecMeets (decAt 4 3 18 1 0) ∧ (decAt 4 3 18 1 0).dec.outCh = 3) ∧
      (DecMeets (decAt 4 4 14 0 0) ∧ (decAt 4 4 14 0 0).dec.outCh = 4 ∧
        (decAt 4 4 14 0 0).dec.srcCh = 4) ∧
      (DecMeets (decAt 3 4 23 1 61) ∧ (decAt 3 4 23 1 61).dec.outCh = 4 ∧
        (decAt 3 4 23 1 61).dec.srcCh = 3) :=
  ⟨⟨meets_last_pixel, rfl⟩, ⟨meets_first_pixel, rfl, rfl⟩, ⟨meets_longest_run, rfl, rfl⟩⟩

theorem witness_DecodeFinishesAtLastPixel :
    (DecMeets (decAt 4 3 18 1 0) ∧ (decAt 4 3 18 1 0).dec.pix + 1 = (decAt 4 3 18 1 0).dec.n) ∧
      (DecMeets (decAt 4 4 14 0 0) ∧ (decAt 4 4 14 0 0).dec.pix + 1 < (decAt 4 4 14 0 0).dec.n) :=
  ⟨⟨meets_last_pixel, rfl⟩, ⟨meets_first_pixel, by decide⟩⟩

theorem witness_StreamPointerStaysInFrame : DecMeets (decAt 4 3 18 1 0) := meets_last_pixel

theorem witness_PixelStepFrame : DecMeets (decAt 4 4 14 0 0) := meets_first_pixel

theorem witness_DecodeEndsAfterRemainingPixels :
    let s := decAt 4 4 14 0 0
    DecMeets s ∧ s.turns = [] ∧ s.dec.status.busy = true ∧ 1 < s.dec.n - s.dec.pix :=
  ⟨meets_first_pixel, rfl, rfl, by decide⟩

theorem witness_HeaderStepWritesFrameHeader :
    EncMoves (encAt 4 1 0 0 0) ∧ Inv Config.block (encAt 4 1 0 0 0) ∧ (encAt 4 1 0 0 0).enc.op = 0 :=
  meets_header

/-- One case for each of the five branches, a to e, with deltas at the ends of their ranges. -/
theorem witness_BranchesInFixedOrder :
    ((cacheInsert PixelCache.blank ⟨10, 20, 30, 255⟩).get (hashSlot ⟨10, 20, 30, 255⟩)
        = ⟨10, 20, 30, 255⟩ ∧ ((11 : Int) + -1) % 256 = 10) ∧
      (PixelCache.blank.get (hashSlot ⟨254, 1, 0, 255⟩) ≠ ⟨254, 1, 0, 255⟩ ∧
        ((0 : Int) + -2) % 256 = 254 ∧ ((0 : Int) + 1) % 256 = 1) ∧
      (PixelCache.blank.get (hashSlot ⟨60, 68, 75, 255⟩) ≠ ⟨60, 68, 75, 255⟩ ∧
        ((100 : Int) + -40) % 256 = 60 ∧ ((100 : Int) + -32) % 256 = 68 ∧
        ((100 : Int) + -25) % 256 = 75) ∧
      (PixelCache.blank.get (hashSlot ⟨132, 132, 132, 255⟩) ≠ ⟨132, 132, 132, 255⟩ ∧
        ((100 : Int) + 32) % 256 = 132) ∧
      (PixelCache.blank.get (hashSlot ⟨0, 0, 0, 128⟩) ≠ ⟨0, 0, 0, 128⟩ ∧ (128 : Byte) ≠ 255) := by
  decide

theorem witness_EqualPixelExtendsRun :
    (EncMeets (encAt 3 100 14 0 0) ∧ NextSourcePixel (encAt 3 100 14 0 0) ⟨0, 0, 0, 255⟩) ∧
      (EncMeets (encAt 3 100 14 60 60) ∧ NextSourcePixel (encAt 3 100 14 60 60) ⟨0, 0, 0, 255⟩ ∧
        (encAt 3 100 14 60 60).enc.runacc.toNat + 1 = 61) ∧
      (Inv Config.block (encAt 3 1 14 0 0) ∧ EncMoves (encAt 3 1 14 0 0) ∧
        NextSourcePixel (encAt 3 1 14 0 0) ⟨0, 0, 0, 255⟩ ∧
        (encAt 3 1 14 0 0).enc.pix + 1 = (encAt 3 1 14 0 0).enc.n) :=
  ⟨⟨meets_run_goes_on, rfl, rfl, rfl, rfl⟩, ⟨meets_run_of_61, ⟨rfl, rfl, rfl, rfl⟩, rfl⟩,
    meets_run_ends_image.2, meets_run_ends_image.1, ⟨rfl, rfl, rfl, rfl⟩, rfl⟩

theorem witness_NewPixelFlushesAndPutsOpcode :
    (EncMeets (encAt 4 2 14 0 0) ∧ NextSourcePixel (encAt 4 2 14 0 0) ⟨0, 0, 0, 0⟩ ∧
        (encAt 4 2 14 0 0).enc.runacc = 0) ∧
      (Inv Config.block (encAt 4 2 14 1 1) ∧ EncMoves (encAt 4 2 14 1 1) ∧
        NextSourcePixel (encAt 4 2 14 1 1) ⟨0, 0, 0, 0⟩ ∧ (encAt 4 2 14 1 1).enc.runacc ≠ 0) ∧
      (⟨0, 0, 0, 0⟩ : Pixel) ≠ Pixel.initial :=
  ⟨⟨meets_new_pixel, ⟨rfl, rfl, rfl, rfl⟩, rfl⟩,
    ⟨meets_new_pixel_after_run.2, meets_new_pixel_after_run.1, ⟨rfl, rfl, rfl, rfl⟩, by decide⟩,
    by decide⟩

/-- The last pixel's step goes on whatever the trailer is. -/
theorem witness_EncodeFinishesAtLastPixel :
    (EncMeets (encAt 3 1 14 0 0) ∧ (encAt 3 1 14 0 0).enc.op ≠ 0 ∧
        (encAt 3 1 14 0 0).enc.pix + 1 = (encAt 3 1 14 0 0).enc.n) ∧
      (EncMeets (encAt 4 2 14 0 0) ∧ (encAt 4 2 14 0 0).enc.op ≠ 0 ∧
        (encAt 4 2 14 0 0).enc.pix + 1 < (encAt 4 2 14 0 0).enc.n) := by
  refine ⟨⟨⟨meets_run_ends_image.2, meets_run_ends_image.1, ?_⟩, by decide, rfl⟩,
    meets_new_pixel, by decide, by decide⟩
  have h := Laws.encodeStep_of_inv meets_run_ends_image.2 rfl
  exact ⟨_, (Laws.stepWith_enc meets_run_ends_image.1).trans h⟩

theorem witness_EncodeStepFrame : EncMeets (encAt 4 2 14 0 0) := meets_new_pixel

theorem witness_EncoderNeverEmits : (encAt 3 100 14 60 60).enc.runacc.toNat ≤ 60 := by decide

theorem witness_OutputStaysWithinBound : EncMeets (encAt 3 1 14 0 0) :=
  witness_EncodeFinishesAtLastPixel.1.1

theorem witness_EncodeEndsAfterRemainingPixels :
    let s := encAt 4 1 0 0 0
    Inv Config.block s ∧ s.turns = [] ∧ s.enc.status.busy = true ∧ s.dec.status.busy = false :=
  ⟨meets_header.2.1, rfl, rfl, rfl⟩

theorem witness_DecoderFollowsEncoder :
    State.reset.dec.cur = State.reset.enc.cur ∧ State.reset.dec.cache = State.reset.enc.cache ∧
      (⟨1, 2, 3, 4⟩ : Pixel) ≠ State.reset.enc.cur := by decide

/-- ENC idle with the fields of a one-pixel image at 0 and its output at 4096. -/
def encIdle : State :=
  State.reset.mapEnc fun e => { e with
    width := 1, height := 1, channels := 4, stride := 4, outBase := 4096, outCap := 27 }

theorem encIdle_inv (cfg : Config) : Inv cfg encIdle :=
  Laws.inv_encIdle (resetInv cfg) (by constructor <;> rfl) (by unfold StatusLegal; decide) rfl
    Laws.cacheHonest_blank (by decide)

theorem witness_DecodeOfEncodeIsIdentity :
    let s := { encIdle with host := ⟨[.writeField .enc 0x00 0x02], [], 0⟩ }
    Inv Config.block s ∧ s.turns = [] ∧ s.dec.status.busy = false ∧ s.enc.status.busy = false ∧
      s.host.todo = [.writeField .enc 0x00 0x02] ∧
      firstFailing (encodeChecks Config.block s.enc) = none ∧
      0 + 4 ≤ Config.block.memSize ∧ 4 < Config.block.memSize ∧
      s.enc.width.toNat * s.enc.height.toNat * s.enc.channels.toNat ≤ 4 ∧ 0 + 4 ≤ s.enc.outBase := by
  have := Laws.memSize_ge Config.block
  exact ⟨inv_host _ (encIdle_inv _) _ _, rfl, rfl, rfl, rfl, by decide, by omega, by omega, by decide,
    by decide⟩

/-- ENC runs with its source at 0 and its output at 4096; DEC is idle with the regions given. -/
def beside (frame dst v : Nat) : State :=
  hostTurn ((encAt 4 1 14 0 0).mapDec fun d => { d with
    frameBase := frame, frameLen := 22, dstBase := dst, dstCap := 8 }) (.writeField .dec 0x00 v)

/-- Regions clear of ENC's, and a start whose overlapping regions fail a check and meet ENC's. -/
theorem witness_DecodeStartChecksInOrder :
    (let s := beside 100 200 257;
      HostMoves s (.writeField .dec 0x00 257) ∧ 257 % 256 = 1 ∧ s.dec.status.busy = false ∧
      meetsRunningEnc s (frameRegion s.dec) = false ∧ meetsRunningEnc s (dstRegion s.dec) = false) ∧
    (let s := beside 0 4 1;
      HostMoves s (.writeField .dec 0x00 1) ∧ s.dec.status.busy = false ∧
      firstFailing (decodeArgChecks Config.block s.dec) ≠ none ∧
      meetsRunningEnc s (frameRegion s.dec) = true) :=
  ⟨⟨⟨by decide, rfl⟩, rfl, rfl, by decide, by decide⟩, ⟨by decide, rfl⟩, rfl, by decide, by decide⟩

/-- A frame clear of ENC's regions, and one too short that meets them. -/
theorem witness_PeekReportsHeader :
    (let s := beside 100 4096 3;
      HostMoves s (.writeField .dec 0x00 3) ∧ 3 % 256 = 3 ∧ s.dec.status.busy = false ∧
      meetsRunningEnc s (frameRegion s.dec) = false) ∧
    (let s := (beside 0 4096 3).mapDec fun d => { d with frameLen := 21 };
      HostMoves s (.writeField .dec 0x00 3) ∧ s.dec.status.busy = false ∧
      firstFailing (peekArgChecks Config.block s.dec) ≠ none ∧
      meetsRunningEnc s (frameRegion s.dec) = true) :=
  ⟨⟨⟨by decide, rfl⟩, rfl, rfl, by decide⟩, ⟨by decide, rfl⟩, rfl, by decide, by decide⟩

/-- DEC runs with its frame at 0 and its destination at 32; ENC is idle with the regions given. -/
def besideDec (src out : Nat) : State :=
  hostTurn ((decAt 4 4 14 0 0).mapEnc fun _ => { encIdle.enc with srcBase := src, outBase := out })
    (.writeField .enc 0x00 2)

/-- Regions clear of DEC's, and a start whose overlapping regions fail a check and meet DEC's. -/
theorem witness_EncodeStartChecksInOrder :
    (let s := besideDec 100 200;
      HostMoves s (.writeField .enc 0x00 2) ∧ 2 % 256 = 2 ∧ s.enc.status.busy = false ∧
      meetsRunningDec s (srcRegion s.enc) = false ∧ meetsRunningDec s (outRegion s.enc) = false) ∧
    (let s := besideDec 0 0;
      HostMoves s (.writeField .enc 0x00 2) ∧ s.enc.status.busy = false ∧
      firstFailing (encodeChecks Config.block s.enc) ≠ none ∧
      meetsRunningDec s (srcRegion s.enc) = true) :=
  ⟨⟨⟨by decide, rfl⟩, rfl, rfl, by decide, by decide⟩, ⟨by decide, rfl⟩, rfl, by decide, by decide⟩

theorem witness_UnknownCommandIsInvalidArgument :
    HostMoves (hostAt (.writeField .dec 0x00 2)) (.writeField .dec 0x00 2) ∧
      HostMoves (hostAt (.writeField .enc 0x00 255)) (.writeField .enc 0x00 255) ∧
      HostMoves (hostAt (.writeField .enc 0x00 256)) (.writeField .enc 0x00 256) ∧ 256 % 256 = 0 :=
  ⟨⟨by decide, rfl⟩, ⟨by decide, rfl⟩, ⟨by decide, rfl⟩, rfl⟩

theorem witness_FieldWritesStoreNoMemory :
    (HostMoves (hostAt (.writeField .dec 0x00 7)) (.writeField .dec 0x00 7) ∧
        goesOn (hostAt (.writeField .dec 0x00 7))) ∧
      HostMoves (hostAt (.writeField .enc 0x00 9)) (.writeField .enc 0x00 9) ∧
      goesOn (hostAt (.writeField .enc 0x00 9)) :=
  ⟨⟨⟨by decide, rfl⟩, goesOn_of (by decide)⟩, ⟨by decide, rfl⟩, goesOn_of (by decide)⟩

theorem witness_NoErrorAfterStartChecks : DecMeets (decAt 3 4 23 1 61) ∧ EncMeets (encAt 3 1 14 0 0) :=
  ⟨meets_longest_run, witness_EncodeFinishesAtLastPixel.1.1⟩

/-- A frame's first 14 bytes with the block's own MAGIC: 2 by 1 pixels of four channels. -/
def headerBytesOf (m : Vector Byte 4) : List Byte := m.toList ++ [0, 0, 0, 2, 0, 0, 0, 1, 4, 0]

theorem magic_read_back (m : Vector Byte 4) :
    (readHeader (Memory.storeAll [] 0 (headerBytesOf m)) 0) = ⟨m, 2, 1, 4, 0⟩ := by
  have hl : (headerBytesOf m).length = 14 := by simp [headerBytesOf]
  have h := Laws.byteAt_storeAll_same (m := []) rfl 0 (headerBytesOf m)
  have hg : ∀ j (hj : j < 14), Memory.byteAt (Memory.storeAll [] 0 (headerBytesOf m)) (0 + j)
      = (headerBytesOf m)[j] := fun j hj => h j (by omega)
  have hm : (#v[(headerBytesOf m)[0], (headerBytesOf m)[1], (headerBytesOf m)[2],
      (headerBytesOf m)[3]] : Vector Byte 4) = m := by
    ext i hi
    rcases (by omega : i = 0 ∨ i = 1 ∨ i = 2 ∨ i = 3) with rfl | rfl | rfl | rfl <;>
      simp [headerBytesOf, List.getElem_append_left]
  have ht : ∀ j (hj : j < 10), (headerBytesOf m)[4 + j] = ([0, 0, 0, 2, 0, 0, 0, 1, 4, 0] : List Byte)[j] := by
    intro j hj
    unfold headerBytesOf
    rw [List.getElem_append_right (by simp)]
    simp
  unfold readHeader
  simp only [hg _ (show 0 < 14 by decide), hg _ (show 1 < 14 by decide), hg _ (show 2 < 14 by decide),
    hg _ (show 3 < 14 by decide), hg _ (show 4 < 14 by decide), hg _ (show 5 < 14 by decide),
    hg _ (show 6 < 14 by decide), hg _ (show 7 < 14 by decide), hg _ (show 8 < 14 by decide),
    hg _ (show 9 < 14 by decide), hg _ (show 10 < 14 by decide), hg _ (show 11 < 14 by decide),
    hg _ (show 12 < 14 by decide), hg _ (show 13 < 14 by decide), hm]
  have e := fun j hj => ht j hj
  rw [e 0 (by decide), e 1 (by decide), e 2 (by decide), e 3 (by decide), e 4 (by decide),
    e 5 (by decide), e 6 (by decide), e 7 (by decide), e 8 (by decide), e 9 (by decide)]
  rfl

/-- DEC idle before a DECODE that passes its checks, whatever MAGIC is. -/
def decReady : State :=
  { State.reset with
    mem := Memory.storeAll [] 0 (headerBytesOf Config.block.magic)
    dec := { Decoder.reset with frameLen := 22, dstBase := 64, dstCap := 8 }
    host := ⟨[.writeField .dec 0x00 1], [], 0⟩ }

theorem decReady_starts : ∃ t, step decReady = .next t ∧ t.dec.status.busy = true := by
  have hm : HostMoves decReady (.writeField .dec 0x00 1) := ⟨by decide, rfl⟩
  have h : firstFailing (headerChecks Config.block ⟨Config.block.magic, 2, 1, 4, 0⟩ ++
      decodeOutChecks Config.block (startDec 1 decReady.dec) ⟨Config.block.magic, 2, 1, 4, 0⟩) = none := by
    simp only [headerChecks, List.cons_append, firstFailing, ne_eq, not_true_eq_false, decide_false,
      Bool.false_eq_true, if_false]
    decide
  have hp := Laws.decodeCommand_of_pass (cfg := Config.block)
    (s := (afterTake decReady).mapDec (startDec 1)) (by decide) (by decide)
    (by
      show firstFailing (headerChecks Config.block (readHeader (Memory.storeAll [] 0
        (headerBytesOf Config.block.magic)) 0) ++ decodeOutChecks Config.block
        (startDec 1 decReady.dec) (readHeader (Memory.storeAll [] 0
        (headerBytesOf Config.block.magic)) 0)) = none
      rw [magic_read_back]; exact h) (by decide)
  exact ⟨_, (Laws.stepWith_host hm).trans hp, rfl⟩

theorem witness_OverlappingStartIsRefused :
    (let s := beside 0 64 1;
      HostMoves s (.writeField .dec 0x00 1) ∧ s.dec.status.busy = false ∧
        firstFailing (decodeArgChecks Config.block s.dec) = none ∧
        meetsRunningEnc s (frameRegion s.dec) = true) ∧
    (let s := { beside 0 4096 1 with mem := Memory.storeAll [] 0 (headerBytesOf Config.block.magic) };
      firstFailing (decodeArgChecks Config.block s.dec) = none ∧
        firstFailing (headerChecks Config.block (readHeader s.mem s.dec.frameBase) ++
          decodeOutChecks Config.block s.dec (readHeader s.mem s.dec.frameBase)) = none ∧
        meetsRunningEnc s (dstRegion s.dec) = true) ∧
    (let s := beside 0 64 3;
      HostMoves s (.writeField .dec 0x00 3) ∧
        firstFailing (peekArgChecks Config.block s.dec) = none) ∧
    (let s := besideDec 0 200;
      HostMoves s (.writeField .enc 0x00 2) ∧
        firstFailing (encodeChecks Config.block s.enc) = none ∧
        meetsRunningDec s (srcRegion s.enc) = true) := by
  refine ⟨⟨⟨by decide, rfl⟩, rfl, by decide, by decide⟩, ⟨by decide, ?_, by decide⟩,
    ⟨⟨by decide, rfl⟩, by decide⟩, ⟨by decide, rfl⟩, by decide, by decide⟩
  show firstFailing (headerChecks Config.block (readHeader (Memory.storeAll [] 0
    (headerBytesOf Config.block.magic)) 0) ++ decodeOutChecks Config.block
    (beside 0 4096 1).dec (readHeader (Memory.storeAll [] 0
    (headerBytesOf Config.block.magic)) 0)) = none
  rw [magic_read_back]
  simp only [headerChecks, List.cons_append, firstFailing, ne_eq, not_true_eq_false, decide_false,
    Bool.false_eq_true, if_false]
  decide

theorem witness_StartForgetsThePast :
    (HostMoves decReady (.writeField .dec 0x00 1) ∧ 1 % 256 = 1 ∧
      decReady.dec.status.busy = false ∧
      ∃ t, step decReady = .next t ∧ t.dec.status.busy = true) ∧
    (let s := { encIdle with host := ⟨[.writeField .enc 0x00 0x02], [], 0⟩ };
      HostMoves s (.writeField .enc 0x00 2) ∧ 2 % 256 = 2 ∧ s.enc.status.busy = false ∧
      ∃ t, step s = .next t ∧ t.enc.status.busy = true) :=
  ⟨⟨⟨by decide, rfl⟩, rfl, rfl, decReady_starts⟩,
    ⟨by decide, rfl⟩, rfl, rfl, next_of (p := fun t => t.enc.status.busy) (by decide)⟩

theorem witness_DroppedFieldWrites :
    (let s := hostTurn (decAt 4 4 14 0 0) (.writeField .dec 0x02 7);
      HostMoves s (.writeField .dec 0x02 7) ∧ s.dec.status.busy = true) ∧
    HostMoves (hostAt (.writeField .dec 0x06 7)) (.writeField .dec 0x06 7) ∧ 5 < 0x06 ∧
    (let s := hostTurn (encAt 4 2 14 0 0) (.writeField .enc 0x02 7);
      HostMoves s (.writeField .enc 0x02 7) ∧ s.enc.status.busy = true) ∧
    HostMoves (hostAt (.writeField .enc 0x09 7)) (.writeField .enc 0x09 7) ∧ 8 < 0x09 :=
  ⟨⟨⟨by decide, rfl⟩, rfl⟩, ⟨by decide, rfl⟩, by decide, ⟨⟨by decide, rfl⟩, rfl⟩, ⟨by decide, rfl⟩,
    by decide⟩

theorem witness_FieldsReadBackAsWritten :
    HostMoves (hostAt (.writeField .dec 1 300)) (.writeField .dec 1 300) ∧
      HostMoves (hostAt (.writeField .dec 5 300)) (.writeField .dec 5 300) ∧
      HostMoves (hostAt (.writeField .enc 1 300)) (.writeField .enc 1 300) ∧
      HostMoves (hostAt (.writeField .enc 8 300)) (.writeField .enc 8 300) ∧
      State.reset.dec.status.busy = false ∧ State.reset.enc.status.busy = false :=
  ⟨⟨by decide, rfl⟩, ⟨by decide, rfl⟩, ⟨by decide, rfl⟩, ⟨by decide, rfl⟩, rfl, rfl⟩

theorem witness_FieldReadsReturnTheField :
    HostMoves (hostAt (.readField .dec 0x10)) (.readField .dec 0x10) ∧
      HostMoves (hostAt (.readField .dec 0x16)) (.readField .dec 0x16) ∧ 0x15 < 0x16 ∧
      HostMoves (hostAt (.readField .enc 0x09)) (.readField .enc 0x09) ∧ 8 < 0x09 ∧ 0x09 < 0x10 ∧
      HostMoves (hostAt (.readField .enc 0x12)) (.readField .enc 0x12) ∧ 0x11 < 0x12 :=
  ⟨⟨by decide, rfl⟩, ⟨by decide, rfl⟩, by decide, ⟨by decide, rfl⟩, by decide, by decide,
    ⟨by decide, rfl⟩, by decide⟩

/-- A load at the last byte of the smallest memory, and one of the last byte of a running DST. -/
theorem witness_HostLoadSeesOldOrNew :
    (HostMoves (hostAt (.readByte 4294967295)) (.readByte 4294967295) ∧
      4294967295 < Config.block.memSize) ∧
    (let s := hostTurn (decAt 4 4 14 0 0) (.readByte 39);
      HostMoves s (.readByte 39) ∧ s.dec.status.busy = true ∧
        s.dec.dstBase ≤ 39 ∧ 39 < s.dec.dstBase + s.dec.dstCap) ∧ 39 < Config.block.memSize :=
  ⟨⟨⟨by decide, rfl⟩, Nat.lt_of_lt_of_le (by decide) (Laws.memSize_ge _)⟩,
    ⟨⟨by decide, rfl⟩, rfl, by decide, by decide⟩,
    Nat.lt_of_lt_of_le (by decide) (Laws.memSize_ge _)⟩

theorem witness_EarlyValueIsTheOneWritten :
    (DecMeets (decAt 4 4 14 0 0) ∧ (decAt 4 4 14 0 0).dec.status.busy = true) ∧
      EncMeets (encAt 4 2 14 0 0) ∧ (encAt 4 2 14 0 0).enc.status.busy = true :=
  ⟨⟨meets_first_pixel, rfl⟩, meets_new_pixel, rfl⟩

/-- The one pixel left is RGB 1, 2, 3: its red byte is open before the step that writes it (R58, R100,
R114). -/
theorem test_byte_not_yet_written_is_open :
    visibleBytes Config.block
      { decAt 4 4 14 1 0 with mem := [(14, 0xFE), (15, 1), (16, 2), (17, 3)] } 36 = [0, 1] := by
  decide

/-- The one source pixel is CUR: the RUN byte is open before the step that puts it (R58, R73, R123). -/
theorem test_output_not_yet_put_is_open :
    visibleBytes ⟨0, #v[0, 0, 0, 0], #v[0, 0, 0, 0, 0, 0, 0, 0]⟩
      { encAt 4 1 14 0 0 with mem := [(3, 255)] } 4110 = [0, 0xC0] := by decide

/-- A write whose DONE the host has not read leaves two values open. -/
theorem test_unseen_byte_is_open :
    visibleBytes Config.block { State.reset with mem := [(32, 7)], unseen := [⟨32, .dec, 0⟩] } 32 = [7, 0] := by
  decide

/-- ENC writes over a byte that DEC wrote unseen: the load has DEC's byte and ENC's open. -/
theorem test_write_replaces_older_record :
    recordUnseen .enc [(32, 7)] 32 1 [⟨32, .dec, 0⟩] = [⟨32, .enc, 7⟩] := by decide

/-- A start that fails its checks makes no earlier write visible. -/
theorem test_failed_start_keeps_record :
    nextIs (step { hostAt (.writeField .dec 0x00 7) with unseen := [⟨32, .dec, 0⟩] })
      (fun t => decide (t.unseen = [⟨32, .dec, 0⟩])) = true := by decide

/-- Every code is held by some STATUS. -/
theorem witness_StatusByteLayout : ∀ c : Code, (⟨c, true, false⟩ : Status).code = c := fun _ => rfl

theorem witness_EngineWritesAreUnseen :
    DecMeets (decAt 4 4 14 0 0) ∧ EncMeets (encAt 4 2 14 0 0) :=
  ⟨meets_first_pixel, meets_new_pixel⟩

/-- An engine's command is done and each engine has a write the host has not seen. -/
def doneUnseen (d e : Status) (op : HostOp) : State :=
  { hostAt op with
    unseen := [⟨32, .dec, 0⟩, ⟨64, .enc, 0⟩], dec := { Decoder.reset with status := d }
    enc := { Encoder.reset with status := e } }

theorem doneUnseen_inv (cfg : Config) {d e : Status} (op : HostOp) (hd : d = .reset ∨ d = statusEnded .ok)
    (he : e = .reset ∨ e = statusEnded .outOfMemory) : Inv cfg (doneUnseen d e op) where
  memWf := rfl
  unseenOnce := by
    show [32, 64].Nodup
    decide
  decWidths := by constructor <;> rfl
  encWidths := by constructor <;> rfl
  decStatus := by rcases hd with rfl | rfl <;> simp [doneUnseen, StatusLegal, Status.reset, statusEnded]
  encStatus := by rcases he with rfl | rfl <;> simp [doneUnseen, StatusLegal, Status.reset, statusEnded]
  decCache := Laws.cacheHonest_blank
  encCache := Laws.cacheHonest_blank
  decRun := Nat.zero_le _
  encRun := Nat.zero_le _
  decode := by rcases hd with rfl | rfl <;> intro h <;> cases h
  encode := by rcases he with rfl | rfl <;> intro h <;> cases h
  enginesApart := by rcases hd with rfl | rfl <;> intro h <;> cases h

theorem witness_DoneReadMakesWritesVisible :
    (let s := doneUnseen (statusEnded .ok) .reset (.readField .dec 0x10);
      Inv Config.block s ∧ HostMoves s (.readField .dec 0x10) ∧ s.dec.status.done = true ∧
        ⟨32, .dec, 0⟩ ∈ s.unseen) ∧
    (let s := doneUnseen .reset (statusEnded .outOfMemory) (.readField .enc 0x10);
      Inv Config.block s ∧ HostMoves s (.readField .enc 0x10) ∧ s.enc.status.done = true ∧
        ⟨64, .enc, 0⟩ ∈ s.unseen) ∧
    HostMoves (doneUnseen .reset .reset (.readByte 33)) (.readByte 33) ∧
    (∀ u ∈ (doneUnseen .reset .reset (.readByte 33)).unseen, u.addr ≠ 33) ∧
    33 < Config.block.memSize ∧
    (let s := hostTurn (decAt 4 4 14 0 0) (.readByte 40);
      HostMoves s (.readByte 40) ∧ s.unseen = [] ∧ s.dec.dstBase + s.dec.dstCap ≤ 40 ∧
        s.enc.status.busy = false) ∧ 40 < Config.block.memSize :=
  ⟨⟨doneUnseen_inv _ _ (.inr rfl) (.inl rfl), ⟨by decide, rfl⟩, rfl, by decide⟩,
    ⟨doneUnseen_inv _ _ (.inl rfl) (.inr rfl), ⟨by decide, rfl⟩, rfl, by decide⟩,
    ⟨by decide, rfl⟩, by decide, Nat.lt_of_lt_of_le (by decide) (Laws.memSize_ge _),
    ⟨⟨by decide, rfl⟩, rfl, by decide, rfl⟩, Nat.lt_of_lt_of_le (by decide) (Laws.memSize_ge _)⟩

/-- A store just above the address space, at the last byte of a running FRAME, and just above it. -/
theorem witness_HostStoreKeepsOutOfRunningRegions :
    (∀ a v, Inv Config.block (hostTurn (decAt 4 4 14 0 0) (.writeByte a v)) ∧
      HostMoves (hostTurn (decAt 4 4 14 0 0) (.writeByte a v)) (.writeByte a v)) ∧
    Config.block.memSize ≤ Config.block.memSize ∧
    inRunningRegion (decAt 4 4 14 0 0) 26 = true ∧ inRunningRegion (decAt 4 4 14 0 0) 27 = false ∧
    27 < Config.block.memSize :=
  ⟨fun _ _ => ⟨inv_host _ meets_first_pixel.1 _ _, rfl, rfl⟩, Nat.le_refl _, by decide, by decide,
    Nat.lt_of_lt_of_le (by decide) (Laws.memSize_ge _)⟩

theorem witness_EnginesWriteOnlyTheirRegion :
    DecMeets (decAt 4 4 14 0 0) ∧ EncMeets (encAt 3 1 14 0 0) :=
  ⟨meets_first_pixel, witness_EncodeFinishesAtLastPixel.1.1⟩

theorem witness_InputsOfRunningCommandsAreConstant :
    (DecMeets (decAt 4 4 14 0 0) ∧ (decAt 4 4 14 0 0).dec.status.busy = true) ∧
      EncMeets (encAt 4 2 14 0 0) ∧ (encAt 4 2 14 0 0).enc.status.busy = true :=
  ⟨⟨meets_first_pixel, rfl⟩, meets_new_pixel, rfl⟩

theorem witness_EnginesShareNoState :
    DecMeets (decAt 4 4 14 0 0) ∧
      (let s := { encAt 4 2 14 0 0 with turns := [.enc] };
        s.turns.head? = some .enc ∧ encRunning s.enc = true ∧ goesOn s) :=
  ⟨meets_first_pixel, rfl, by decide, goesOn_of (by decide)⟩

theorem witness_IdleEngineExecutesNothing :
    (let s := { State.reset with turns := [.dec] };
      s.turns.head? = some .dec ∧ s.dec.status.busy = false) ∧
    (let s := { State.reset with turns := [.enc] };
      s.turns.head? = some .enc ∧ s.enc.status.busy = false) :=
  ⟨⟨rfl, rfl⟩, rfl, rfl⟩

/-- The host reads a field with both engines idle. -/
theorem witness_IdleUntilCommandWrite :
    let s := hostAt (.readField .dec 0x10)
    s.dec.status.busy = false ∧ s.enc.status.busy = false ∧
      (∀ g v, HostMoves s (.writeField g 0x00 v) → v % 256 = 0) ∧ goesOn s :=
  ⟨rfl, rfl, fun g v h =>
      absurd (show some (HostOp.readField .dec 0x10) = some (.writeField g 0x00 v) from h.2)
        (fun h2 => by cases h2),
    goesOn_of (show nextIs (step (hostAt (.readField .dec 0x10))) _ = true by decide)⟩

end Sys2Proof.Tests
end

section
/-! PROOFS. One step of the machine under the invariant: every step keeps it, and what the steps of the
two engines leave of their commands (O3, O22, O57). -/

namespace Sys2Proof.StateProofs

open Sys2Proof.Machine Sys2Proof.Safety Sys2Proof.Laws

/-! ## The steps of the engines, by whose turn it is -/

theorem busy_of_decMoves {s : State} (h : DecMoves s) : s.dec.status.busy = true :=
  ((decRunning_iff _).mp h.2).1

theorem busy_of_encMoves {s : State} (h : EncMoves s) : s.enc.status.busy = true :=
  ((encRunning_iff _).mp h.2).1

/-- Inversion of a step of the machine that DEC takes (R107). -/
theorem stepWith_dec_next {cfg : Config} {s t : State} (hm : DecMoves s)
    (h : stepWith cfg s = .next t) :
    ∃ f, DecPath cfg s.endTurn f ∧ t = emitted (s.endTurn.mapDec f) :=
  decodePixel_next (stepWith_dec hm ▸ h)

/-- Inversion of a step of the machine that ENC takes: the header or a pixel (R118, R120). -/
theorem stepWith_enc_next {cfg : Config} {s t : State} (hm : EncMoves s)
    (h : stepWith cfg s = .next t) :
    (s.enc.op = 0 ∧ t = putDone (headerOut cfg s.enc) s.endTurn) ∨
      (s.enc.op ≠ 0 ∧ t = encPixelDone cfg s.endTurn) :=
  encodeStep_next (stepWith_enc hm ▸ h)

/-! ## The invariant -/

theorem inv_endTurn {cfg : Config} {s : State} (h : Inv cfg s) : Inv cfg s.endTurn :=
  inv_congr h rfl rfl rfl rfl

theorem inv_afterTake {cfg : Config} {s : State} (h : Inv cfg s) : Inv cfg (afterTake s) :=
  inv_congr h rfl rfl rfl rfl

/-- Every step keeps the invariant, under any parameters: one case for each agent that can move, and
one for a turn that passes. -/
theorem stepWith_keeps_inv {cfg : Config} {s t : State} (h : Inv cfg s)
    (ht : stepWith cfg s = .next t) : Inv cfg t := by
  rcases stepWith_cases cfg s with ⟨hm, -⟩ | ⟨hm, -⟩ | ⟨op, -, he⟩ | he
  · obtain ⟨f, hp, rfl⟩ := stepWith_dec_next hm ht
    have hb := busy_of_decMoves hm
    exact inv_emitted (s := s.endTurn) (inv_endTurn h) hb hp
  · have hb := busy_of_encMoves hm
    rcases stepWith_enc_next hm ht with ⟨h0, rfl⟩ | ⟨h0, rfl⟩
    · exact inv_header (s := s.endTurn) (inv_endTurn h) hb h0
    · exact inv_encPixel (s := s.endTurn) (inv_endTurn h) hb h0
  · exact inv_hostMove (inv_afterTake h) (he ▸ ht)
  · obtain rfl := Host.Outcome.next.inj (he.symm.trans ht)
    exact inv_endTurn h

/-- Settles O3, by the agent that moves. -/
theorem stepKeepsInv : Obligations.StepKeepsInv :=
  fun _ _ => stepWith_keeps_inv

/-! ## The stream pointer -/

/-- Of the three cases of R107 only the opcode moves SP, and by the opcode's length (R24). -/
theorem path_sp {cfg : Config} {s : State} {f : Decoder → Decoder} (hp : DecPath cfg s f) :
    (f s.dec).sp = s.dec.sp ∨ (s.dec.runcnt = 0 ∧ s.dec.sp < s.dec.limit ∧
      (f s.dec).sp = s.dec.sp + opLength (Memory.byteAt s.mem (fetchAddr s))) := by
  cases hp with
  | activeRun h => exact .inl rfl
  | opcode i h hlt hf => exact .inr ⟨h, hlt, by rw [opEffect_sp, (fetchOp_some hf).2]⟩
  | exhausted h hle => exact .inl rfl

/-- Settles O22: SP changes before the pixel is written, and LIMIT is FRAME_LEN - 8 while a DECODE
runs. -/
theorem streamPointerStaysInFrame : Obligations.StreamPointerStaysInFrame := by
  intro s t h hm ht
  have hu := h.decode (busy_of_decMoves hm)
  obtain ⟨f, hp, rfl⟩ := stepWith_dec_next hm ht
  have hk : PathKeeps s.dec (f s.dec) := path_keeps (s := s.endTurn) hp h.decCache h.decRun hu.spHigh
  have hhigh := hk.spHigh
  have hlimit : s.dec.limit + 8 = s.dec.frameLen := hu.limit
  rw [emitted_sp, mapDec_dec, endTurn_dec]
  refine ⟨hk.spUp, hhigh, by omega, ?_⟩
  simpa only [fetchAddr, endTurn_dec, endTurn_mem, hu.fb] using path_sp hp

/-! ## The frame of ENC's steps -/

/-- A pixel leaves ENC's command and latched copies alone, whichever branch of R120 it takes. -/
theorem pixelTaken_same {e e' : Encoder} {px : Pixel} {last : Bool} {out : List Byte}
    (h : PixelTaken e px last out e') : SameEncodeCommand e e' := by
  rw [h.frame]
  simp [SameEncodeCommand]

/-- A pixel step of ENC writes memory, the record of unseen writes and ENC's own state only. -/
theorem encPixelDone_frame (cfg : Config) (s : State) :
    encPixelDone cfg s = { s with
      enc := (encPixelDone cfg s).enc, mem := (encPixelDone cfg s).mem
      unseen := (encPixelDone cfg s).unseen } := by
  unfold encPixelDone
  split <;> rfl

/-- A pixel step of ENC leaves its command and latched copies alone (R39, R120). -/
theorem encPixelDone_same {cfg : Config} {s : State} (h : s.enc.runacc.toNat ≤ 60) :
    SameEncodeCommand s.enc (encPixelDone cfg s).enc := by
  have hp : SameEncodeCommand s.enc (encOut s).2 := pixelTaken_same (encodeOne_taken _ _ h)
  unfold encPixelDone encTaken
  generalize encOut s = out at hp ⊢
  split <;> exact hp

/-- ENC's read-write fields read as before where its command fields are kept. -/
theorem sameEncFields_of_command {e e' : Encoder} (h : SameEncodeCommand e e') :
    SameEncFields e e' := by
  obtain ⟨-, hsrc, hwidth, hheight, hch, hstride, hout, hcap, hcs, -⟩ := h
  exact sameEncFields_of hsrc hwidth hheight hch hstride hout hcap hcs

/-- Settles O57, for the header step and the pixel step. -/
theorem encodeStepFrame : Obligations.EncodeStepFrame := by
  intro s t h hm ht
  rcases stepWith_enc_next hm ht with ⟨-, rfl⟩ | ⟨-, rfl⟩
  · have hsame : SameEncodeCommand s.enc (putDone (headerOut Config.block s.enc) s.endTurn).enc := by
      simp [SameEncodeCommand, putDone]
    exact ⟨hsame, sameEncFields_of_command hsame, rfl, rfl, rfl⟩
  · have hsame : SameEncodeCommand s.enc (encPixelDone Config.block s.endTurn).enc :=
      encPixelDone_same (s := s.endTurn) h.encRun
    rw [encPixelDone_frame]
    exact ⟨hsame, sameEncFields_of_command hsame, rfl, rfl, rfl⟩

end Sys2Proof.StateProofs
end

section
/-! PROOFS. Power-on reset (O1, O2). -/

namespace Sys2Proof.StateProofs

open Sys2Proof.Machine Sys2Proof.Safety Sys2Proof.Laws

/-- Every field of DEC reads 0 after power-on (R41). -/
theorem readDecField_reset (no : Nat) : readDecField no Decoder.reset = 0 := by
  unfold readDecField
  split <;> rfl

/-- Every field of ENC reads 0 after power-on (R41). -/
theorem readEncField_reset (no : Nat) : readEncField no Encoder.reset = 0 := by
  unfold readEncField
  split <;> rfl

/-- Settles O1, field by field. -/
theorem resetFieldsReadZero : Obligations.ResetFieldsReadZero :=
  ⟨fun no => ⟨readDecField_reset no, readEncField_reset no⟩, rfl, rfl, rfl, rfl,
    fun k => ⟨blank_get k, blank_get k⟩, rfl, rfl, rfl, rfl, rfl, rfl, rfl, rfl, rfl, rfl, rfl, rfl,
    rfl, rfl, rfl, rfl⟩

theorem statusReset_legal : StatusLegal Status.reset := by simp [StatusLegal, Status.reset]

/-- After power-on the invariant holds under any parameters: every value is 0 and no command runs. -/
theorem inv_reset (cfg : Config) : Inv cfg State.reset := by
  have f0 : fits cfg 0 = true := fits_small (by omega)
  exact {
    memWf := rfl
    unseenOnce := List.nodup_nil
    decWidths := ⟨f0, f0, f0, f0, f0, f0, f0, f0, f0, f0, f0⟩
    encWidths := ⟨f0, f0, f0, f0, f0, f0, f0, f0, f0, f0⟩
    decStatus := statusReset_legal
    encStatus := statusReset_legal
    decCache := cacheHonest_blank
    encCache := cacheHonest_blank
    decRun := Nat.zero_le _
    encRun := Nat.zero_le _
    decode := nofun
    encode := nofun
    enginesApart := nofun }

/-- Settles O2. -/
theorem invAtReset : Obligations.InvAtReset := inv_reset Config.block

end Sys2Proof.StateProofs
end

section
/-! PROOFS. The STATUS byte and the host's field accesses (O44 to O47). -/

namespace Sys2Proof.StateProofs

open Sys2Proof.Machine Sys2Proof.Safety Sys2Proof.Laws

/-! ## STATUS -/

theorem codeNumber_lt (c : Code) : codeNumber c < 6 := by cases c <;> decide

/-- The STATUS byte's three parts do not overflow into one another (R37). -/
theorem statusByte_toNat (st : Status) :
    (statusByte st).toNat = codeNumber st.code + 64 * st.busy.toNat + 128 * st.done.toNat := by
  have hc := codeNumber_lt st.code
  have hb := Bool.toNat_le st.busy
  have hd := Bool.toNat_le st.done
  rw [statusByte, BitVec.toNat_ofNat, Nat.mod_eq_of_lt (by omega)]

/-- The code's number stands in bits 2:0 (R37, R145). -/
theorem statusByte_code (st : Status) : (statusByte st).toNat % 8 = codeNumber st.code := by
  have hc := codeNumber_lt st.code
  rw [statusByte_toNat]
  omega

/-- Settles O44, from the byte's value as a sum. -/
theorem statusByteLayout : Obligations.StatusByteLayout := by
  intro st
  have hcode := statusByte_code st
  have hc := codeNumber_lt st.code
  have hb := Bool.toNat_le st.busy
  have hd := Bool.toNat_le st.done
  have code_of {c : Code} (h : st.code = c) : (statusByte st).toNat % 8 = codeNumber c := h ▸ hcode
  refine ⟨code_of, code_of, code_of, code_of, code_of, code_of, ?_, ?_, ?_⟩
  · rw [statusByte_toNat]; omega
  · rw [statusByte_toNat, ← Bool.toNat_eq_one]; omega
  · rw [statusByte_toNat, ← Bool.toNat_eq_one]; omega

/-! ## Field writes that are dropped -/

/-- DEC's fields above 5 are read-only or unknown: a write is dropped (R34, R35). -/
theorem writeDecField_dropped (cfg : Config) {no : Nat} (v : Nat) (d : Decoder) (h : 5 < no) :
    writeDecField cfg no v d = d := by
  rw [writeDecField] <;> omega

/-- ENC's fields above 8 are read-only or unknown: a write is dropped (R34, R36). -/
theorem writeEncField_dropped (cfg : Config) {no : Nat} (v : Nat) (e : Encoder) (h : 8 < no) :
    writeEncField cfg no v e = e := by
  rw [writeEncField] <;> omega

theorem hostWriteDec_dropped (cfg : Config) {no : Nat} (v : Nat) {s : State}
    (h : s.dec.status.busy = true ∨ 5 < no) : hostWriteDec cfg no v s = .next s := by
  unfold hostWriteDec
  split
  · rfl
  · rename_i hb
    have hno : 5 < no := h.resolve_left hb
    rw [if_neg (by omega), State.mapDec, writeDecField_dropped cfg v s.dec hno]

theorem hostWriteEnc_dropped (cfg : Config) {no : Nat} (v : Nat) {s : State}
    (h : s.enc.status.busy = true ∨ 8 < no) : hostWriteEnc cfg no v s = .next s := by
  unfold hostWriteEnc
  split
  · rfl
  · rename_i hb
    have hno : 8 < no := h.resolve_left hb
    rw [if_neg (by omega), State.mapEnc, writeEncField_dropped cfg v s.enc hno]

/-- Settles O45: both engines drop the write, so only the move and the turn are used up. -/
theorem droppedFieldWrites : Obligations.DroppedFieldWrites := fun _ _ v =>
  ⟨fun hm h => (stepWith_host hm).trans (hostWriteDec_dropped _ v h),
    fun hm h => (stepWith_host hm).trans (hostWriteEnc_dropped _ v h)⟩

/-! ## Field writes that take effect -/

/-- What each field of DEC reads after a write to a read-write field (R34, R35). -/
theorem readDecField_writeDecField (cfg : Config) {no : Nat} (v m : Nat) (d : Decoder)
    (h1 : 1 ≤ no) (h5 : no ≤ 5) :
    readDecField m (writeDecField cfg no v d) =
      if m = no then v % (if no = 5 then 256 else cfg.memSize) else readDecField m d := by
  split
  · subst m
    interval_cases no <;> simp [writeDecField, readDecField, wrap_eq, toByte_toNat]
  · interval_cases no <;> unfold readDecField <;> split <;> trivial

/-- What each field of ENC reads after a write to a read-write field (R34, R36). -/
theorem readEncField_writeEncField (cfg : Config) {no : Nat} (v m : Nat) (e : Encoder)
    (h1 : 1 ≤ no) (h8 : no ≤ 8) :
    readEncField m (writeEncField cfg no v e) =
      if m = no then v % (if no = 4 ∨ no = 8 then 256
        else if no = 2 ∨ no = 3 then 4294967296 else cfg.memSize) else readEncField m e := by
  split
  · subst m
    interval_cases no <;> simp [writeEncField, readEncField, wrap_eq, toByte_toNat]
  · interval_cases no <;> unfold readEncField <;> split <;> trivial

/-- A write to a field of an idle DEC other than CMD touches that engine's fields only (R34). -/
theorem hostWriteDec_field (cfg : Config) {no : Nat} (v : Nat) {s : State}
    (hb : s.dec.status.busy = false) (h : 1 ≤ no) :
    hostWriteDec cfg no v s = .next (s.mapDec (writeDecField cfg no v)) := by
  rw [hostWriteDec, if_neg (by simp [hb]), if_neg (by omega)]

/-- A write to a field of an idle ENC other than CMD touches that engine's fields only (R34). -/
theorem hostWriteEnc_field (cfg : Config) {no : Nat} (v : Nat) {s : State}
    (hb : s.enc.status.busy = false) (h : 1 ≤ no) :
    hostWriteEnc cfg no v s = .next (s.mapEnc (writeEncField cfg no v)) := by
  rw [hostWriteEnc, if_neg (by simp [hb]), if_neg (by omega)]

/-- Settles O46, from what a field reads after a write. -/
theorem fieldsReadBackAsWritten : Obligations.FieldsReadBackAsWritten := by
  refine fun s no v => ⟨fun hm hb h1 h5 => ?_, fun hm hb h1 h8 => ?_⟩
  · have hread := fun m => readDecField_writeDecField Config.block v m s.dec h1 h5
    exact ⟨_, (stepWith_host hm).trans (hostWriteDec_field _ v hb h1), (hread no).trans (if_pos rfl),
      fun m hne => (hread m).trans (if_neg hne), rfl, rfl⟩
  · have hread := fun m => readEncField_writeEncField Config.block v m s.enc h1 h8
    exact ⟨_, (stepWith_host hm).trans (hostWriteEnc_field _ v hb h1), (hread no).trans (if_pos rfl),
      fun m hne => (hread m).trans (if_neg hne), rfl, rfl⟩

/-! ## Field reads -/

/-- CMD and the numbers outside DEC's table read as 0 (R34, R35). -/
theorem readDecField_unknown {no : Nat} (d : Decoder)
    (h : no = 0x00 ∨ (5 < no ∧ no < 0x10) ∨ 0x15 < no) : readDecField no d = 0 := by
  rw [readDecField] <;> omega

/-- CMD and the numbers outside ENC's table read as 0 (R34, R36). -/
theorem readEncField_unknown {no : Nat} (e : Encoder)
    (h : no = 0x00 ∨ (8 < no ∧ no < 0x10) ∨ 0x11 < no) : readEncField no e = 0 := by
  rw [readEncField] <;> omega

/-- Only a STATUS read with DONE = 1 settles unseen writes (R58). -/
theorem hostSaw_unseen {s : State} {e : Engine} {no : Nat} {st : Status}
    (h : no ≠ 0x10 ∨ st.done = false) : (s.hostSaw e no st).unseen = s.unseen := by
  rw [State.hostSaw, if_neg]
  simpa [imp_iff_not_or] using h

/-- Settles O47: the answer is what `readDecField` or `readEncField` gives, one clause for each number. -/
theorem fieldReadsReturnTheField : Obligations.FieldReadsReturnTheField := by
  refine fun s no => ⟨fun hm => ?_, fun hm => ?_⟩
  · refine ⟨_, readDecField no s.dec, stepWith_host hm, hostSaw_host .., hostSaw_mem ..,
      hostSaw_enc .., hostSaw_dec .., fun h => hostSaw_unseen h, ?_⟩
    refine ⟨?_, ?_, ?_, ?_, ?_, ?_, ?_, ?_, ?_, ?_, ?_, readDecField_unknown s.dec⟩ <;>
      rintro rfl <;> rfl
  · refine ⟨_, readEncField no s.enc, stepWith_host hm, hostSaw_host .., hostSaw_mem ..,
      hostSaw_dec .., hostSaw_enc .., fun h => hostSaw_unseen h, ?_⟩
    refine ⟨?_, ?_, ?_, ?_, ?_, ?_, ?_, ?_, ?_, ?_, readEncField_unknown s.enc⟩ <;>
      rintro rfl <;> rfl

end Sys2Proof.StateProofs
end

section
/-! PROOFS. What the host may load and store, and the starts the model refuses (O39, O48 to O51). -/

namespace Sys2Proof.MemoryProofs

open Sys2Proof.Machine Sys2Proof.Safety Sys2Proof.Laws

/-! ## Regions -/

/-- The addresses of a region (R44). -/
theorem inRegion_iff (r : Region) (a : Nat) :
    inRegion r a = true ↔ r.base ≤ a ∧ a < r.base + r.len := by
  simp only [inRegion, Bool.and_eq_true, decide_eq_true_eq]

/-- Settles O51. -/
theorem overlapMeansASharedByte : Obligations.OverlapMeansASharedByte := by
  intro r s
  simp only [regionsOverlap_iff, inRegion_iff]

/-! ## Starts beside a running command -/

theorem toByte_of_mod {v : Nat} {c : Byte} (h : v % 256 = c.toNat) : toByte v = c :=
  BitVec.eq_of_toNat_eq ((toByte_toNat v).trans h)

theorem decodeCommand_of_frame_meets {cfg : Config} {s : State}
    (hargs : firstFailing (decodeArgChecks cfg s.dec) = none)
    (hmeets : meetsRunningEnc s (frameRegion s.dec) = true) :
    decodeCommand cfg s = .refused .runningRegionsOverlap := by
  simp only [decodeCommand, hargs, hmeets, if_true]

theorem decodeCommand_of_dst_meets {cfg : Config} {s : State}
    (hargs : firstFailing (decodeArgChecks cfg s.dec) = none)
    (hheader : firstFailing (headerChecks cfg (readHeader s.mem s.dec.frameBase) ++
      decodeOutChecks cfg s.dec (readHeader s.mem s.dec.frameBase)) = none)
    (hmeets : meetsRunningEnc s (dstRegion s.dec) = true) :
    decodeCommand cfg s = .refused .runningRegionsOverlap := by
  by_cases hframe : meetsRunningEnc s (frameRegion s.dec) = true
  · exact decodeCommand_of_frame_meets hargs hframe
  · simp only [decodeCommand, hargs, hframe, hheader, hmeets, if_true, ite_self]

theorem peekCommand_of_frame_meets {cfg : Config} {s : State}
    (hargs : firstFailing (peekArgChecks cfg s.dec) = none)
    (hmeets : meetsRunningEnc s (frameRegion s.dec) = true) :
    peekCommand cfg s = .refused .runningRegionsOverlap := by
  simp only [peekCommand, hargs, hmeets, if_true]

theorem encodeCommand_of_meets {cfg : Config} {s : State}
    (hchecks : firstFailing (encodeChecks cfg s.enc) = none)
    (hmeets : meetsRunningDec s (srcRegion s.enc) = true ∨
      meetsRunningDec s (outRegion s.enc) = true) :
    encodeCommand cfg s = .refused .runningRegionsOverlap := by
  have hm := Bool.or_eq_true_iff.mpr hmeets
  simp only [encodeCommand, hchecks, hm, if_true]

/-- A code that the host writes to the CMD field of an idle DEC starts that command (R38). -/
theorem step_startDec {s : State} {v : Nat} {c : Byte} (hm : HostMoves s (.writeField .dec 0x00 v))
    (hb : s.dec.status.busy = false) (hv : v % 256 = c.toNat) (hc : c ≠ 0) :
    step s = startDecCommand Config.block c (afterTake s) := by
  have hv0 : v % 256 ≠ 0 := fun h0 => hc (BitVec.eq_of_toNat_eq (hv.symm.trans h0))
  rw [← toByte_of_mod hv]
  exact (stepWith_host hm).trans (hostWriteDec_command hb hv0)

/-- A code that the host writes to the CMD field of an idle ENC starts that command (R38). -/
theorem step_startEnc {s : State} {v : Nat} {c : Byte} (hm : HostMoves s (.writeField .enc 0x00 v))
    (hb : s.enc.status.busy = false) (hv : v % 256 = c.toNat) (hc : c ≠ 0) :
    step s = startEncCommand Config.block c (afterTake s) := by
  have hv0 : v % 256 ≠ 0 := fun h0 => hc (BitVec.eq_of_toNat_eq (hv.symm.trans h0))
  rw [← toByte_of_mod hv]
  exact (stepWith_host hm).trans (hostWriteEnc_command hb hv0)

/-- Settles O39: what R38 sets at the start is read neither by the checks nor by the regions. -/
theorem overlappingStartIsRefused : Obligations.OverlappingStartIsRefused := by
  refine ⟨fun s v hm hv hb hargs => ?_, fun s v hm hv hb hargs hmeets => ?_,
    fun s v hm hv hb hchecks hmeets => ?_⟩
  · have hstart : step s = decodeCommand Config.block ((afterTake s).mapDec (startDec 0x01)) :=
      step_startDec (c := 0x01) hm hb hv (by decide)
    exact ⟨fun hmeets => hstart.trans (decodeCommand_of_frame_meets hargs hmeets),
      fun hheader hmeets => hstart.trans (decodeCommand_of_dst_meets hargs hheader hmeets)⟩
  · have hstart : step s = peekCommand Config.block ((afterTake s).mapDec (startDec 0x03)) :=
      step_startDec (c := 0x03) hm hb hv (by decide)
    exact hstart.trans (peekCommand_of_frame_meets hargs hmeets)
  · have hstart : step s = encodeCommand Config.block ((afterTake s).mapEnc (startEnc 0x02)) :=
      step_startEnc (c := 0x02) hm hb hv (by decide)
    exact hstart.trans (encodeCommand_of_meets hchecks hmeets)

/-! ## Loads -/

theorem spanOk_one {cfg : Config} {a : Nat} : spanOk cfg a 1 = true ↔ a < cfg.memSize :=
  spanOk_iff cfg a 1

/-- A load with one value open gives that value and draws on no free value. -/
theorem hostReadByte_of_single {cfg : Config} {s : State} {a : Nat} {b : Byte}
    (ha : a < cfg.memSize) (hv : visibleBytes cfg s a = [b]) :
    hostReadByte cfg a s = .next (s.answer b.toNat) := by
  rw [hostReadByte, if_pos (spanOk_one.mpr ha), hv]

/-- A load answers one of the values open to it, the free value's choice where there are several (R58,
U6). -/
theorem hostReadByte_answers {cfg : Config} {s : State} {a : Nat} (ha : a < cfg.memSize) :
    ∃ (t : State) (i : Nat) (hi : i < (visibleBytes cfg s a).length),
      hostReadByte cfg a s = .next t ∧
      t.host.answers = (visibleBytes cfg s a)[i].toNat :: s.host.answers ∧
      ((visibleBytes cfg s a).length ≠ 1 →
        i = Config.seesByte s.host.reads % (visibleBytes cfg s a).length ∧
        t.host.reads = s.host.reads + 1) := by
  have hpos : 0 < (visibleBytes cfg s a).length := Nat.zero_lt_succ _
  rw [hostReadByte, if_pos (spanOk_one.mpr ha)]
  generalize visibleBytes cfg s a = vs at hpos
  match vs, hpos with
  | [b], _ => exact ⟨_, 0, by simp, rfl, rfl, fun h => absurd rfl h⟩
  | b :: c :: rest, hpos =>
    have hi := Nat.mod_lt (Config.seesByte s.host.reads) hpos
    refine ⟨_, _, hi, rfl, ?_, fun _ => ⟨rfl, rfl⟩⟩
    simp only [answer_answers, List.getD_eq_getElem _ _ hi]

/-- Settles O48. -/
theorem hostLoadSeesOldOrNew : Obligations.HostLoadSeesOldOrNew := by
  intro s a hm ha
  obtain ⟨t, i, hi, hread, hans, hopen⟩ := hostReadByte_answers (s := afterTake s) ha
  have hframe := hostReadByte_next hread
  simp only [visibleBytes_afterTake] at hi hans hopen
  refine ⟨t, i, hi, (stepWith_host hm).trans hread, hans, by rw [hframe]; rfl, by rw [hframe]; rfl,
    by rw [hframe]; rfl, by rw [hframe]; rfl, fun x => ?_, hopen⟩
  simp only [mem_visibleBytes, inRegion_dst, inRegion_out]

/-! ## Reads of STATUS -/

/-- A STATUS read with DONE = 1 leaves the other engine's entries (R58). -/
theorem mem_hostSaw_of_done {s : State} {e : Engine} {st : Status} {u : Unseen}
    (hd : st.done = true) : u ∈ (s.hostSaw e 0x10 st).unseen ↔ u ∈ s.unseen ∧ u.writer ≠ e := by
  simp [hostSaw_eq, hd]

/-- A STATUS read with DONE = 1 leaves no entry for a byte that the engine wrote last. -/
theorem addr_ne_of_hostSaw {s : State} {e : Engine} {st : Status} {u w : Unseen}
    (honce : (s.unseen.map Unseen.addr).Nodup) (hd : st.done = true) (hw : w ∈ s.unseen)
    (hwe : w.writer = e) (hu : u ∈ (s.hostSaw e 0x10 st).unseen) : u.addr ≠ w.addr := by
  intro haddr
  obtain ⟨hus, hue⟩ := (mem_hostSaw_of_done hd).mp hu
  exact hue (unseen_eq honce hus hw haddr ▸ hwe)

/-- A host read of STATUS with DONE = 1 answers the byte, settles the engine's writes and changes nothing
else (R58). -/
theorem answer_hostSaw_of_done {s : State} {e : Engine} {st : Status} (v : Nat)
    (honce : (s.unseen.map Unseen.addr).Nodup) (hd : st.done = true) :
    let t := (s.answer v).hostSaw e 0x10 st
    t.dec = s.dec ∧ t.enc = s.enc ∧ t.mem = s.mem ∧ t.host.answers = v :: s.host.answers ∧
      (∀ u : Unseen, u ∈ t.unseen ↔ u ∈ s.unseen ∧ u.writer ≠ e) ∧
      ∀ w ∈ s.unseen, w.writer = e → ∀ u ∈ t.unseen, u.addr ≠ w.addr :=
  ⟨hostSaw_dec .., hostSaw_enc .., hostSaw_mem .., by rw [hostSaw_host, answer_answers],
    fun _ => mem_hostSaw_of_done hd,
    fun _ hw hwe _ hu => addr_ne_of_hostSaw (s := s.answer v) honce hd hw hwe hu⟩

theorem ne_dec_iff {e : Engine} : e ≠ .dec ↔ e = .enc := by cases e <;> decide

theorem ne_enc_iff {e : Engine} : e ≠ .enc ↔ e = .dec := by cases e <;> decide

/-- Settles O49: the two reads of STATUS, and the load of a byte with one value open. -/
theorem doneReadMakesWritesVisible : Obligations.DoneReadMakesWritesVisible := by
  refine ⟨fun s h hm hd => ?_, fun s h hm hd => ?_, fun s a hm ha hseen hdec henc => ?_⟩
  · have hread := answer_hostSaw_of_done (s := afterTake s) (e := .dec)
      (statusByte s.dec.status).toNat h.unseenOnce hd
    simp only [ne_dec_iff] at hread
    exact ⟨_, stepWith_host hm, hread⟩
  · have hread := answer_hostSaw_of_done (s := afterTake s) (e := .enc)
      (statusByte s.enc.status).toNat h.unseenOnce hd
    simp only [ne_enc_iff] at hread
    exact ⟨_, stepWith_host hm, hread⟩
  · have hsingle : visibleBytes Config.block s a = [Memory.byteAt s.mem a] := by
      refine visibleBytes_of_seen hseen (fun hb => ?_) (fun hb => ?_)
      · rw [← Bool.not_eq_true, inRegion_dst]
        have := hdec hb
        omega
      · rw [← Bool.not_eq_true, inRegion_out]
        have := henc hb
        omega
    exact (stepWith_host hm).trans
      (hostReadByte_of_single ha ((visibleBytes_afterTake ..).trans hsingle))

/-! ## Stores -/

theorem hostWriteByte_outside {cfg : Config} {s : State} {a : Nat} (v : Byte)
    (ha : cfg.memSize ≤ a) : hostWriteByte cfg a v s = .fault (.addressOutsideMemory a) := by
  rw [hostWriteByte, if_neg (by rw [spanOk_one]; omega)]

theorem hostWriteByte_running {cfg : Config} {s : State} {a : Nat} (v : Byte)
    (ha : a < cfg.memSize) (hr : inRunningRegion s a = true) :
    hostWriteByte cfg a v s = .refused (.hostWritesRunningRegion a) := by
  rw [hostWriteByte, if_pos (spanOk_one.mpr ha), if_pos hr]

theorem hostWriteByte_free {cfg : Config} {s : State} {a : Nat} (v : Byte)
    (ha : a < cfg.memSize) (hr : inRunningRegion s a = false) :
    hostWriteByte cfg a v s = .next { s with
      mem := Memory.store s.mem a v, unseen := s.unseen.filter fun u => decide (u.addr ≠ a) } := by
  rw [hostWriteByte, if_pos (spanOk_one.mpr ha), if_neg (by simp [hr])]

/-- Settles O50: the three cases of a store. -/
theorem hostStoreKeepsOutOfRunningRegions : Obligations.HostStoreKeepsOutOfRunningRegions := by
  intro s a v h hm
  have hstep : step s = hostWriteByte Config.block a v (afterTake s) := stepWith_host hm
  refine ⟨fun ha => hstep.trans (hostWriteByte_outside v ha),
    fun ha hr => hstep.trans (hostWriteByte_running v ha hr),
    fun ha hr => ⟨_, hstep.trans (hostWriteByte_free v ha hr), byteAt_store_same h.memWf a v,
      fun x hx => byteAt_store_other hx v s.mem, rfl, rfl, fun u => ?_⟩⟩
  simp only [afterTake_unseen, List.mem_filter, decide_eq_true_eq]

end Sys2Proof.MemoryProofs
end

section
/-! PROOFS. What the engines' steps write, and that no other agent writes there or where a running
command reads (O52, O53, O58). Both engines are spoken of at once: each notion is a function of the
engine, and each fact about the model a lemma with one case for DEC and one for ENC. -/

namespace Sys2Proof.MemoryProofs

open Sys2Proof.Machine Sys2Proof.Safety Sys2Proof.Laws Sys2Proof.StateProofs

/-! ## An engine as a parameter -/

/-- A command of the engine runs. -/
def engineBusy : Engine → State → Bool
  | .dec, s => s.dec.status.busy
  | .enc, s => s.enc.status.busy

/-- The next step of the machine is a step of the engine. -/
def EngineMoves : Engine → State → Prop
  | .dec, s => DecMoves s
  | .enc, s => EncMoves s

/-- A step of the engine alone. -/
def engineStep (cfg : Config) : Engine → State → Host.Outcome State Fault Refusal
  | .dec => decodePixel cfg
  | .enc => encodeStep cfg

/-- How many steps the engine's command has left. -/
def stepsLeft : Engine → State → Nat
  | .dec, s => s.dec.n - s.dec.pix
  | .enc, s => encStepsLeft s.enc

/-- The region the engine's command reads: FRAME or SRC (R44). -/
def inputRegion : Engine → State → Region
  | .dec, s => frameRegion s.dec
  | .enc, s => srcRegion s.enc

/-- The region the engine's command writes: DST or OUT (R44). -/
def outputRegion : Engine → State → Region
  | .dec, s => dstRegion s.dec
  | .enc, s => outRegion s.enc

/-- The first address that the engine's command has not yet come to write: it writes upwards (R114,
R132). -/
def writeCursor : Engine → State → Nat
  | .dec, s => s.dec.dstBase + s.dec.pix * s.dec.outCh.toNat
  | .enc, s => s.enc.outBase + s.enc.op

/-- The engine's own state is the same. -/
def SameEngine : Engine → State → State → Prop
  | .dec, s, t => t.dec = s.dec
  | .enc, s, t => t.enc = s.enc

theorem busy_of_engineMoves {e : Engine} {s : State} (h : EngineMoves e s) :
    engineBusy e s = true := by
  cases e with
  | dec => exact busy_of_decMoves h
  | enc => exact busy_of_encMoves h

theorem stepWith_engine {cfg : Config} {e : Engine} {s : State} (h : EngineMoves e s) :
    stepWith cfg s = engineStep cfg e s.endTurn := by
  cases e with
  | dec => exact stepWith_dec h
  | enc => exact stepWith_enc h

/-- A step of the machine is a step of an engine, a move of the host, or a turn that passes. -/
theorem stepWith_agents (cfg : Config) (s : State) :
    (∃ e, EngineMoves e s ∧ stepWith cfg s = engineStep cfg e s.endTurn) ∨
      (∃ op, stepWith cfg s = hostMove cfg op (afterTake s)) ∨ stepWith cfg s = .next s.endTurn := by
  rcases stepWith_cases cfg s with h | h | ⟨op, -, h⟩ | h
  · exact .inl ⟨.dec, h⟩
  · exact .inl ⟨.enc, h⟩
  · exact .inr (.inl ⟨op, h⟩)
  · exact .inr (.inr h)

/-- Whether a command runs is the engine's own state. -/
theorem SameEngine.engineBusy_eq {e : Engine} {s t : State} (h : SameEngine e s t) :
    engineBusy e t = engineBusy e s := by
  cases e <;> simp only [SameEngine] at h <;> simp only [engineBusy, h]

/-- So is how many steps are left. -/
theorem SameEngine.stepsLeft_eq {e : Engine} {s t : State} (h : SameEngine e s t) :
    stepsLeft e t = stepsLeft e s := by
  cases e <;> simp only [SameEngine] at h <;> simp only [stepsLeft, h]

theorem sameEngine_endTurn (e : Engine) (s : State) : SameEngine e s s.endTurn := by
  cases e <;> rfl

/-! ## Regions apart -/

theorem not_inRegion_of_apart {r r' : Region} {a : Nat} (h : regionsOverlap r r' = false)
    (ha : inRegion r a = true) : inRegion r' a = false := by
  rw [← Bool.not_eq_true] at h ⊢
  exact fun ha' => h ((regionsOverlap_iff r r').mpr ⟨a, ha, ha'⟩)

/-- A byte that a running command reads or writes. -/
def InCommand (e : Engine) (s : State) (a : Nat) : Prop :=
  inRegion (inputRegion e s) a = true ∨ inRegion (outputRegion e s) a = true

/-- A command does not write what it reads (R46). -/
theorem input_apart_output {cfg : Config} {e : Engine} {s : State} {a : Nat} (h : Inv cfg s)
    (hb : engineBusy e s = true) (ha : inRegion (inputRegion e s) a = true) :
    inRegion (outputRegion e s) a = false := by
  cases e with
  | dec => exact not_inRegion_of_apart (h.decode hb).apart ha
  | enc => exact not_inRegion_of_apart (h.encode hb).apart ha

theorem not_meets_running {s : State} {r : Region} {a : Nat} (h : meetsRunningEnc s r = false)
    (hb : s.enc.status.busy = true) (ha : inRegion r a = true) :
    inRegion (srcRegion s.enc) a = false ∧ inRegion (outRegion s.enc) a = false := by
  simp only [meetsRunningEnc, hb, Bool.true_and, Bool.or_eq_false_iff] at h
  exact ⟨not_inRegion_of_apart h.1 ha, not_inRegion_of_apart h.2 ha⟩

/-- What one running command writes is no byte of the other's (R59). -/
theorem command_apart_output {cfg : Config} {e e' : Engine} {s : State} {a : Nat} (h : Inv cfg s)
    (hb : engineBusy e s = true) (hb' : engineBusy e' s = true) (hne : e' ≠ e)
    (ha : InCommand e s a) : inRegion (outputRegion e' s) a = false := by
  cases e <;> cases e'
  case dec.dec => exact absurd rfl hne
  case enc.enc => exact absurd rfl hne
  case dec.enc =>
    obtain ⟨hframe, hdst⟩ := h.enginesApart hb
    rcases ha with ha | ha
    · exact (not_meets_running hframe hb' ha).2
    · exact (not_meets_running hdst hb' ha).2
  case enc.dec =>
    obtain ⟨-, hdst⟩ := h.enginesApart hb'
    rw [← Bool.not_eq_true]
    intro ha'
    obtain ⟨hsrc, hout⟩ := not_meets_running hdst hb ha'
    rcases ha with ha | ha
    · exact absurd ha (by simp [inputRegion, hsrc])
    · exact absurd ha (by simp [outputRegion, hout])

/-! ## What a step of an engine does -/

/-- An engine writes the bytes from `a` up to `b`: memory takes them, and so does the record of unseen
writes. -/
def Wrote (e : Engine) (a b : Nat) (s t : State) : Prop :=
  ∃ bs : List Byte, b = a + bs.length ∧ t.mem = (s.engineStore e a bs).mem ∧
    t.unseen = (s.engineStore e a bs).unseen

theorem Wrote.le {e : Engine} {a b : Nat} {s t : State} (h : Wrote e a b s t) : a ≤ b := by
  obtain ⟨bs, rfl, -⟩ := h
  exact Nat.le_add_right a bs.length

theorem Wrote.byteAt_other {e : Engine} {a b x : Nat} {s t : State} (h : Wrote e a b s t)
    (hx : x < a ∨ b ≤ x) : Memory.byteAt t.mem x = Memory.byteAt s.mem x := by
  obtain ⟨bs, rfl, hmem, -⟩ := h
  rw [hmem]
  exact byteAt_storeAll_other s.mem a bs x hx

theorem Wrote.mem_unseen {e : Engine} {a b : Nat} {s t : State} (h : Wrote e a b s t) (u : Unseen) :
    u ∈ t.unseen ↔
      ((a ≤ u.addr ∧ u.addr < b) ∧ u.writer = e ∧ u.old = Memory.byteAt s.mem u.addr) ∨
        (u ∈ s.unseen ∧ ¬(a ≤ u.addr ∧ u.addr < b)) := by
  obtain ⟨bs, rfl, -, hunseen⟩ := h
  rw [hunseen]
  exact mem_recordUnseen

/-- All that a step of an engine does, as the other agents see it. -/
structure Advance (cfg : Config) (e : Engine) (s t : State) : Prop where
  inv : Inv cfg t
  wrote : Wrote e (writeCursor e s) (writeCursor e t) s t
  low : (outputRegion e s).base ≤ writeCursor e s
  high : writeCursor e t ≤ (outputRegion e s).base + (outputRegion e s).len
  left : stepsLeft e s = stepsLeft e t + 1
  ended : engineBusy e t = false → stepsLeft e t = 0
  input : inputRegion e t = inputRegion e s
  output : outputRegion e t = outputRegion e s
  other : ∀ e', e' ≠ e → SameEngine e' s t

/-- A pixel step of DEC leaves its command and latched copies alone and counts the pixel (R107). -/
theorem emitted_command {s : State} {f : Decoder → Decoder} (hk : PathKeeps s.dec (f s.dec)) :
    SameDecodeCommand s.dec (emitted (s.mapDec f)).dec ∧
      (emitted (s.mapDec f)).dec.pix = s.dec.pix + 1 := by
  have hsame := emitted_same (s.mapDec f)
  have hpix := emitted_pix (s.mapDec f)
  rw [mapDec_dec, hk.frame] at hsame hpix
  exact ⟨hsame, hpix⟩

/-- The cursor after a pixel step of DEC (R114). -/
theorem writeCursor_emitted {s : State} {f : Decoder → Decoder} (hk : PathKeeps s.dec (f s.dec)) :
    writeCursor .dec (emitted (s.mapDec f)) =
      s.dec.dstBase + (s.dec.pix + 1) * s.dec.outCh.toNat := by
  obtain ⟨⟨-, -, -, hdst, -, -, -, -, -, -, hch, -⟩, hpix⟩ := emitted_command hk
  simp only [writeCursor, hdst, hpix, hch]

/-- Before the last pixel the command goes on (R115). -/
theorem emitted_status {s : State} {f : Decoder → Decoder} (hk : PathKeeps s.dec (f s.dec))
    (h : s.dec.pix + 1 ≠ s.dec.n) : (emitted (s.mapDec f)).dec.status = s.dec.status := by
  have hdec : (emitted (s.mapDec f)).dec = pixelDone (f s.dec) := rfl
  rw [hdec, hk.frame, pixelDone_more]
  exact h

/-- The pixel step of DEC writes OUT_CH bytes at the cursor (R107, R114). -/
theorem advance_emitted {cfg : Config} {s : State} {f : Decoder → Decoder} (h : Inv cfg s)
    (hb : s.dec.status.busy = true) (hp : DecPath cfg s f) :
    Advance cfg .dec s (emitted (s.mapDec f)) := by
  have hu := h.decode hb
  have hrem := hu.remain
  have hroom := pixel_room hrem hu.room
  have hk := path_keeps hp h.decCache h.decRun hu.spHigh
  obtain ⟨⟨-, hframe, hlen, hdst, hcap, -, -, hn, -⟩, hpix⟩ := emitted_command hk
  have haddr : pixelAddr (f s.dec) = writeCursor .dec s := by
    rw [hk.frame, pixelAddr, hu.db]
    rfl
  have hout : (outBytes (f s.dec).srcCh (f s.dec).outCh (f s.dec).cur).length =
      s.dec.outCh.toNat := by
    rw [hk.frame]
    exact outBytes_length hu.outChOk _
  have hcur : writeCursor .dec (emitted (s.mapDec f)) = writeCursor .dec s + s.dec.outCh.toNat := by
    rw [writeCursor_emitted hk, writeCursor]
    ring
  refine ⟨inv_emitted h hb hp, ⟨outBytes (f s.dec).srcCh (f s.dec).outCh (f s.dec).cur, ?_, ?_, ?_⟩,
    Nat.le_add_right _ _, ?_, ?_, fun hend => ?_, ?_, ?_, fun e' hne => ?_⟩
  · rw [hcur, hout]
  · rw [← haddr]; rfl
  · rw [← haddr]; rfl
  · rw [hcur]
    simp only [writeCursor, outputRegion, dstRegion]
    omega
  · simp only [stepsLeft, hn, hpix]
    omega
  · by_contra hleft
    simp only [stepsLeft, hn, hpix] at hleft
    rw [engineBusy, emitted_status hk (by omega), hb] at hend
    cases hend
  · simp only [inputRegion, frameRegion, hframe, hlen]
  · simp only [outputRegion, dstRegion, hdst, hcap]
  · rw [ne_dec_iff] at hne
    subst hne
    rfl

/-- The header step of ENC writes 14 bytes at the cursor (R118). -/
theorem advance_header {cfg : Config} {s : State} (h : Inv cfg s) (hb : s.enc.status.busy = true)
    (h0 : s.enc.op = 0) : Advance cfg .enc s (putDone (headerOut cfg s.enc) s) := by
  have hu := h.encode hb
  have hroom := hu.room
  simp only [frameBound, minFrame] at hroom
  have hop : (putDone (headerOut cfg s.enc) s).enc.op = s.enc.op + 14 :=
    congrArg (s.enc.op + ·) (headerOut_length cfg s.enc)
  have hcur : writeCursor .enc (putDone (headerOut cfg s.enc) s) = writeCursor .enc s + 14 :=
    congrArg (s.enc.outBase + ·) hop
  refine ⟨inv_header h hb h0, ⟨headerOut cfg s.enc, ?_, ?_, ?_⟩, Nat.le_add_right _ _, ?_, ?_,
    fun hend => ?_, rfl, rfl, fun e' hne => ?_⟩
  · rw [hcur, headerOut_length]
  · simp only [putDone, hu.ob]; rfl
  · simp only [putDone, hu.ob]; rfl
  · rw [hcur]
    simp only [writeCursor, outputRegion, outRegion]
    omega
  · have hopne : (putDone (headerOut cfg s.enc) s).enc.op ≠ 0 := by omega
    simp only [stepsLeft, encStepsLeft, if_pos h0, if_neg hopne]
    simp only [putDone]
    omega
  · exact absurd hb (by simpa [engineBusy, putDone] using hend)
  · rw [ne_enc_iff] at hne
    subst hne
    rfl

/-- A pixel step of ENC writes at the cursor what it puts (R120, R131). -/
theorem encPixelDone_stores {cfg : Config} {s : State} (h : s.enc.runacc.toNat ≤ 60) :
    ∃ bs : List Byte, (encPixelDone cfg s).enc.op = s.enc.op + bs.length ∧
      (encPixelDone cfg s).mem = (s.engineStore .enc (s.enc.ob + s.enc.op) bs).mem ∧
      (encPixelDone cfg s).unseen = (s.engineStore .enc (s.enc.ob + s.enc.op) bs).unseen := by
  have hfr := (encodeOne_taken (readPixel s.mem s.enc) (encLast s) h).frame
  have hob : (encTaken s).enc.ob = s.enc.ob := by rw [encTaken, mapEnc_enc, encOut, hfr]
  have hop : (encTaken s).enc.op = s.enc.op := by rw [encTaken, mapEnc_enc, encOut, hfr]
  unfold encPixelDone
  split
  · exact ⟨_, congrArg (· + _) hop, by simp only [mapEnc_mem, putDone, hob, hop]; rfl,
      by simp only [mapEnc_unseen, putDone, hob, hop]; rfl⟩
  · exact ⟨_, congrArg (· + _) hop, by simp only [putDone, hob, hop]; rfl,
      by simp only [putDone, hob, hop]; rfl⟩

/-- A pixel step of ENC writes at the cursor and counts the pixel (R120, R131). -/
theorem advance_encPixelDone {cfg : Config} {s : State} (h : Inv cfg s)
    (hb : s.enc.status.busy = true) (h0 : s.enc.op ≠ 0) :
    Advance cfg .enc s (encPixelDone cfg s) := by
  have hu := h.encode hb
  have hrem := hu.remain
  obtain ⟨hlow, hop14, hcap⟩ := op_bound h hb h0
  obtain ⟨-, hop, -, -, -, hpix, hdec, -, -, hn, -, hbase, -, hmore⟩ :=
    encPixelDone_spec (cfg := cfg) h hb
  obtain ⟨bs, hop', hmem, hunseen⟩ := encPixelDone_stores (cfg := cfg) h.encRun
  obtain ⟨-, hsrc, hwidth, hheight, hch, -, -, houtCap, -⟩ := encPixelDone_same (cfg := cfg) h.encRun
  have htr : (if encLast s then cfg.trailer.toList else []).length ≤ 8 := by split <;> simp
  have hopne : (encPixelDone cfg s).enc.op ≠ 0 := by omega
  refine ⟨inv_encPixel h hb h0, ⟨bs, ?_, by rw [hmem, hu.ob]; rfl, by rw [hunseen, hu.ob]; rfl⟩,
    Nat.le_add_right _ _, ?_, ?_, fun hend => ?_, ?_, ?_, fun e' hne => ?_⟩
  · simp only [writeCursor, hbase, hop']
    omega
  · simp only [writeCursor, outputRegion, outRegion, hbase]
    omega
  · simp only [stepsLeft, encStepsLeft, if_neg h0, if_neg hopne, hn, hpix]
    omega
  · cases hl : encLast s with
    | false =>
      simp only [engineBusy, (hmore hl).1, hb] at hend
      cases hend
    | true =>
      have hlast := (encLast_iff s).mp hl
      simp only [stepsLeft, encStepsLeft, if_neg hopne, hn, hpix]
      omega
  · simp only [inputRegion, srcRegion, hsrc, hwidth, hheight, hch]
  · simp only [outputRegion, outRegion, hbase, houtCap]
  · rw [ne_enc_iff] at hne
    subst hne
    exact hdec

/-- Under the invariant a step of a running engine answers a next state. -/
theorem engineStep_advances {cfg : Config} {e : Engine} {s : State} (h : Inv cfg s)
    (hb : engineBusy e s = true) : ∃ t, engineStep cfg e s = .next t ∧ Advance cfg e s t := by
  cases e with
  | dec =>
    obtain ⟨f, hp, hstep⟩ := decodePixel_of_inv h hb
    exact ⟨_, hstep, advance_emitted h hb hp⟩
  | enc =>
    refine ⟨_, encodeStep_of_inv h hb, ?_⟩
    split
    · exact advance_header h hb ‹_›
    · exact advance_encPixelDone h hb ‹_›

/-- The turn is no part of what an engine's step does. -/
theorem advance_of_endTurn {cfg : Config} {e : Engine} {s t : State} (h : Advance cfg e s.endTurn t) :
    Advance cfg e s t := by
  have hother : ∀ e', e' ≠ e → SameEngine e' s t := fun e' hne => by
    cases e' <;> exact h.other _ hne
  cases e <;> exact ⟨h.inv, h.wrote, h.low, h.high, h.left, h.ended, h.input, h.output,
    hother⟩

/-- A step of the machine that an engine takes. -/
theorem stepWith_advances {cfg : Config} {e : Engine} {s t : State} (h : Inv cfg s)
    (hm : EngineMoves e s) (ht : stepWith cfg s = .next t) : Advance cfg e s t := by
  have hb : engineBusy e s.endTurn = true :=
    (sameEngine_endTurn e s).engineBusy_eq.trans (busy_of_engineMoves hm)
  obtain ⟨t', hstep, hadv⟩ := engineStep_advances (inv_endTurn h) hb
  obtain rfl : t' = t := by
    rw [stepWith_engine hm, hstep] at ht
    exact Host.Outcome.next.inj ht
  exact advance_of_endTurn hadv

/-- The cursor after a step of the machine that DEC takes (R114). -/
theorem writeCursor_dec_next {cfg : Config} {s t : State} (h : Inv cfg s) (hm : DecMoves s)
    (ht : stepWith cfg s = .next t) :
    writeCursor .dec t = s.dec.dstBase + (s.dec.pix + 1) * s.dec.outCh.toNat := by
  obtain ⟨f, hp, rfl⟩ := stepWith_dec_next hm ht
  have hu := h.decode (busy_of_decMoves hm)
  exact writeCursor_emitted (s := s.endTurn) (path_keeps hp h.decCache h.decRun hu.spHigh)

/-- The cursor after a step of ENC (R132). -/
theorem writeCursor_enc_next {cfg : Config} {s t : State} (h : Inv cfg s) (hm : EncMoves s)
    (ht : stepWith cfg s = .next t) : writeCursor .enc t = s.enc.outBase + t.enc.op := by
  have hbase : (outputRegion .enc t).base = (outputRegion .enc s).base :=
    congrArg Region.base (stepWith_advances (e := .enc) h hm ht).output
  exact congrArg (· + t.enc.op) hbase

/-- Settles O58: a step writes from the cursor before it to the cursor after it. -/
theorem engineWritesAreUnseen : Obligations.EngineWritesAreUnseen := by
  refine fun s t h ht => ⟨fun hm u => ?_, fun hm u => ?_⟩
  · rw [← writeCursor_dec_next h hm ht]
    exact (stepWith_advances (e := .dec) h hm ht).wrote.mem_unseen u
  · rw [← writeCursor_enc_next h hm ht]
    exact (stepWith_advances (e := .enc) h hm ht).wrote.mem_unseen u

/-- An engine's step changes no byte outside its command's output. -/
theorem Advance.byteAt_outside {cfg : Config} {e : Engine} {s t : State} {a : Nat}
    (h : Advance cfg e s t) (ha : inRegion (outputRegion e s) a = false) :
    Memory.byteAt t.mem a = Memory.byteAt s.mem a := by
  have hlow := h.low
  have hhigh := h.high
  rw [← Bool.not_eq_true, inRegion_iff] at ha
  exact h.wrote.byteAt_other (by omega)

/-- Settles O52: DEC's cursor ends at the last pixel's end, ENC's within OUT. -/
theorem enginesWriteOnlyTheirRegion : Obligations.EnginesWriteOnlyTheirRegion := by
  refine fun s t h ht => ⟨fun hm a ha => ?_, fun hm a ha => ?_⟩
  · have hrem : s.dec.pix < s.dec.n := (h.decode (busy_of_decMoves hm)).remain
    have hend : (s.dec.pix + 1) * s.dec.outCh.toNat ≤ s.dec.n * s.dec.outCh.toNat :=
      Nat.mul_le_mul_right _ hrem
    refine (stepWith_advances (e := .dec) h hm ht).wrote.byteAt_other ?_
    rw [writeCursor_dec_next h hm ht]
    simp only [writeCursor]
    omega
  · refine (stepWith_advances (e := .enc) h hm ht).byteAt_outside ?_
    rw [← Bool.not_eq_true, outputRegion, inRegion_out]
    omega

/-! ## What the other agents leave of a running command -/

/-- Two states look alike to an engine: its own state, and the bytes its command reads or writes. -/
structure LookAlike (e : Engine) (s t : State) : Prop where
  engine : SameEngine e s t
  bytes : ∀ a, InCommand e s a → Memory.byteAt t.mem a = Memory.byteAt s.mem a

/-- The host may not store to a byte of a running command (R59). -/
theorem inRunningRegion_of_inCommand {e : Engine} {s : State} {a : Nat}
    (hb : engineBusy e s = true) (ha : InCommand e s a) : inRunningRegion s a = true := by
  have hin := Bool.and_eq_true_iff.mpr ⟨hb, Bool.or_eq_true_iff.mpr ha⟩
  cases e with
  | dec => exact Bool.or_eq_true_iff.mpr (.inl hin)
  | enc => exact Bool.or_eq_true_iff.mpr (.inr hin)

/-- A field write touches no memory and no engine but the one addressed, and that one only while it is
idle (R34). -/
theorem hostWriteDec_next {cfg : Config} {no v : Nat} {s t : State}
    (h : hostWriteDec cfg no v s = .next t) :
    t.mem = s.mem ∧ t.enc = s.enc ∧ (s.dec.status.busy = true → t.dec = s.dec) := by
  unfold hostWriteDec at h
  split at h
  · cases h; exact ⟨rfl, rfl, fun _ => rfl⟩
  · rename_i hidle
    have hvac : s.dec.status.busy = true → t.dec = s.dec := fun hb => absurd hb hidle
    split at h
    · split at h
      · cases h; exact ⟨rfl, rfl, hvac⟩
      · obtain ⟨hmem, henc, -⟩ := startDecCommand_next h
        exact ⟨hmem, henc, hvac⟩
    · cases h; exact ⟨rfl, rfl, hvac⟩

theorem hostWriteEnc_next {cfg : Config} {no v : Nat} {s t : State}
    (h : hostWriteEnc cfg no v s = .next t) :
    t.mem = s.mem ∧ t.dec = s.dec ∧ (s.enc.status.busy = true → t.enc = s.enc) := by
  unfold hostWriteEnc at h
  split at h
  · cases h; exact ⟨rfl, rfl, fun _ => rfl⟩
  · rename_i hidle
    have hvac : s.enc.status.busy = true → t.enc = s.enc := fun hb => absurd hb hidle
    split at h
    · split at h
      · cases h; exact ⟨rfl, rfl, hvac⟩
      · obtain ⟨hmem, hdec, -⟩ := startEncCommand_next h
        exact ⟨hmem, hdec, hvac⟩
    · cases h; exact ⟨rfl, rfl, hvac⟩

/-- A move of the host leaves running engines and the bytes of their commands alone (R34, R59). -/
theorem hostMove_spares {cfg : Config} {op : HostOp} {s t : State} (h : hostMove cfg op s = .next t) :
    (∀ e, engineBusy e s = true → SameEngine e s t) ∧
      ∀ a, inRunningRegion s a = true → Memory.byteAt t.mem a = Memory.byteAt s.mem a := by
  have untouched {u : State} (hm : u.mem = s.mem) (a : Nat) (_ : inRunningRegion s a = true) :
      Memory.byteAt u.mem a = Memory.byteAt s.mem a := by rw [hm]
  have both {u : State} (hd : s.dec.status.busy = true → u.dec = s.dec)
      (he : s.enc.status.busy = true → u.enc = s.enc) :
      ∀ e, engineBusy e s = true → SameEngine e s u
    | .dec => hd
    | .enc => he
  cases op with
  | writeField e no v => cases e with
    | dec =>
      obtain ⟨hmem, henc, hdec⟩ := hostWriteDec_next h
      exact ⟨both hdec fun _ => henc, untouched hmem⟩
    | enc =>
      obtain ⟨hmem, hdec, henc⟩ := hostWriteEnc_next h
      exact ⟨both (fun _ => hdec) henc, untouched hmem⟩
  | readField e no =>
    cases e <;> cases h <;>
      exact ⟨both (fun _ => hostSaw_dec ..) fun _ => hostSaw_enc .., untouched (hostSaw_mem ..)⟩
  | writeByte a v =>
    obtain ⟨-, hfree, rfl⟩ := hostWriteByte_next h
    refine ⟨both (fun _ => rfl) fun _ => rfl, fun x hx => byteAt_store_other ?_ v s.mem⟩
    rintro rfl
    exact absurd hx (by simp [hfree])
  | readByte a =>
    rw [hostReadByte_next h]
    exact ⟨both (fun _ => rfl) fun _ => rfl, untouched rfl⟩

/-- A step that is not the engine's own leaves a running command as it was, its bytes in memory
included (R59, R61). -/
theorem stepWith_lookAlike {cfg : Config} {e : Engine} {s t : State} (h : Inv cfg s)
    (hb : engineBusy e s = true) (hm : ¬EngineMoves e s) (ht : stepWith cfg s = .next t) :
    LookAlike e s t := by
  rcases stepWith_agents cfg s with ⟨e', hm', -⟩ | ⟨op, hstep⟩ | hstep
  · have hne : e' ≠ e := by
      rintro rfl
      exact hm hm'
    have hadv := stepWith_advances h hm' ht
    exact ⟨hadv.other e hne.symm, fun a ha => hadv.byteAt_outside
      (command_apart_output h hb (busy_of_engineMoves hm') hne ha)⟩
  · obtain ⟨hsame, hbytes⟩ := hostMove_spares (hstep.symm.trans ht)
    have hrun {a : Nat} (ha : InCommand e s a) : inRunningRegion s a = true :=
      inRunningRegion_of_inCommand hb ha
    refine ⟨?_, fun a ha => hbytes a (hrun ha)⟩
    cases e with
    | dec => exact hsame .dec hb
    | enc => exact hsame .enc hb
  · obtain rfl := Host.Outcome.next.inj (hstep.symm.trans ht)
    exact ⟨sameEngine_endTurn e s, fun a _ => rfl⟩

/-- No step changes what a running command reads (R61). -/
theorem stepWith_keeps_input {cfg : Config} {e : Engine} {s t : State} (h : Inv cfg s)
    (hb : engineBusy e s = true) (ht : stepWith cfg s = .next t) {a : Nat}
    (ha : inRegion (inputRegion e s) a = true) :
    Memory.byteAt t.mem a = Memory.byteAt s.mem a := by
  by_cases hm : EngineMoves e s
  · exact (stepWith_advances h hm ht).byteAt_outside (input_apart_output h hb ha)
  · exact (stepWith_lookAlike h hb hm ht).bytes a (.inl ha)

/-- The bytes of a running ENCODE's SRC (R44, R142). -/
theorem srcRegion_eq {cfg : Config} {e : Encoder} (h : EncodeUnderWay cfg e) :
    srcRegion e = ⟨e.sb, e.n * e.ch.toNat⟩ := by
  rw [srcRegion, h.sb, h.n, h.ch]

/-- Settles O53, for FRAME and for SRC. -/
theorem inputsOfRunningCommandsAreConstant : Obligations.InputsOfRunningCommandsAreConstant := by
  refine fun s t h ht => ⟨fun hb a hlow hhigh => ?_, fun hb a hlow hhigh => ?_⟩
  · exact stepWith_keeps_input (e := .dec) h hb ht ((inRegion_iff _ a).mpr ⟨hlow, hhigh⟩)
  · refine stepWith_keeps_input (e := .enc) h hb ht ?_
    have hu := h.encode hb
    rw [inputRegion, srcRegion_eq hu, hu.sb]
    exact (inRegion_iff _ a).mpr ⟨hlow, hhigh⟩

end Sys2Proof.MemoryProofs
end

section
/-! PROOFS. The value a load may see early is the one the command writes (O59): the engine's remaining
steps write the same bytes from every state that looks alike to it, and none of them writes a byte
again. -/

namespace Sys2Proof.MemoryProofs

open Sys2Proof.Machine Sys2Proof.Safety Sys2Proof.Laws Sys2Proof.StateProofs

/-! ## States that look alike to an engine -/

/-- A string of writes reads the same in memories that agree outside it. -/
theorem byteAt_storeAll_congr {m m' : Memory} (hm : Memory.wf m = true) (hm' : Memory.wf m' = true)
    {a : Nat} (x : Nat) (bs : List Byte) (h : Memory.byteAt m' a = Memory.byteAt m a) :
    Memory.byteAt (Memory.storeAll m' x bs) a = Memory.byteAt (Memory.storeAll m x bs) a := by
  by_cases hin : a < x ∨ x + bs.length ≤ a
  · rw [byteAt_storeAll_other m' x bs a hin, byteAt_storeAll_other m x bs a hin, h]
  · obtain ⟨j, rfl⟩ := Nat.exists_eq_add_of_le (show x ≤ a by omega)
    have hj : j < bs.length := by omega
    rw [byteAt_storeAll_same hm' x bs j hj, byteAt_storeAll_same hm x bs j hj]

/-- The opcode fetched lies in FRAME, its payload past LIMIT in the trailer included (R109). -/
theorem fetchOp_congr {cfg : Config} {s s' : State} (hu : DecodeUnderWay cfg s.dec)
    (h : LookAlike .dec s s') (hsp : s.dec.sp < s.dec.limit) : fetchOp cfg s' = fetchOp cfg s := by
  have hdec : s'.dec = s.dec := h.engine
  have hlimit : s.dec.limit + 8 = s.dec.frameLen := hu.limit
  have hfb := hu.fb
  have haddr : fetchAddr s' = fetchAddr s := by rw [fetchAddr, fetchAddr, hdec]
  have hbyte {k : Nat} (hk : k ≤ 4) : Memory.byteAt s'.mem (fetchAddr s + k) =
      Memory.byteAt s.mem (fetchAddr s + k) := by
    refine h.bytes _ (.inl ((inRegion_iff _ _).mpr ?_))
    simp only [inputRegion, frameRegion, fetchAddr]
    omega
  have htag : Memory.byteAt s'.mem (fetchAddr s) = Memory.byteAt s.mem (fetchAddr s) :=
    hbyte (Nat.zero_le 4)
  simp only [fetchOp, haddr, htag, hbyte (show 1 ≤ 4 by decide), hbyte (show 2 ≤ 4 by decide),
    hbyte (show 3 ≤ 4 by decide), hbyte (Nat.le_refl 4)]

/-- DEC takes the same case of R107. -/
theorem decPath_congr {cfg : Config} {s s' : State} {f : Decoder → Decoder}
    (hu : DecodeUnderWay cfg s.dec) (h : LookAlike .dec s s') (hp : DecPath cfg s f) :
    DecPath cfg s' f := by
  have hdec : s'.dec = s.dec := h.engine
  cases hp with
  | activeRun hr => exact .activeRun (hdec ▸ hr)
  | opcode i hr hsp hf => exact .opcode i (hdec ▸ hr) (hdec ▸ hsp) ((fetchOp_congr hu h hsp).trans hf)
  | exhausted hr hsp => exact .exhausted (hdec ▸ hr) (hdec ▸ hsp)

/-- ENC reads the same source pixel (R119). -/
theorem readPixel_congr {cfg : Config} {s s' : State} (hu : EncodeUnderWay cfg s.enc)
    (h : LookAlike .enc s s') : readPixel s'.mem s.enc = readPixel s.mem s.enc := by
  have hroom := pixel_room hu.remain (Nat.le_refl (s.enc.n * s.enc.ch.toNat))
  have hbyte {k : Nat} (hk : k < s.enc.ch.toNat) : Memory.byteAt s'.mem (sourceAddr s.enc + k) =
      Memory.byteAt s.mem (sourceAddr s.enc + k) := by
    refine h.bytes _ (.inl ((inRegion_iff _ _).mpr ?_))
    rw [inputRegion, srcRegion_eq hu, sourceAddr]
    dsimp only
    omega
  have hch := (channelsOk_iff s.enc.ch).mp hu.chOk
  have hred : Memory.byteAt s'.mem (sourceAddr s.enc) = Memory.byteAt s.mem (sourceAddr s.enc) :=
    hbyte (k := 0) (by omega)
  have halpha (h4 : s.enc.ch = 4) : Memory.byteAt s'.mem (sourceAddr s.enc + 3) =
      Memory.byteAt s.mem (sourceAddr s.enc + 3) := hbyte (by rw [h4]; decide)
  simp only [readPixel, hred, hbyte (k := 1) (by omega), hbyte (k := 2) (by omega)]
  split
  · rw [halpha ‹_›]
  · rfl

/-- The bytes and the engine after a pixel step of ENC are decided by the engine before it and the
source pixel (R120). -/
theorem encPixelDone_congr {cfg : Config} {s s' : State} (henc : s'.enc = s.enc)
    (hpx : readPixel s'.mem s.enc = readPixel s.mem s.enc) :
    (encPixelDone cfg s').enc = (encPixelDone cfg s).enc ∧
      ∃ x bs, (encPixelDone cfg s).mem = Memory.storeAll s.mem x bs ∧
        (encPixelDone cfg s').mem = Memory.storeAll s'.mem x bs := by
  have hlast : encLast s' = encLast s := by rw [encLast, encLast, henc]
  have hout : encOut s' = encOut s := by rw [encOut, encOut, henc, hpx, hlast]
  have htaken : (encTaken s').enc = (encTaken s).enc := by simp only [encTaken, mapEnc_enc, hout, henc]
  unfold encPixelDone
  rw [hlast, hout]
  split
  · refine ⟨by simp only [mapEnc_enc, putDone, htaken], _, _, rfl, ?_⟩
    simp only [mapEnc_mem, putDone, htaken]
    rfl
  · refine ⟨by simp only [putDone, htaken], _, _, rfl, ?_⟩
    simp only [putDone, htaken]
    rfl

/-- A running engine's step does the same in states that look alike to it: it ends up the same and
stores the same bytes at the same place. -/
theorem engineStep_congr {cfg : Config} {e : Engine} {s s' t t' : State} (h : Inv cfg s)
    (h' : Inv cfg s') (hb : engineBusy e s = true) (hl : LookAlike e s s')
    (ht : engineStep cfg e s = .next t) (ht' : engineStep cfg e s' = .next t') :
    SameEngine e t t' ∧ ∃ x bs, t.mem = Memory.storeAll s.mem x bs ∧
      t'.mem = Memory.storeAll s'.mem x bs := by
  cases e with
  | dec =>
    have hdec : s'.dec = s.dec := hl.engine
    obtain ⟨f, hp, rfl⟩ := decodePixel_next ht
    have hp' := decPath_congr (h.decode hb) hl hp
    obtain rfl := emitPixel_next ((decodePixel_of_path hp').symm.trans ht')
    refine ⟨congrArg (fun d => pixelDone (f d)) hdec, _, _, rfl, ?_⟩
    simp only [emitted, mapDec_dec, hdec]
    rfl
  | enc =>
    have henc : s'.enc = s.enc := hl.engine
    have hpx := readPixel_congr (h.encode hb) hl
    have hb' : s'.enc.status.busy = true := henc ▸ hb
    obtain rfl := Host.Outcome.next.inj ((encodeStep_of_inv h hb).symm.trans ht)
    obtain rfl := Host.Outcome.next.inj ((encodeStep_of_inv h' hb').symm.trans ht')
    rw [henc]
    split
    · refine ⟨by simp only [SameEngine, putDone, henc], _, _, rfl, ?_⟩
      simp only [putDone, henc]
      rfl
    · exact encPixelDone_congr henc hpx

/-- States that look alike to a running engine still do after its step in both. -/
theorem lookAlike_engineStep {cfg : Config} {e : Engine} {s s' t t' : State} (h : Inv cfg s)
    (h' : Inv cfg s') (hb : engineBusy e s = true) (hl : LookAlike e s s')
    (ht : engineStep cfg e s = .next t) (ht' : engineStep cfg e s' = .next t')
    (hadv : Advance cfg e s t) : LookAlike e t t' := by
  obtain ⟨hsame, x, bs, hmem, hmem'⟩ := engineStep_congr h h' hb hl ht ht'
  refine ⟨hsame, fun a ha => ?_⟩
  rw [hmem, hmem']
  refine byteAt_storeAll_congr h.memWf h'.memWf x bs (hl.bytes a ?_)
  rwa [InCommand, hadv.input, hadv.output] at ha

/-! ## Looking ahead -/

/-- The byte at an address once the engine has taken the steps its command has left. -/
def aheadByte (cfg : Config) : Engine → State → Nat → Byte
  | .dec => decAhead cfg
  | .enc => encAhead cfg

theorem aheadByte_eq (cfg : Config) (e : Engine) (s : State) (a : Nat) : aheadByte cfg e s a =
    Memory.byteAt (engineAhead (engineStep cfg e) (stepsLeft e s) s).mem a := by
  cases e <;> rfl

theorem aheadByte_endTurn (cfg : Config) (e : Engine) (s : State) (a : Nat) :
    aheadByte cfg e s.endTurn a = aheadByte cfg e s a := by
  cases e with
  | dec => exact decAhead_port cfg _ _ s a
  | enc => exact encAhead_port cfg _ _ s a

/-- A command with no step left has written all its bytes. -/
theorem aheadByte_of_ended {cfg : Config} {e : Engine} {s : State} (h : stepsLeft e s = 0) (a : Nat) :
    aheadByte cfg e s a = Memory.byteAt s.mem a := by
  rw [aheadByte_eq, h, engineAhead_zero]

/-- The engine's next step is the first of those it looks ahead to. -/
theorem aheadByte_of_step {cfg : Config} {e : Engine} {s t : State}
    (ht : engineStep cfg e s = .next t) (hleft : stepsLeft e s = stepsLeft e t + 1) (a : Nat) :
    aheadByte cfg e s a = aheadByte cfg e t a := by
  rw [aheadByte_eq, aheadByte_eq, hleft, engineAhead_succ _ ht]

/-- Between commands the engine has no step left, so one with a step left runs. -/
def RunsToEnd (e : Engine) (s : State) : Prop := engineBusy e s = false → stepsLeft e s = 0

theorem runsToEnd_of_busy {e : Engine} {s : State} (h : engineBusy e s = true) : RunsToEnd e s :=
  fun hidle => Bool.noConfusion (h.symm.trans hidle)

theorem RunsToEnd.busy {e : Engine} {s : State} {k : Nat} (h : RunsToEnd e s)
    (hk : stepsLeft e s = k + 1) : engineBusy e s = true := by
  rw [← Bool.not_eq_false]
  intro hb
  have := h hb
  omega

/-- No remaining step writes below the cursor. -/
theorem aheadByte_below_cursor {cfg : Config} {e : Engine} {s : State} {a : Nat} (h : Inv cfg s)
    (hr : RunsToEnd e s) (ha : a < writeCursor e s) :
    aheadByte cfg e s a = Memory.byteAt s.mem a := by
  induction hk : stepsLeft e s generalizing s with
  | zero => exact aheadByte_of_ended hk a
  | succ k ih =>
    obtain ⟨t, ht, hadv⟩ := engineStep_advances h (hr.busy hk)
    have hle := hadv.wrote.le
    have hleft := hadv.left
    calc aheadByte cfg e s a = aheadByte cfg e t a := aheadByte_of_step ht hadv.left a
      _ = Memory.byteAt t.mem a := ih hadv.inv hadv.ended (by omega) (by omega)
      _ = Memory.byteAt s.mem a := hadv.wrote.byteAt_other (.inl ha)

/-- From states that look alike to an engine its remaining steps leave the same bytes in the command's
regions. -/
theorem aheadByte_congr {cfg : Config} {e : Engine} {s s' : State} {a : Nat} (h : Inv cfg s)
    (h' : Inv cfg s') (hr : RunsToEnd e s) (hl : LookAlike e s s') (ha : InCommand e s a) :
    aheadByte cfg e s' a = aheadByte cfg e s a := by
  induction hk : stepsLeft e s generalizing s s' with
  | zero =>
    rw [aheadByte_of_ended hk, aheadByte_of_ended (hl.engine.stepsLeft_eq.trans hk)]
    exact hl.bytes a ha
  | succ k ih =>
    have hb := hr.busy hk
    obtain ⟨t, ht, hadv⟩ := engineStep_advances h hb
    obtain ⟨t', ht', hadv'⟩ := engineStep_advances h' (hl.engine.engineBusy_eq.trans hb)
    have hleft := hadv.left
    have hin : InCommand e t a := by rwa [InCommand, hadv.input, hadv.output]
    calc aheadByte cfg e s' a = aheadByte cfg e t' a := aheadByte_of_step ht' hadv'.left a
      _ = aheadByte cfg e t a := ih hadv.inv hadv'.inv hadv.ended
          (lookAlike_engineStep h h' hb hl ht ht' hadv) hin (by omega)
      _ = aheadByte cfg e s a := (aheadByte_of_step ht hadv.left a).symm

/-- What a load may see early of a running command: no step changes it, and it is in memory from the
step that writes it and when the command ends. -/
theorem aheadByte_is_written {cfg : Config} {e : Engine} {s t : State} {a : Nat} (h : Inv cfg s)
    (hb : engineBusy e s = true) (ht : stepWith cfg s = .next t)
    (ha : inRegion (outputRegion e s) a = true) :
    (engineBusy e t = true → aheadByte cfg e t a = aheadByte cfg e s a) ∧
      (engineBusy e t = false → Memory.byteAt t.mem a = aheadByte cfg e s a) ∧
      (EngineMoves e s → a < writeCursor e t → Memory.byteAt t.mem a = aheadByte cfg e s a) := by
  by_cases hm : EngineMoves e s
  · have hadv := stepWith_advances h hm ht
    have hinv := hadv.inv
    have hnext : aheadByte cfg e s a = aheadByte cfg e t a := by
      rw [← aheadByte_endTurn]
      exact aheadByte_of_step ((stepWith_engine hm).symm.trans ht)
        ((sameEngine_endTurn e s).stepsLeft_eq.trans hadv.left) a
    rw [hnext]
    exact ⟨fun _ => rfl, fun hidle => (aheadByte_of_ended (hadv.ended hidle) a).symm,
      fun _ hlt => (aheadByte_below_cursor hinv hadv.ended hlt).symm⟩
  · have hl := stepWith_lookAlike h hb hm ht
    have hbusy : engineBusy e t = true := hl.engine.engineBusy_eq.trans hb
    exact ⟨fun _ => aheadByte_congr h (stepWith_keeps_inv h ht) (runsToEnd_of_busy hb) hl (.inr ha),
      fun hidle => Bool.noConfusion (hbusy.symm.trans hidle), fun hm' => absurd hm' hm⟩

/-- Settles O59, for DST and for OUT. -/
theorem earlyValueIsTheOneWritten : Obligations.EarlyValueIsTheOneWritten := by
  refine fun s t h ht => ⟨fun hb a hlow hhigh => ?_, fun hb a hlow hhigh => ?_⟩
  · obtain ⟨hstays, hended, hwritten⟩ :=
      aheadByte_is_written (e := .dec) h hb ht ((inRegion_dst s.dec a).mpr ⟨hlow, hhigh⟩)
    exact ⟨hstays, hended, fun hm _ hlt => hwritten hm (writeCursor_dec_next h hm ht ▸ hlt)⟩
  · obtain ⟨hstays, hended, hwritten⟩ :=
      aheadByte_is_written (e := .enc) h hb ht ((inRegion_out s.enc a).mpr ⟨hlow, hhigh⟩)
    exact ⟨hstays, hended, fun hm _ hlt => hwritten hm (writeCursor_enc_next h hm ht ▸ hlt)⟩

end Sys2Proof.MemoryProofs
end

section
/-! PROOFS. The opcodes' encoding: the tag byte's ranges and lengths, and that the decoder and the encoder
of opcodes undo each other (O4 to O8). -/

namespace Sys2Proof.EncodingProofs

open Sys2Proof.Laws

/-! ## Operands in range -/

theorem diff_wf_iff (dr dg db : Int) : (Instr.diff dr dg db).wf = true ↔
    (-2 ≤ dr ∧ dr ≤ 1) ∧ (-2 ≤ dg ∧ dg ≤ 1) ∧ -2 ≤ db ∧ db ≤ 1 := by
  simp [Instr.wf, diffDeltaOk, inRange, and_assoc]

theorem luma_wf_iff (vg drg dbg : Int) : (Instr.luma vg drg dbg).wf = true ↔
    (-32 ≤ vg ∧ vg ≤ 31) ∧ (-8 ≤ drg ∧ drg ≤ 7) ∧ -8 ≤ dbg ∧ dbg ≤ 7 := by
  simp [Instr.wf, lumaGreenOk, lumaCrossOk, inRange, and_assoc]

theorem run_wf_iff (n : Nat) : (Instr.run n).wf = true ↔ n ≤ 61 := by
  simp [Instr.wf, runFieldOk]

/-! ## From an opcode to its bytes and back -/

/-- The parser reads each opcode off its own bytes, the bytes after the tag read as 0 where there are
none (R74 to R78). -/
theorem decodeOp_encode {i : Instr} (hw : i.wf = true) {b1 : Byte} {payload : List Byte}
    (he : encode i = b1 :: payload) :
    decodeOp b1 (payload.getD 0 0) (payload.getD 1 0) (payload.getD 2 0) (payload.getD 3 0) = i := by
  cases i with
  | rgb r g b => cases he; rfl
  | rgba r g b a => cases he; rfl
  | index k =>
    cases he
    have hk : k.val < 64 := k.isLt
    have htag := byteOf_toNat (x := 0x00 + (k.val : Int)) (by omega) (by omega)
    rw [decodeOp_index _ _ _ _ (by omega), Instr.index.injEq]
    apply Fin.ext
    rw [Fin.val_ofNat]
    omega
  | diff dr dg db =>
    cases he
    have hr := (diff_wf_iff dr dg db).mp hw
    have htag := byteOf_toNat (x := 0x40 + 16 * (dr + 2) + 4 * (dg + 2) + (db + 2)) (by omega)
      (by omega)
    rw [decodeOp_diff _ _ _ _ (by omega) (by omega), Instr.diff.injEq]
    omega
  | luma vg drg dbg =>
    cases he
    have hr := (luma_wf_iff vg drg dbg).mp hw
    have htag := byteOf_toNat (x := 0x80 + (vg + 32)) (by omega) (by omega)
    have hcross := byteOf_toNat (x := 16 * (drg + 8) + (dbg + 8)) (by omega) (by omega)
    rw [decodeOp_luma _ _ _ _ (by omega) (by omega), Instr.luma.injEq, List.getD_cons_zero]
    omega
  | run n =>
    cases he
    have hr := (run_wf_iff n).mp hw
    have htag := byteOf_toNat (x := 0xC0 + (n : Int)) (by omega) (by omega)
    rw [decodeOp_run _ _ _ _ (by omega) (by omega), Instr.run.injEq]
    omega

/-- A well-formed opcode's bytes are as many as its tag byte names (R66). -/
theorem encode_tag_names_length (i : Instr) : TagNamesLength.Statement i := by
  cases i with
  | rgb r g b => exact TagNamesLength.rgb r g b
  | rgba r g b a => exact TagNamesLength.rgba r g b a
  | index k => exact TagNamesLength.index k
  | diff dr dg db => exact TagNamesLength.diff dr dg db
  | luma vg drg dbg => exact TagNamesLength.luma vg drg dbg
  | run n => exact TagNamesLength.run n

/-- The decoder on a whole opcode with a string after it: the string is left, and has no part in the
opcode (R66, R98). -/
theorem decode_append {b1 : Byte} {payload : List Byte} (h : payload.length + 1 = opLength b1)
    (rest : List Byte) :
    decode (b1 :: payload ++ rest) = .ok (decodeOp b1 (payload.getD 0 0) (payload.getD 1 0)
      (payload.getD 2 0) (payload.getD 3 0), rest) := by
  have hroom : opLength b1 ≤ (payload ++ rest).length + 1 := by rw [List.length_append]; omega
  have hget : ∀ k, k + 2 ≤ opLength b1 → (payload ++ rest).getD k 0 = payload.getD k 0 :=
    fun k hk => List.getD_append _ _ _ _ (by omega)
  have hdrop : (payload ++ rest).drop (opLength b1 - 1) = rest :=
    List.drop_left' (by omega)
  rw [List.cons_append, decode_cons hroom, hdrop,
    decodeOp_congr (hget 0) (hget 1) (hget 2) (hget 3)]

/-- Settles O4: the opcode's own bytes give it back, and the bytes that follow are not looked at. -/
theorem decodeOfEncode : Obligations.DecodeOfEncode := by
  intro i rest hw
  obtain ⟨b1, payload, he, hlen⟩ := encode_tag_names_length i hw
  rw [he, decode_append hlen, decodeOp_encode hw he]

/-! ## From bytes to an opcode and back -/

/-- A parsed opcode is encoded by its tag byte and as many of the bytes after it as it uses (R66,
R84). -/
theorem encode_decodeOp (b1 b2 b3 b4 b5 : Byte) :
    encode (decodeOp b1 b2 b3 b4 b5) = b1 :: [b2, b3, b4, b5].take (opLength b1 - 1) := by
  rcases tag_cases b1 with rfl | rfl | h | h | h | h
  · rfl
  · rfl
  · have htag : byteOf (0x00 + ((Fin.ofNat 64 b1.toNat : Slot).val : Int)) = b1 := by
      rw [Fin.val_ofNat, byteOf_eq_iff] <;> omega
    rw [decodeOp_index _ _ _ _ h, opLength_one (.inl (by omega)), encode, htag]
    rfl
  · rw [decodeOp_diff _ _ _ _ h.1 h.2, opLength_one (.inl h.2), encode,
      (byteOf_eq_iff b1 (by omega) (by omega)).mpr (by omega)]
    rfl
  · have hb2 := b2.isLt
    rw [decodeOp_luma _ _ _ _ h.1 h.2, opLength_two h.1 h.2, encode,
      (byteOf_eq_iff b1 (by omega) (by omega)).mpr (by omega),
      (byteOf_eq_iff b2 (by omega) (by omega)).mpr (by omega)]
    rfl
  · rw [decodeOp_run _ _ _ _ h.1 h.2, opLength_one (.inr h), encode,
      (byteOf_eq_iff b1 (by omega) (by omega)).mpr (by omega)]
    rfl

/-- Read one at a time, the first bytes of a string that is long enough are the string's first
bytes. -/
theorem take_getD {l : List Byte} {k : Nat} (hk : k ≤ 4) (hl : k ≤ l.length) :
    [l.getD 0 0, l.getD 1 0, l.getD 2 0, l.getD 3 0].take k = l.take k := by
  refine List.ext_getElem (by simp; omega) fun j hj _ => ?_
  have hjk : j < k := by simp at hj; omega
  obtain rfl | rfl | rfl | rfl : j = 0 ∨ j = 1 ∨ j = 2 ∨ j = 3 := by omega
  all_goals simp [List.getElem?_eq_getElem (hjk.trans_le hl)]

/-- Settles O5: the opcode's bytes and the rest make up the string again. -/
theorem encodeOfDecode : Obligations.EncodeOfDecode := by
  intro bs i rest h
  cases bs with
  | nil => cases h
  | cons b1 tail =>
    have hroom := decode_ok_length h
    have hlen := opLength_bounds b1
    obtain ⟨rfl, rfl⟩ := Prod.mk.inj (Except.ok.inj ((decode_cons hroom).symm.trans h))
    refine ⟨decodeOp_wf _ _ _ _ _, ?_⟩
    rw [encode_decodeOp, take_getD (by omega) (by omega), List.cons_append, List.take_append_drop]

/-! ## The tag byte -/

/-- Settles O6, by the six ranges of the tag byte. -/
theorem tagValuePicksOpcode : Obligations.TagValuePicksOpcode := by
  intro b1 b2 b3 b4 b5
  dsimp only
  refine ⟨fun h => ?_, fun h h' => ?_, fun h h' => ?_, decodeOp_run _ _ _ _, fun h => ?_,
    fun h => ?_⟩
  · rw [decodeOp_index _ _ _ _ h]
    exact congrArg Instr.index (Fin.ext (Nat.mod_eq_of_lt h))
  · rw [decodeOp_diff _ _ _ _ h h', Instr.diff.injEq]
    omega
  · rw [decodeOp_luma _ _ _ _ h h', Instr.luma.injEq]
    omega
  · rw [(byte_eq_iff b1 0xFE).mpr h, decodeOp_rgb]
  · rw [(byte_eq_iff b1 0xFF).mpr h, decodeOp_rgba]

/-- The length of an opcode by its tag byte's value (R66). -/
theorem opLength_eq (b1 : Byte) : opLength b1 =
    if b1.toNat = 254 then 4 else if b1.toNat = 255 then 5
      else if 128 ≤ b1.toNat ∧ b1.toNat < 192 then 2 else 1 := by
  rcases tag_cases b1 with rfl | rfl | h | h | h | h
  · rfl
  · rfl
  · rw [opLength_one (.inl (by omega)), if_neg (by omega), if_neg (by omega), if_neg (by omega)]
  · rw [opLength_one (.inl h.2), if_neg (by omega), if_neg (by omega), if_neg (by omega)]
  · rw [opLength_two h.1 h.2, if_neg (by omega), if_neg (by omega), if_pos h]
  · rw [opLength_one (.inr h), if_neg (by omega), if_neg (by omega), if_neg (by omega)]

/-- The decoder fails on a string that ends inside its opcode. -/
theorem decode_short {b1 : Byte} {rest : List Byte} (h : rest.length + 1 < opLength b1) :
    decode (b1 :: rest) = .error (.payloadMissing (opLength b1) (rest.length + 1)) := by
  simp [decode, h]

/-- Settles O7. -/
theorem decoderTakesOpcodeLength : Obligations.DecoderTakesOpcodeLength := by
  intro b1 rest
  dsimp only
  rw [← opLength_eq]
  exact ⟨fun h => ⟨_, decode_short h⟩, fun h => ⟨_, decode_cons h⟩⟩

/-- A byte string that is an opcode's encoding decodes to it. -/
theorem decode_of_encode_eq {i : Instr} {bs : List Byte} (hw : i.wf = true) (he : encode i = bs) :
    decode bs = .ok (i, []) := by
  simpa [he] using decodeOfEncode i [] hw

/-- Settles O8: each word is the encoding of its opcode, so O4 decodes it. -/
theorem opcodeWordsDecode : Obligations.OpcodeWordsDecode :=
  ⟨decode_of_encode_eq rfl rfl, decode_of_encode_eq rfl rfl,
    decode_of_encode_eq (by decide) (by decide), decode_of_encode_eq (by decide) (by decide),
    decode_of_encode_eq (by decide) (by decide), decode_of_encode_eq (by decide) (by decide)⟩

end Sys2Proof.EncodingProofs
end

section
/-! PROOFS. What the encoder never emits (O31). -/

namespace Sys2Proof.EncodingProofs

open Sys2Proof.Machine Sys2Proof.Laws

/-! ## The predictor -/

/-- The branches a to e, each with all that sends a pixel to it and the opcode it gives (R121, R126 to
R130). -/
inductive PredictBranch (c : PixelCache) (cur px : Pixel) : Instr → Prop where
  | index (hit : c.get (hashSlot px) = px) : PredictBranch c cur px (.index (hashSlot px))
  | diff (miss : c.get (hashSlot px) ≠ px) (fits : diffFits px cur = true) :
      PredictBranch c cur px
        (.diff (delta8 px.r cur.r) (delta8 px.g cur.g) (delta8 px.b cur.b))
  | luma (miss : c.get (hashSlot px) ≠ px) (noDiff : diffFits px cur = false)
      (fits : lumaFits px cur = true) :
      PredictBranch c cur px
        (.luma (delta8 px.g cur.g) (delta8 px.r cur.r - delta8 px.g cur.g)
          (delta8 px.b cur.b - delta8 px.g cur.g))
  | rgb (miss : c.get (hashSlot px) ≠ px) (noDiff : diffFits px cur = false)
      (noLuma : lumaFits px cur = false) (alpha : px.a = cur.a) :
      PredictBranch c cur px (.rgb px.r px.g px.b)
  | rgba (miss : c.get (hashSlot px) ≠ px) (noDiff : diffFits px cur = false)
      (noLuma : lumaFits px cur = false) (alpha : px.a ≠ cur.a) :
      PredictBranch c cur px (.rgba px.r px.g px.b px.a)

/-- Inversion of the predictor. -/
theorem predict_branch (c : PixelCache) (cur px : Pixel) :
    PredictBranch c cur px (predict c cur px) := by
  simp only [predict, cacheLookup, decide_eq_true_eq]
  split
  case isTrue hit => exact .index hit
  case isFalse miss =>
  split
  case isTrue fits => exact .diff miss fits
  case isFalse noDiff =>
  rw [Bool.not_eq_true] at noDiff
  split
  case isTrue fits => exact .luma miss noDiff fits
  case isFalse noLuma =>
  rw [Bool.not_eq_true] at noLuma
  split
  case isTrue alpha => exact .rgb miss noDiff noLuma alpha
  case isFalse alpha => exact .rgba miss noDiff noLuma alpha

/-- `DiffFits` asks for kept alpha and for deltas that DIFF can hold (R127). -/
theorem diffFits_iff (px cur : Pixel) : diffFits px cur = true ↔ px.a = cur.a ∧
    (Instr.diff (delta8 px.r cur.r) (delta8 px.g cur.g) (delta8 px.b cur.b)).wf = true := by
  simp [diffFits, Instr.wf, and_assoc]

/-- `LumaFits` asks for kept alpha and for deltas that LUMA can hold (R128). -/
theorem lumaFits_iff (px cur : Pixel) : lumaFits px cur = true ↔ px.a = cur.a ∧
    (Instr.luma (delta8 px.g cur.g) (delta8 px.r cur.r - delta8 px.g cur.g)
      (delta8 px.b cur.b - delta8 px.g cur.g)).wf = true := by
  simp [lumaFits, Instr.wf, and_assoc]

/-! ## Opcodes that may be emitted -/

/-- What R81 leaves the encoder to emit for a pixel. -/
def MayEmit (e : Encoder) (px : Pixel) (i : Instr) : Prop :=
  i.wf = true ∧ (∀ n, i = .run n → n ≤ 60) ∧
    (∀ k, i = .index k → k = hashSlot px ∧ e.cache.get k = px) ∧
    (∀ dr dg db, i = .diff dr dg db → px.a = e.cur.a) ∧
    (∀ vg drg dbg, i = .luma vg drg dbg → px.a = e.cur.a)

theorem mayEmit_run (e : Encoder) (px : Pixel) {n : Nat} (h : n ≤ 60) : MayEmit e px (.run n) :=
  ⟨(run_wf_iff n).mpr (by omega), fun _ hn => Instr.run.inj hn ▸ h, nofun, nofun, nofun⟩

/-- The predictor's opcode may be emitted, whichever branch it is from. -/
theorem mayEmit_predict (e : Encoder) (px : Pixel) : MayEmit e px (predict e.cache e.cur px) := by
  have hb := predict_branch e.cache e.cur px
  generalize predict e.cache e.cur px = i at hb ⊢
  cases hb with
  | index hit => exact ⟨rfl, nofun, fun k hk => Instr.index.inj hk ▸ ⟨rfl, hit⟩, nofun, nofun⟩
  | diff _ fits =>
    obtain ⟨ha, hw⟩ := (diffFits_iff px e.cur).mp fits
    exact ⟨hw, nofun, nofun, fun _ _ _ _ => ha, nofun⟩
  | luma _ _ fits =>
    obtain ⟨ha, hw⟩ := (lumaFits_iff px e.cur).mp fits
    exact ⟨hw, nofun, nofun, nofun, fun _ _ _ _ => ha⟩
  | rgb => exact ⟨rfl, nofun, nofun, nofun, nofun⟩
  | rgba => exact ⟨rfl, nofun, nofun, nofun, nofun⟩

/-! ## Bytes that are emitted opcodes -/

/-- The bytes are those of at most so many opcodes, each one that may be emitted for the pixel. -/
def EmitsAtMost (k : Nat) (e : Encoder) (px : Pixel) (bs : List Byte) : Prop :=
  ∃ ops : List Instr, bs = ops.flatMap encode ∧ ops.length ≤ k ∧ ∀ i ∈ ops, MayEmit e px i

section emits
variable {j k : Nat} {e : Encoder} {px : Pixel} {bs cs : List Byte} {i : Instr}

theorem emits_nil (k : Nat) (e : Encoder) (px : Pixel) : EmitsAtMost k e px [] :=
  ⟨[], rfl, Nat.zero_le k, nofun⟩

theorem emits_encode (h : MayEmit e px i) : EmitsAtMost 1 e px (encode i) :=
  ⟨[i], by simp, Nat.le_refl 1, by simpa using h⟩

theorem emits_append (h : EmitsAtMost j e px bs) (h' : EmitsAtMost k e px cs) :
    EmitsAtMost (j + k) e px (bs ++ cs) := by
  obtain ⟨ops, rfl, hlen, hops⟩ := h
  obtain ⟨ops', rfl, hlen', hops'⟩ := h'
  exact ⟨ops ++ ops', List.flatMap_append.symm, by rw [List.length_append]; omega,
    fun i hi => (List.mem_append.mp hi).elim (hops i) (hops' i)⟩

theorem emits_mono (hjk : j ≤ k) (h : EmitsAtMost j e px bs) : EmitsAtMost k e px bs := by
  obtain ⟨ops, hbs, hlen, hops⟩ := h
  exact ⟨ops, hbs, hlen.trans hjk, hops⟩

end emits

/-- A flush puts at most one RUN, of a run that had at most 60 pixels (R124). -/
theorem emits_runFlush {e : Encoder} (px : Pixel) (h : e.runacc.toNat ≤ 60) :
    EmitsAtMost 1 e px (runFlush e).1 := by
  unfold runFlush
  split
  · exact emits_encode (mayEmit_run e px (by omega))
  · exact emits_nil 1 e px

/-- A pixel equal to CUR puts at most one RUN, and its field is at most 60 (R123). -/
theorem emits_runExtend {e : Encoder} (px : Pixel) (last : Bool) (h : e.runacc.toNat ≤ 60) :
    EmitsAtMost 1 e px (runExtend e last).1 := by
  have hacc : (e.runacc + 1).toNat - 1 ≤ 60 := by bv_omega
  unfold runExtend
  dsimp only
  split
  · exact emits_encode (mayEmit_run e px hacc)
  · exact emits_nil 1 e px

/-- Settles O31, by the two cases of R120: a pixel equal to CUR, or a flush and the predictor's
opcode. -/
theorem encoderNeverEmits : Obligations.EncoderNeverEmits := by
  intro e px last h
  change EmitsAtMost 2 e px (encodeOne e px last).1
  unfold encodeOne
  split
  · exact emits_mono (by decide) (emits_runExtend px last h)
  · exact emits_append (emits_runFlush px h) (emits_encode (mayEmit_predict e px))

end Sys2Proof.EncodingProofs
end

section
/-! PROOFS. The pixel cache: its hash, and that the decoder's cache and CUR follow the encoder's (O16,
O34). -/

namespace Sys2Proof.CacheProofs

open Sys2Proof.Machine Sys2Proof.Laws Sys2Proof.EncodingProofs

/-! ## The hash -/

/-- The weighted sum of R85, before it is reduced to a slot number. -/
def hashSum (p : Pixel) : Nat :=
  3 * p.r.toNat + 5 * p.g.toNat + 7 * p.b.toNat + 11 * p.a.toNat

theorem hashSlot_val (p : Pixel) : (hashSlot p).val = hashSum p % 64 := rfl

theorem hashSum_le (p : Pixel) : hashSum p ≤ 6630 := by
  have hr := p.r.isLt
  have hg := p.g.isLt
  have hb := p.b.isLt
  have ha := p.a.isLt
  unfold hashSum
  omega

/-- The sum in `w` bits is the sum reduced to `w` bits: wrapping early or late is the same. -/
theorem hashSum_wrapped (w : Nat) (p : Pixel) :
    3#w * p.r.setWidth w + 5#w * p.g.setWidth w + 7#w * p.b.setWidth w + 11#w * p.a.setWidth w =
      BitVec.ofNat w (hashSum p) := by
  simp only [hashSum, BitVec.ofNat_add, BitVec.ofNat_mul, BitVec.ofNat_toNat]

/-- Settles O16: 64 divides 2^w, so wrapping to `w` bits keeps the low six (R86). -/
theorem hashInAnyWidth : Obligations.HashInAnyWidth := by
  intro w p hw
  have hdvd : 64 ∣ 2 ^ w := Nat.pow_dvd_pow 2 hw
  refine ⟨hashSum_le p, hashSlot_val p, ?_⟩
  rw [hashSum_wrapped, BitVec.toNat_ofNat, Nat.mod_mod_of_dvd _ hdvd, hashSlot_val]

/-! ## The decoder follows the encoder -/

/-- The wrapped delta leads from the old channel value to the new one (R122). -/
theorem add8_delta8 (new old : Byte) : add8 old (delta8 new old) = new := by
  obtain ⟨-, -, hnew⟩ := delta8_spec new old
  have hsum := add8_toNat old (delta8 new old)
  exact BitVec.eq_of_toNat_eq (by omega)

/-- The wrapped deltas lead from CUR to any pixel of the same alpha. -/
theorem movePixel_delta8 {px cur : Pixel} (ha : px.a = cur.a) :
    movePixel cur (delta8 px.r cur.r) (delta8 px.g cur.g) (delta8 px.b cur.b) = px := by
  simp only [movePixel, add8_delta8, ← ha]

/-- The predictor's opcode resolves the pixel, whichever branch it is from. INDEX does not insert, but
the slot it hits holds the pixel already (R95). -/
theorem opEffect_predict (d : Decoder) (px : Pixel) :
    ∃ k, opEffect (predict d.cache d.cur px) d = (d.resolve px).advance k := by
  have hb := predict_branch d.cache d.cur px
  generalize predict d.cache d.cur px = i at hb ⊢
  cases hb with
  | index hit =>
    have hread : cacheRead d.cache (hashSlot px) = px := hit
    have hres : d.recall px = d.resolve px := by
      rw [Decoder.recall, Decoder.resolve, cacheInsert_of_hit hit]
    exact ⟨1, by rw [opEffect, hread, hres]⟩
  | diff _ fits =>
    obtain ⟨ha, -⟩ := (diffFits_iff px d.cur).mp fits
    exact ⟨1, by rw [opEffect, movePixel_delta8 ha]⟩
  | luma _ _ fits =>
    obtain ⟨ha, -⟩ := (lumaFits_iff px d.cur).mp fits
    exact ⟨2, by rw [opEffect, add_sub_cancel, add_sub_cancel, movePixel_delta8 ha]⟩
  | rgb _ _ _ alpha => exact ⟨4, by rw [opEffect, ← alpha]⟩
  | rgba => exact ⟨5, rfl⟩

/-- The encoder's cache after a pixel is the cache with the pixel inserted, lookup hit or not (R120). -/
theorem absorb_cache (e : Encoder) (px : Pixel) : (e.absorb px).cache = cacheInsert e.cache px := by
  simp only [Encoder.absorb, cacheLookup, decide_eq_true_eq]
  split
  case isTrue hit => exact (cacheInsert_of_hit hit).symm
  case isFalse => rfl

/-- A pixel that differs from CUR becomes CUR and enters the cache: the flush touches neither. -/
theorem encodeOne_cur_cache {e : Encoder} {px : Pixel} (last : Bool) (hpx : px ≠ e.cur) :
    (encodeOne e px last).2.cur = px ∧
      (encodeOne e px last).2.cache = cacheInsert e.cache px := by
  rw [encodeOne, if_neg hpx]
  exact ⟨rfl, by rw [absorb_cache, runFlush_runacc]⟩

/-- Settles O34: both engines make the pixel CUR and insert it into the same cache. -/
theorem decoderFollowsEncoder : Obligations.DecoderFollowsEncoder := by
  intro e s px hcur hcache hpx
  obtain ⟨hecur, hecache⟩ := encodeOne_cur_cache false hpx
  obtain ⟨hwf, -⟩ := mayEmit_predict e px
  obtain ⟨k, hk⟩ := opEffect_predict s.dec px
  rw [hcur, hcache] at hk
  refine ⟨hwf, _, exec_eq _ s, ?_⟩
  simp [hk, hecur, hecache, hcache]

end Sys2Proof.CacheProofs
end

section
/-! PROOFS. The six opcodes, each from its bytes to its effect on DEC, and what none of them changes
(O9 to O15). The state each runs to is the one `exec_eq` gives, and `opEffect` shows by computation
which fields it keeps. -/

namespace Sys2Proof.OpcodeProofs

open Sys2Proof.Machine Sys2Proof.Safety Sys2Proof.Laws Sys2Proof.CacheProofs

/-! ## Opcodes that resolve a pixel -/

/-- `cacheInsert_get` with the slot given by its number. -/
theorem cacheInsert_get_hashSum (c : PixelCache) (p : Pixel) (k : Slot) :
    (cacheInsert c p).get k = if k.val = hashSum p % 64 then p else c.get k := by
  simp only [cacheInsert_get, Fin.ext_iff, hashSlot_val]

/-- Settles O9: the pixel resolved is the payload with CUR's alpha. -/
theorem rgbSetsColourKeepsAlpha : Obligations.RgbSetsColourKeepsAlpha := fun r g b s =>
  ⟨decodeOp_rgb r g b, _, exec_eq _ s, rfl, cacheInsert_get_hashSum _ _, rfl, rfl⟩

/-- Settles O10: the pixel resolved is the payload. -/
theorem rgbaSetsAllChannels : Obligations.RgbaSetsAllChannels := fun r g b a s =>
  ⟨decodeOp_rgba r g b a, _, exec_eq _ s, rfl, cacheInsert_get_hashSum _ _, rfl, rfl⟩

/-- Settles O12: the tag byte lies in DIFF's range and holds the deltas, and the pixel resolved is CUR
moved by them. -/
theorem diffAddsDeltasModulo256 : Obligations.DiffAddsDeltasModulo256 := by
  intro dr dg db s
  refine ⟨fun hr hg hb b1 b2 b3 b4 b5 htag => ?_, _, exec_eq _ s, add8_toNat _ _, add8_toNat _ _,
    add8_toNat _ _, rfl, cacheInsert_get_hashSum _ _, rfl, rfl⟩
  rw [decodeOp_diff _ _ _ _ (by omega) (by omega), Instr.diff.injEq]
  omega

/-- Settles O13: the tag byte lies in LUMA's range, and the pixel resolved is CUR with red and blue
moved by the green delta and their own. -/
theorem lumaAddsGreenAndCrossDeltas : Obligations.LumaAddsGreenAndCrossDeltas := by
  intro vg drg dbg s
  refine ⟨fun hg hr hb b1 b2 b3 b4 b5 htag hcross => ?_, _, exec_eq _ s, add8_toNat _ _,
    add8_toNat _ _, add8_toNat _ _, rfl, cacheInsert_get_hashSum _ _, rfl, rfl⟩
  rw [decodeOp_luma _ _ _ _ (by omega) (by omega), Instr.luma.injEq]
  omega

/-! ## Opcodes that leave the cache -/

/-- A slot of an honest cache that holds a pixel of another hash was never written (R96). -/
theorem blank_of_foreign {c : PixelCache} {k : Slot} (hc : CacheHonest c)
    (h : hashSum (c.get k) % 64 ≠ k.val) : c.get k = Pixel.blank :=
  (hc k).resolve_right fun hk => h (congrArg Fin.val hk)

/-- Settles O11: CUR takes the slot as stored, so what an honest cache gives is its own slot's pixel or
blank. -/
theorem indexCopiesSlotVerbatim : Obligations.IndexCopiesSlotVerbatim := by
  intro k s
  refine ⟨fun b1 b2 b3 b4 b5 htag => ?_, _, exec_eq _ s, rfl, rfl, rfl, blank_of_foreign⟩
  have hk : b1.toNat < 64 := htag ▸ k.isLt
  rw [decodeOp_index _ _ _ _ hk, Instr.index.injEq]
  exact Fin.ext ((Nat.mod_eq_of_lt hk).trans htag)

/-- RUNCNT holds every field of RUN as it is (R105). -/
theorem setRun_runcnt_toNat (d : Decoder) {n : Nat} (hn : n ≤ 61) : (d.setRun n).runcnt.toNat = n :=
  (BitVec.toNat_ofNat n 6).trans (Nat.mod_eq_of_lt (by omega))

/-- Settles O14: the tag byte lies in RUN's range, and RUNCNT takes its field. -/
theorem runSetsRunCount : Obligations.RunSetsRunCount := by
  intro n s hn
  refine ⟨fun b1 b2 b3 b4 b5 htag => ?_, _, exec_eq _ s, setRun_runcnt_toNat s.dec hn, rfl, rfl⟩
  rw [decodeOp_run _ _ _ _ (by omega) (by omega), htag, Nat.add_sub_cancel_left]

/-! ## What no opcode changes -/

/-- An opcode keeps the command's fields, STATUS, OUT_LEN and PIX (R99). -/
theorem opEffect_keeps (i : Instr) (d : Decoder) : SameDecodeCommand d (opEffect i d) ∧
    (opEffect i d).status = d.status ∧ (opEffect i d).outLen = d.outLen ∧
    (opEffect i d).pix = d.pix := by
  rw [opEffect_frame]
  simp only [SameDecodeCommand, SameHeader, and_self]

/-- Settles O15: an opcode is its effect on DEC, so the rest of the machine stays, and its effect moves
SP past its bytes. -/
theorem opcodeFrame : Obligations.OpcodeFrame := by
  intro i s t h
  obtain rfl := Host.Outcome.next.inj ((exec_eq i s).symm.trans h)
  obtain ⟨hcmd, hstatus, hout, hpix⟩ := opEffect_keeps i s.dec
  exact ⟨fun _ => rfl, rfl, rfl, rfl, hcmd, hstatus, hout, hpix, opEffect_sp i s.dec⟩

end Sys2Proof.OpcodeProofs
end

section
/-! PROOFS. One pixel step of DEC: the opcode it runs, the pixel it writes, what ends the command and
what no pixel step changes (O17, O18, O20, O21, O23). -/

namespace Sys2Proof.DecoderProofs

open Sys2Proof.Machine Sys2Proof.Safety Sys2Proof.Laws Sys2Proof.StateProofs Sys2Proof.OpcodeProofs

/-! ## The opcode fetched is the one decoded -/

theorem bytesAt_succ (m : Memory) (a n : Nat) :
    bytesAt m a (n + 1) = Memory.byteAt m a :: bytesAt m (a + 1) n := by
  simp [bytesAt, List.range_succ_eq_map, Nat.add_assoc, Nat.add_comm 1, Function.comp_def]

theorem bytesAt_length (m : Memory) (a n : Nat) : (bytesAt m a n).length = n := by
  simp [bytesAt]

theorem bytesAt_getD (m : Memory) (a : Nat) {n k : Nat} (h : k < n) :
    (bytesAt m a n).getD k 0 = Memory.byteAt m (a + k) := by
  simp [bytesAt, h]

/-- The parser takes no byte after the opcode's own, so the fetch gives what any string from SP on
that holds the opcode whole decodes to (R98, R109). -/
theorem fetchOp_of_decode {cfg : Config} {s : State} {n : Nat} {i : Instr} {rest : List Byte}
    (hroom : fetchAddr s + n ≤ cfg.memSize)
    (h : decode (bytesAt s.mem (fetchAddr s) n) = .ok (i, rest)) : fetchOp cfg s = some i := by
  cases n with
  | zero => cases h
  | succ n =>
    rw [bytesAt_succ] at h
    have hlen := decode_ok_length h
    rw [decode_cons hlen] at h
    rw [bytesAt_length] at hlen
    obtain ⟨rfl, -⟩ := Prod.mk.inj (Except.ok.inj h)
    have hspan : spanOk cfg (fetchAddr s) (opLength (Memory.byteAt s.mem (fetchAddr s))) = true := by
      rw [spanOk_iff]
      omega
    have hbyte {k : Nat} (hk : k + 2 ≤ opLength (Memory.byteAt s.mem (fetchAddr s))) :
        Memory.byteAt s.mem (fetchAddr s + 1 + k) = (bytesAt s.mem (fetchAddr s + 1) n).getD k 0 :=
      (bytesAt_getD s.mem _ (by omega)).symm
    rw [fetchOp, if_pos hspan, Option.some.injEq]
    exact decodeOp_congr (hbyte (k := 0)) (hbyte (k := 1)) (hbyte (k := 2)) (hbyte (k := 3))

/-- Settles O17: with no run active and SP before LIMIT the step is the second case of R107. -/
theorem stepRunsDecodedOpcode : Obligations.StepRunsDecodedOpcode := by
  intro s n i rest hm hrun hsp hroom hdec
  have hfetch : fetchOp Config.block s.endTurn = some i := fetchOp_of_decode hroom hdec
  have hpath : DecPath Config.block s.endTurn (opEffect i) := .opcode i hrun hsp hfetch
  calc step s = decodePixel Config.block s.endTurn := stepWith_dec hm
    _ = emitPixel Config.block (s.endTurn.mapDec (opEffect i)) := decodePixel_of_path hpath
    _ = andThen (exec i s.endTurn) (emitPixel Config.block) := by rw [exec_eq]; rfl

/-! ## All that a pixel step does beside the pixel path -/

/-- What every pixel step of DEC does, whichever case of R107 it takes (R107, R114, R115). -/
structure PixelStep (s t : State) : Prop where
  enc : t.enc = s.enc
  host : t.host = s.host
  turns : t.turns = s.turns.tail
  command : SameDecodeCommand s.dec t.dec
  pix : t.dec.pix = s.dec.pix + 1
  stores : Memory.wf s.mem = true → StoresExactly s.mem t.mem
    (s.dec.db + s.dec.pix * s.dec.outCh.toNat) (outBytes s.dec.srcCh s.dec.outCh t.dec.cur)
  last : s.dec.pix + 1 = s.dec.n →
    t.dec.status = statusEnded .ok ∧ t.dec.outLen = s.dec.n * s.dec.outCh.toNat
  more : s.dec.pix + 1 ≠ s.dec.n → t.dec.status = s.dec.status ∧ t.dec.outLen = s.dec.outLen

theorem sameDecodeCommand_trans {d d' d'' : Decoder} (h : SameDecodeCommand d d')
    (h' : SameDecodeCommand d' d'') : SameDecodeCommand d d'' := by
  simp only [SameDecodeCommand, SameHeader] at *
  simp only [h', h, and_self]

/-- The copies latched at the start step are among what a DECODE holds on to (R39). -/
theorem latched_of_command {d d' : Decoder} (h : SameDecodeCommand d d') : d'.n = d.n ∧
    d'.limit = d.limit ∧ d'.srcCh = d.srcCh ∧ d'.outCh = d.outCh ∧ d'.fb = d.fb ∧ d'.db = d.db := by
  obtain ⟨-, -, -, -, -, -, -, hlatched⟩ := h
  exact hlatched

/-- No case of R107 touches the command's fields, STATUS, OUT_LEN or PIX before the pixel is
written. -/
theorem path_keeps_command {cfg : Config} {s : State} {f : Decoder → Decoder}
    (hp : DecPath cfg s f) : SameDecodeCommand s.dec (f s.dec) ∧
      (f s.dec).status = s.dec.status ∧ (f s.dec).outLen = s.dec.outLen ∧
      (f s.dec).pix = s.dec.pix := by
  cases hp with
  | activeRun h => simp [SameDecodeCommand, SameHeader, Decoder.countDown]
  | opcode i h hsp hf => exact opEffect_keeps i s.dec
  | exhausted h hsp => simp [SameDecodeCommand, SameHeader]

theorem pixelStep_emitted {cfg : Config} {s : State} {f : Decoder → Decoder}
    (hp : DecPath cfg s.endTurn f) : PixelStep s (emitted (s.endTurn.mapDec f)) := by
  obtain ⟨hcommand, hstatus, hout, hpix⟩ := path_keeps_command hp
  have hdec : (emitted (s.endTurn.mapDec f)).dec = pixelDone (f s.dec) := rfl
  have hcur : (emitted (s.endTurn.mapDec f)).dec.cur = (f s.dec).cur := emitted_cur _
  rw [endTurn_dec] at hcommand hstatus hout hpix
  obtain ⟨hn, -, hsrc, hch, -, hdb⟩ := latched_of_command hcommand
  refine ⟨rfl, rfl, rfl, sameDecodeCommand_trans hcommand (emitted_same _), ?_, fun hwf => ?_,
    fun hlast => ?_, fun hmore => ?_⟩
  · exact (emitted_pix _).trans (congrArg (· + 1) hpix)
  · rw [hcur, ← hdb, ← hpix, ← hsrc, ← hch]
    exact storeAll_storesExactly hwf _ _
  · rw [hdec, pixelDone_last (by rw [hpix, hn, hlast]), ← hn, ← hch]
    exact ⟨rfl, rfl⟩
  · rw [hdec, pixelDone_more (by rw [hpix, hn]; exact hmore)]
    exact ⟨hstatus, hout⟩

/-- Whatever a step that DEC takes answers is a pixel step. -/
theorem pixelStep_of_next {cfg : Config} {s t : State} (hm : DecMoves s)
    (ht : stepWith cfg s = .next t) : PixelStep s t := by
  obtain ⟨f, hp, rfl⟩ := stepWith_dec_next hm ht
  exact pixelStep_emitted hp

/-- Under the invariant a step that DEC takes answers a next state. -/
theorem stepWith_dec_answers {cfg : Config} {s : State} (h : Inv cfg s) (hm : DecMoves s) :
    ∃ t, stepWith cfg s = .next t := by
  have hb := busy_of_decMoves hm
  obtain ⟨_, -, hnext⟩ := decodePixel_of_inv (s := s.endTurn) (inv_endTurn h) hb
  exact ⟨_, (stepWith_dec hm).trans hnext⟩

/-- Under the invariant a step that DEC takes leads where the case of R107 that applies leads. -/
theorem stepWith_dec_of_path {cfg : Config} {s : State} {f : Decoder → Decoder} (h : Inv cfg s)
    (hm : DecMoves s) (hp : DecPath cfg s.endTurn f) :
    stepWith cfg s = .next (emitted (s.endTurn.mapDec f)) := by
  obtain ⟨t, ht⟩ := stepWith_dec_answers h hm
  have hemit : stepWith cfg s = emitPixel cfg (s.endTurn.mapDec f) :=
    (stepWith_dec hm).trans (decodePixel_of_path hp)
  rw [ht, emitPixel_next (hemit.symm.trans ht)]

/-- Settles O23. -/
theorem pixelStepFrame : Obligations.PixelStepFrame := fun _ _ hm ht =>
  have hstep := pixelStep_of_next hm ht
  ⟨hstep.enc, hstep.host, hstep.turns, hstep.command⟩

/-! ## The end of the command -/

/-- STATUS while a DECODE runs (R37, R38). -/
theorem running_status {cfg : Config} {s : State} (h : Inv cfg s) (hb : s.dec.status.busy = true) :
    s.dec.status = statusStarted := by
  have hcode := (h.decode hb).code
  have hdone : s.dec.status.done = false := by
    rw [← Bool.not_eq_true]
    exact fun hd => h.decStatus ⟨hb, hd⟩
  calc s.dec.status = ⟨s.dec.status.code, s.dec.status.busy, s.dec.status.done⟩ := rfl
    _ = statusStarted := by rw [hcode, hb, hdone, statusStarted]

/-- Settles O21: before the last pixel STATUS and OUT_LEN are those of a running DECODE. -/
theorem decodeFinishesAtLastPixel : Obligations.DecodeFinishesAtLastPixel := by
  intro s t h hm ht
  have hb := busy_of_decMoves hm
  have hstep := pixelStep_of_next hm ht
  refine ⟨hstep.last, fun hmore => ?_⟩
  obtain ⟨hstatus, hout⟩ := hstep.more (by omega)
  exact ⟨hstatus.trans (running_status h hb), hout.trans (h.decode hb).outLen⟩

/-! ## The pixel written -/

/-- Settles O18, by the first case of R107. -/
theorem activeRunEmitsCur : Obligations.ActiveRunEmitsCur := by
  intro s h hm hrun
  have hpath : DecPath Config.block s.endTurn Decoder.countDown := .activeRun hrun
  have hstep := pixelStep_emitted hpath
  have hcur : (emitted (s.endTurn.mapDec Decoder.countDown)).dec.cur = s.dec.cur := emitted_cur _
  have hcount : (s.dec.runcnt - 1).toNat = s.dec.runcnt.toNat - 1 := by bv_omega
  exact ⟨_, stepWith_dec_of_path h hm hpath, hcur, emitted_cache _, emitted_sp _,
    (congrArg BitVec.toNat (emitted_runcnt _)).trans hcount, hstep.pix, hcur ▸ hstep.stores h.memWf⟩

/-- Settles O20: the bytes of each legal pair of channel counts (R65). -/
theorem pixelStepWritesFormattedPixel : Obligations.PixelStepWritesFormattedPixel := by
  intro s h hm
  obtain ⟨t, ht⟩ := stepWith_dec_answers h hm
  have hstep := pixelStep_of_next hm ht
  have hstores := hstep.stores h.memWf
  refine ⟨t, ht, hstep.pix, fun hout => ?_, fun hout hsrc => ?_, fun hout hsrc => ?_⟩
  · simpa [outBytes, hout] using hstores
  · simpa [outBytes, hout, hsrc] using hstores
  · simpa [outBytes, hout, hsrc] using hstores

end Sys2Proof.DecoderProofs
end

section
/-! PROOFS. The pixels a DECODE has left, one after the other, when DEC alone moves (O19, O24). -/

namespace Sys2Proof.DecoderProofs

open Sys2Proof.Machine Sys2Proof.Safety Sys2Proof.Laws Sys2Proof.StateProofs

/-- What holds of the start and is carried on by each of `k` steps holds after `k` steps. -/
theorem runFor_induction {P : Nat → State → Prop} {s : State} (k : Nat) (h0 : P 0 s)
    (hstep : ∀ j u, j < k → P j u → ∃ t, step u = .next t ∧ P (j + 1) t) :
    ∃ t, runFor k s = .next t ∧ P k t := by
  induction k generalizing s P with
  | zero => exact ⟨s, rfl, h0⟩
  | succ k ih =>
    obtain ⟨t, ht, h1⟩ := hstep 0 s (Nat.succ_pos k) h0
    rw [runFor_succ k ht]
    exact ih (P := fun j => P (j + 1)) h1 fun j u hj => hstep (j + 1) u (Nat.succ_lt_succ hj)

/-- A DECODE that was under way in `s` with no turns pending, `k` pixels later. -/
structure PixelsLater (s : State) (k : Nat) (t : State) : Prop where
  inv : Inv Config.block t
  turns : t.turns = []
  command : SameDecodeCommand s.dec t.dec
  pix : t.dec.pix = s.dec.pix + k
  running : s.dec.pix + k < s.dec.n → t.dec.status.busy = true
  ended : s.dec.pix + k = s.dec.n →
    t.dec.status = statusEnded .ok ∧ t.dec.outLen = s.dec.n * s.dec.outCh.toNat

theorem pixelsLater_zero {s : State} (h : Inv Config.block s) (hturns : s.turns = [])
    (hb : s.dec.status.busy = true) : PixelsLater s 0 s where
  inv := h
  turns := hturns
  command := by simp [SameDecodeCommand, SameHeader]
  pix := rfl
  running _ := hb
  ended hend := absurd hend (h.decode hb).remain.ne

/-- While pixels remain and no turn is pending, DEC moves (log 4). -/
theorem PixelsLater.decMoves {s u : State} {k : Nat} (hu : PixelsLater s k u)
    (hk : s.dec.pix + k < s.dec.n) : DecMoves u := by
  have hrun : decRunning u.dec = true :=
    (decRunning_iff _).mpr ⟨hu.running hk, (hu.inv.decode (hu.running hk)).remain⟩
  refine ⟨?_, hrun⟩
  simp only [mover, hu.turns, defaultAgent, hrun, if_true]

theorem PixelsLater.next {s u t : State} {k : Nat} (hu : PixelsLater s k u)
    (hk : s.dec.pix + k < s.dec.n) (ht : step u = .next t) : PixelsLater s (k + 1) t := by
  have hp := pixelStep_of_next (hu.decMoves hk) ht
  obtain ⟨hn, -, -, hch, -⟩ := latched_of_command hu.command
  have hpix := hu.pix
  refine ⟨stepKeepsInv u t hu.inv ht, ?_, sameDecodeCommand_trans hu.command hp.command, ?_,
    fun hmore => ?_, fun hlast => ?_⟩
  · rw [hp.turns, hu.turns, List.tail_nil]
  · rw [hp.pix, hpix, Nat.add_assoc]
  · rw [(hp.more (by omega)).1, hu.running hk]
  · rw [← hn, ← hch]
    exact hp.last (by omega)

/-- The machine takes a pixel step for each pixel that remains (R116). -/
theorem runFor_pixelsLater {s : State} (h : Inv Config.block s) (hturns : s.turns = [])
    (hb : s.dec.status.busy = true) {k : Nat} (hk : k ≤ s.dec.n - s.dec.pix) :
    ∃ t, runFor k s = .next t ∧ PixelsLater s k t := by
  refine runFor_induction k (pixelsLater_zero h hturns hb) fun j u hj hu => ?_
  have hlt : s.dec.pix + j < s.dec.n := by omega
  obtain ⟨t, ht⟩ := stepWith_dec_answers hu.inv (hu.decMoves hlt)
  exact ⟨t, ht, hu.next hlt ht⟩

/-- Settles O24. -/
theorem decodeEndsAfterRemainingPixels : Obligations.DecodeEndsAfterRemainingPixels := by
  intro s h hturns hb
  have hrem := (h.decode hb).remain
  have hall : s.dec.pix + (s.dec.n - s.dec.pix) = s.dec.n := by omega
  refine ⟨?_, fun k hk => ?_⟩
  · obtain ⟨t, ht, hlater⟩ := runFor_pixelsLater h hturns hb (Nat.le_refl _)
    obtain ⟨hstatus, hout⟩ := hlater.ended hall
    exact ⟨t, ht, hstatus, hlater.pix.trans hall, hout⟩
  · obtain ⟨t, ht, hlater⟩ := runFor_pixelsLater h hturns hb hk.le
    exact ⟨t, ht, hlater.running (by omega)⟩

/-! ## The exhausted stream -/

/-- The bytes of the pixels from PIX on, `k` of them, are all CUR's. -/
def FilledWithCur (d : Decoder) (k : Nat) (m : Memory) : Prop :=
  ∀ i j, d.pix ≤ i → i < d.pix + k → ∀ h : j < (outBytes d.srcCh d.outCh d.cur).length,
    Memory.byteAt m (d.db + i * d.outCh.toNat + j) = (outBytes d.srcCh d.outCh d.cur)[j]

/-- One more pixel of CUR leaves those before it as they are (R114). -/
theorem filledWithCur_succ {d : Decoder} {k : Nat} {m m' : Memory}
    (hch : channelsOk d.outCh = true) (h : FilledWithCur d k m)
    (hst : StoresExactly m m' (d.db + (d.pix + k) * d.outCh.toNat)
      (outBytes d.srcCh d.outCh d.cur)) : FilledWithCur d (k + 1) m' := by
  obtain ⟨hnew, hold⟩ := hst
  intro i j hlow hhigh hj
  rcases Nat.lt_or_eq_of_le (show i ≤ d.pix + k by omega) with hlt | rfl
  · have hend : i * d.outCh.toNat + d.outCh.toNat ≤ (d.pix + k) * d.outCh.toNat :=
      pixel_room hlt (Nat.le_refl _)
    have hj' : j < d.outCh.toNat := (outBytes_length hch d.cur) ▸ hj
    rw [hold _ (.inl (by omega)), h i j hlow hlt hj]
  · exact hnew j hj

/-- A DECODE whose stream was exhausted in `s`, `k` pixels later. -/
structure CurRepeated (s : State) (k : Nat) (t : State) : Prop where
  later : PixelsLater s k t
  cur : t.dec.cur = s.dec.cur
  cache : t.dec.cache = s.dec.cache
  sp : t.dec.sp = s.dec.sp
  runcnt : t.dec.runcnt = 0
  filled : FilledWithCur s.dec k t.mem

/-- The third case of R107 applies again, and writes CUR once more (R110). -/
theorem CurRepeated.next {s u : State} {k : Nat} (hu : CurRepeated s k u)
    (hch : channelsOk s.dec.outCh = true) (hexh : s.dec.limit ≤ s.dec.sp)
    (hk : s.dec.pix + k < s.dec.n) : ∃ t, step u = .next t ∧ CurRepeated s (k + 1) t := by
  have hm := hu.later.decMoves hk
  obtain ⟨-, hlimit, hsrc, hout, -, hdb⟩ := latched_of_command hu.later.command
  have hpath : DecPath Config.block u.endTurn id :=
    .exhausted hu.runcnt (show u.dec.limit ≤ u.dec.sp by rw [hlimit, hu.sp]; exact hexh)
  have ht := stepWith_dec_of_path hu.later.inv hm hpath
  have hcur : (emitted (u.endTurn.mapDec id)).dec.cur = s.dec.cur := (emitted_cur _).trans hu.cur
  have hstores := (pixelStep_emitted hpath).stores hu.later.inv.memWf
  rw [hcur, hdb, hu.later.pix, hout, hsrc] at hstores
  exact ⟨_, ht, hu.later.next hk ht, hcur, (emitted_cache _).trans hu.cache,
    (emitted_sp _).trans hu.sp, (emitted_runcnt _).trans hu.runcnt,
    filledWithCur_succ hch hu.filled hstores⟩

/-- Settles O19, by induction on the pixels that remain. -/
theorem exhaustedStreamRepeatsCur : Obligations.ExhaustedStreamRepeatsCur := by
  intro s h hturns hb hrun hexh
  have hu := h.decode hb
  have hrem := hu.remain
  have hall : s.dec.pix + (s.dec.n - s.dec.pix) = s.dec.n := by omega
  have hstart : CurRepeated s 0 s := ⟨pixelsLater_zero h hturns hb, rfl, rfl, rfl, hrun,
    fun i j hlow hhigh => absurd hhigh (by omega)⟩
  obtain ⟨t, ht, hend⟩ := runFor_induction (s.dec.n - s.dec.pix) hstart fun j u hj hu' =>
    hu'.next hu.outChOk hexh (by omega)
  exact ⟨t, ht, (hend.later.ended hall).1, hend.cur, hend.cache, hend.sp,
    fun i j hlow hhigh => hend.filled i j hlow (by omega)⟩

end Sys2Proof.DecoderProofs
end

section
/-! PROOFS. One step of ENC: the header it writes, the opcode the predictor gives a pixel, what a pixel
step puts and keeps, and what ends the command (O25 to O30, O32). -/

namespace Sys2Proof.EncoderProofs

open Sys2Proof.Machine Sys2Proof.Safety Sys2Proof.Laws Sys2Proof.StateProofs Sys2Proof.MemoryProofs
  Sys2Proof.EncodingProofs Sys2Proof.CacheProofs Sys2Proof.DecoderProofs

/-! ## The predictor -/

/-- Settles O26. -/
theorem deltasAreWrapped : Obligations.DeltasAreWrapped := fun new old =>
  have ⟨hlow, hhigh, hsum⟩ := delta8_spec new old
  ⟨hlow, hhigh, hsum, add8_delta8 new old⟩

/-- The wrapped delta is the only signed byte that leads from the old value to the new one (R122). -/
theorem delta8_unique {new old : Byte} {d : Int}
    (h : -128 ≤ d ∧ d ≤ 127 ∧ ((old.toNat : Int) + d) % 256 = new.toNat) : delta8 new old = d := by
  have hdelta := delta8_spec new old
  omega

/-- The predictor with its tests as plain comparisons of the wrapped deltas (R121, R126 to R130). -/
theorem predict_eq (c : PixelCache) (cur px : Pixel) : predict c cur px =
    let dr := delta8 px.r cur.r
    let dg := delta8 px.g cur.g
    let db := delta8 px.b cur.b
    if c.get (hashSlot px) = px then .index (hashSlot px)
    else if px.a = cur.a ∧ -2 ≤ dr ∧ dr ≤ 1 ∧ -2 ≤ dg ∧ dg ≤ 1 ∧ -2 ≤ db ∧ db ≤ 1 then .diff dr dg db
    else if px.a = cur.a ∧ -32 ≤ dg ∧ dg ≤ 31 ∧ -8 ≤ dr - dg ∧ dr - dg ≤ 7 ∧ -8 ≤ db - dg ∧
      db - dg ≤ 7 then .luma dg (dr - dg) (db - dg)
    else if px.a = cur.a then .rgb px.r px.g px.b
    else .rgba px.r px.g px.b px.a := by
  simp only [predict, cacheLookup, decide_eq_true_eq, diffFits_iff, diff_wf_iff, lumaFits_iff,
    luma_wf_iff, and_assoc]

/-- Settles O27, from the predictor's tests in their order. -/
theorem branchesInFixedOrder : Obligations.BranchesInFixedOrder := by
  intro c cur px dr dg db hr hg hb
  have hpredict := predict_eq c cur px
  simp only [delta8_unique hr, delta8_unique hg, delta8_unique hb] at hpredict
  rw [hpredict]
  refine ⟨fun hit => if_pos hit, fun miss ha diffs => ?_, fun miss ha noDiff lumas => ?_,
    fun miss ha noDiff noLuma => ?_, fun miss ha => ?_⟩
  · rw [if_neg miss, if_pos ⟨ha, diffs⟩]
  · rw [if_neg miss, if_neg fun h => noDiff h.2, if_pos ⟨ha, lumas⟩]
  · rw [if_neg miss, if_neg fun h => noDiff h.2, if_neg fun h => noLuma h.2, if_pos ha]
  · rw [if_neg miss, if_neg fun h => ha h.1, if_neg fun h => ha h.1, if_neg ha]

/-! ## The run handler -/

/-- RUN's one byte (R73). -/
theorem encode_run (n : Nat) : encode (.run n) = [BitVec.ofNat 8 (0xC0 + n)] :=
  congrArg (fun b : Byte => [b]) (BitVec.ofInt_natCast 8 (0xC0 + n))

/-- At 61 pixels or at the last one the run is put (R123). -/
theorem runExtend_flush {e : Encoder} {last : Bool} (h : e.runacc.toNat ≤ 60)
    (hflush : e.runacc.toNat + 1 = 61 ∨ last = true) :
    runExtend e last = (encode (.run e.runacc.toNat), { e with runacc := 0 }) := by
  have hacc : (e.runacc + 1).toNat = e.runacc.toNat + 1 := by bv_omega
  simp only [runExtend, hacc, Bool.or_eq_true, decide_eq_true_eq, encRunMax, if_pos hflush,
    Nat.add_sub_cancel]

/-- Before that it only grows (R123). -/
theorem runExtend_hold {e : Encoder} {last : Bool} (h : e.runacc.toNat ≤ 60)
    (hhold : ¬(e.runacc.toNat + 1 = 61 ∨ last = true)) :
    runExtend e last = ([], { e with runacc := e.runacc + 1 }) := by
  have hacc : (e.runacc + 1).toNat = e.runacc.toNat + 1 := by bv_omega
  simp only [runExtend, hacc, Bool.or_eq_true, decide_eq_true_eq, encRunMax, if_neg hhold]

theorem runFlush_idle {e : Encoder} (h : e.runacc = 0) : (runFlush e).1 = [] := by
  simp [runFlush, encRunActive, h]

theorem runFlush_active {e : Encoder} (h : e.runacc ≠ 0) :
    (runFlush e).1 = encode (.run (e.runacc.toNat - 1)) := by
  rw [runFlush, if_pos ((encRunActive_iff e).mpr h)]

/-! ## The header step -/

/-- Under the invariant a step that ENC takes with OP = 0 puts the header. -/
theorem stepWith_enc_header {cfg : Config} {s : State} (h : Inv cfg s) (hm : EncMoves s)
    (h0 : s.enc.op = 0) : stepWith cfg s = .next (putDone (headerOut cfg s.enc) s.endTurn) := by
  have hb := busy_of_encMoves hm
  rw [stepWith_enc hm, encodeStep_of_inv (s := s.endTurn) (inv_endTurn h) hb, endTurn_enc, if_pos h0]

/-- The header's bytes are all that the header step changes in memory (R118). -/
theorem header_storesExactly {cfg : Config} {s : State} (h : Inv cfg s)
    (hb : s.enc.status.busy = true) (h0 : s.enc.op = 0) :
    StoresExactly s.mem (putDone (headerOut cfg s.enc) s.endTurn).mem s.enc.outBase
      (headerOut cfg s.enc) := by
  have haddr : s.enc.ob + s.enc.op = s.enc.outBase := by rw [(h.encode hb).ob, h0, Nat.add_zero]
  rw [← haddr]
  exact storeAll_storesExactly h.memWf _ _

/-- The header step moves OP past the header and keeps the rest of ENC (R118). -/
theorem header_enc {cfg : Config} {s : State} (h0 : s.enc.op = 0) :
    (putDone (headerOut cfg s.enc) s.endTurn).enc = { s.enc with op := 14 } := by
  simp only [putDone, endTurn_enc, h0, headerOut_length, Nat.zero_add]

/-- Settles O25: what is before the header is in the invariant, and the step keeps it. -/
theorem headerStepWritesFrameHeader : Obligations.HeaderStepWritesFrameHeader := by
  intro s h hm h0
  have hb := busy_of_encMoves hm
  obtain ⟨hpix, hrun, hcur, hcache⟩ := (h.encode hb).atHeader h0
  have henc := header_enc (cfg := Config.block) h0
  refine ⟨_, stepWith_enc_header h hm h0, ?_, henc, rfl, rfl, hpix, hcur, fun k => ?_, hrun⟩
  · convert header_storesExactly h hb h0 using 1
    simp only [headerOut, be32Bytes_eq, List.append_assoc, List.cons_append, List.nil_append]
  · rw [henc, hcache]
    exact blank_get k

/-! ## The pixel step -/

/-- What follows the opcodes of a pixel step: the trailer after the last pixel (R131). -/
def trailerOut (cfg : Config) (s : State) : List Byte :=
  if s.enc.pix + 1 = s.enc.n then cfg.trailer.toList else []

/-- What every pixel step of ENC does, in terms of what the pixel puts and leaves of the engine (R120,
R131). -/
structure SourceStep (cfg : Config) (s t : State) : Prop where
  stores : StoresExactly s.mem t.mem (s.enc.outBase + s.enc.op) ((encOut s).1 ++ trailerOut cfg s)
  op : t.enc.op = s.enc.op + (encOut s).1.length + (trailerOut cfg s).length
  cur : t.enc.cur = (encOut s).2.cur
  cache : t.enc.cache = (encOut s).2.cache
  runacc : t.enc.runacc = (encOut s).2.runacc
  pix : t.enc.pix = s.enc.pix + 1
  dec : t.dec = s.dec
  host : t.host = s.host
  turns : t.turns = s.turns.tail
  command : SameEncodeCommand s.enc t.enc
  last : s.enc.pix + 1 = s.enc.n → t.enc.status = statusEnded .ok ∧ t.enc.outLen = t.enc.op
  more : s.enc.pix + 1 ≠ s.enc.n → t.enc.status = s.enc.status ∧ t.enc.outLen = s.enc.outLen

theorem trailerOut_length (cfg : Config) (s : State) :
    (trailerOut cfg s).length = if s.enc.pix + 1 = s.enc.n then 8 else 0 := by
  unfold trailerOut
  split <;> simp

/-- Under the invariant a step that ENC takes with OP ≠ 0 is a pixel step. -/
theorem sourceStep_answers {cfg : Config} {s : State} (h : Inv cfg s) (hm : EncMoves s)
    (h0 : s.enc.op ≠ 0) : ∃ t, stepWith cfg s = .next t ∧ SourceStep cfg s t := by
  have hb := busy_of_encMoves hm
  refine ⟨encPixelDone cfg s.endTurn, ?_, ?_⟩
  · rw [stepWith_enc hm, encodeStep_of_inv (s := s.endTurn) (inv_endTurn h) hb, endTurn_enc, if_neg h0]
  · obtain ⟨hstores, hop, hcur, hcache, hrun, hpix, hdec, hhost, hturns, -, -, -, hlast, hmore⟩ :=
      encPixelDone_spec (cfg := cfg) (s := s.endTurn) (inv_endTurn h) hb
    have htrailer : (if encLast s.endTurn then cfg.trailer.toList else []) = trailerOut cfg s := by
      simp only [encLast_iff, trailerOut, endTurn_enc]
    have htaken := encodeOne_taken (readPixel s.mem s.enc) (encLast s) h.encRun
    rw [htrailer] at hstores hop
    exact {
      stores := hstores
      op := hop
      cur := hcur.trans htaken.cur.symm
      cache := hcache
      runacc := hrun
      pix := hpix
      dec := hdec
      host := hhost
      turns := hturns
      command := encPixelDone_same (s := s.endTurn) h.encRun
      last := fun hl => hlast ((encLast_iff s).mpr hl)
      more := fun hl => hmore (Bool.eq_false_iff.mpr fun hl' => hl ((encLast_iff s).mp hl')) }

/-- Whatever a step that ENC takes with OP ≠ 0 answers is a pixel step. -/
theorem sourceStep_of_next {cfg : Config} {s t : State} (h : Inv cfg s) (hm : EncMoves s)
    (h0 : s.enc.op ≠ 0) (ht : stepWith cfg s = .next t) : SourceStep cfg s t := by
  obtain ⟨t', ht', hstep⟩ := sourceStep_answers h hm h0
  obtain rfl := Host.Outcome.next.inj (ht'.symm.trans ht)
  exact hstep

theorem readPixel_eq_iff (s : State) (px : Pixel) :
    readPixel s.mem s.enc = px ↔ NextSourcePixel s px := by
  obtain ⟨r, g, b, a⟩ := px
  simp only [readPixel, NextSourcePixel, sourceAddr, Pixel.mk.injEq, eq_comm]

/-- A pixel equal to CUR goes to the run handler (R120, R121). -/
theorem encOut_equal {s : State} (hpx : readPixel s.mem s.enc = s.enc.cur) :
    encOut s = runExtend s.enc (encLast s) := by
  rw [encOut, encodeOne, if_pos hpx]

/-- A pixel that differs from CUR flushes the run, goes to the predictor and becomes CUR (R120, R124). -/
theorem encOut_new {s : State} (hpx : readPixel s.mem s.enc ≠ s.enc.cur) :
    (encOut s).1 =
        (runFlush s.enc).1 ++ encode (predict s.enc.cache s.enc.cur (readPixel s.mem s.enc)) ∧
      (encOut s).2.runacc = 0 ∧ (encOut s).2.cur = readPixel s.mem s.enc ∧
      (encOut s).2.cache = cacheInsert s.enc.cache (readPixel s.mem s.enc) := by
  refine ⟨?_, ?_, encodeOne_cur_cache (encLast s) hpx⟩
  · rw [encOut, encodeOne, if_neg hpx]
  · rw [encOut, encodeOne, if_neg hpx, absorb_runacc, runFlush_runacc]

/-- Settles O28. -/
theorem equalPixelExtendsRun : Obligations.EqualPixelExtendsRun := by
  intro s h hm h0 hpx
  obtain ⟨t, ht, hstep⟩ := sourceStep_answers h hm h0
  have hout := encOut_equal ((readPixel_eq_iff s _).mpr hpx)
  have hrun := hstep.runacc
  have hop := hstep.op
  rw [trailerOut_length] at hop
  have hcur : (encOut s).2.cur = s.enc.cur ∧ (encOut s).2.cache = s.enc.cache := by
    rw [hout, runExtend]
    split <;> exact ⟨rfl, rfl⟩
  refine ⟨t, (encOut s).1, ht, fun hflush => ?_, fun hhold => ?_, hstep.stores, hop,
    hstep.cur.trans hcur.1, hstep.cache.trans hcur.2, hstep.pix, hstep.dec⟩
  · rw [← encLast_iff] at hflush
    rw [hrun, hout, runExtend_flush h.encRun hflush]
    exact ⟨encode_run _, rfl⟩
  · rw [← encLast_iff] at hhold
    rw [hrun, hout, runExtend_hold h.encRun hhold]
    have hacc := h.encRun
    exact ⟨rfl, by bv_omega⟩

/-- Settles O29. -/
theorem newPixelFlushesAndPutsOpcode : Obligations.NewPixelFlushesAndPutsOpcode := by
  intro s px h hm h0 hsrc hpx
  obtain rfl := (readPixel_eq_iff s px).mpr hsrc
  obtain ⟨t, ht, hstep⟩ := sourceStep_answers h hm h0
  obtain ⟨hout, hrun, hcur, hcache⟩ := encOut_new hpx
  have hop := hstep.op
  rw [trailerOut_length, hout, List.length_append] at hop
  refine ⟨t, (runFlush s.enc).1, ht, runFlush_idle, fun hactive => ?_, hout ▸ hstep.stores, by omega,
    hstep.cur.trans hcur, hstep.runacc.trans hrun, hstep.pix, hstep.dec, fun k => ?_⟩
  · rw [runFlush_active hactive, encode_run]
  · rw [hstep.cache, hcache, cacheInsert_get]

/-! ## The end of the command -/

/-- A string of bytes is what memory holds from an address up. -/
def Holds (m : Memory) (a : Nat) (bs : List Byte) : Prop := bytesAt m a bs.length = bs

theorem bytesAt_add (m : Memory) (a j k : Nat) :
    bytesAt m a (j + k) = bytesAt m a j ++ bytesAt m (a + j) k := by
  simp [bytesAt, List.range_add, Nat.add_assoc, Function.comp_def]

theorem holds_append {m : Memory} {a : Nat} {bs cs : List Byte} :
    Holds m a (bs ++ cs) ↔ Holds m a bs ∧ Holds m (a + bs.length) cs := by
  rw [Holds, List.length_append, bytesAt_add]
  exact ⟨fun h => List.append_inj h (bytesAt_length m a bs.length),
    fun ⟨hbs, hcs⟩ => congrArg₂ (· ++ ·) hbs hcs⟩

theorem holds_iff {m : Memory} {a : Nat} {bs : List Byte} :
    Holds m a bs ↔ ∀ j (h : j < bs.length), Memory.byteAt m (a + j) = bs[j] := by
  constructor
  · intro h j hj
    have hget := bytesAt_getD m a hj
    rw [h, List.getD_eq_getElem _ _ hj] at hget
    exact hget.symm
  · intro h
    refine List.ext_getElem (bytesAt_length m a bs.length) fun j hj hj' => ?_
    rw [← h j hj']
    simp [bytesAt]

/-- Memory holds what was stored. -/
theorem holds_of_stores {m m' : Memory} {a : Nat} {bs : List Byte} (h : StoresExactly m m' a bs) :
    Holds m' a bs :=
  holds_iff.mpr h.1

/-- STATUS while an ENCODE runs (R37, R38). -/
theorem encRunning_status {cfg : Config} {s : State} (h : Inv cfg s)
    (hb : s.enc.status.busy = true) : s.enc.status = statusStarted := by
  have hcode := (h.encode hb).code
  have hdone : s.enc.status.done = false := Bool.eq_false_iff.mpr fun hd => h.encStatus ⟨hb, hd⟩
  calc s.enc.status = ⟨s.enc.status.code, s.enc.status.busy, s.enc.status.done⟩ := rfl
    _ = statusStarted := by rw [hcode, hb, hdone, statusStarted]

/-- The last pixel leaves no run (R131). -/
theorem encOut_last_runacc {s : State} (h : s.enc.runacc.toNat ≤ 60)
    (hl : s.enc.pix + 1 = s.enc.n) : (encOut s).2.runacc = 0 :=
  (encodeOne_taken (readPixel s.mem s.enc) (encLast s) h).lastRun ((encLast_iff s).mpr hl)

/-- Settles O30: the trailer ends at OP, as it is put last. -/
theorem encodeFinishesAtLastPixel : Obligations.EncodeFinishesAtLastPixel := by
  intro s t h hm h0 ht
  have hb := busy_of_encMoves hm
  have hstep := sourceStep_of_next h hm h0 ht
  refine ⟨fun hl => ?_, fun hmore => ?_⟩
  · obtain ⟨hstatus, hlen⟩ := hstep.last hl
    obtain ⟨-, htrailer⟩ := holds_append.mp (holds_of_stores hstep.stores)
    have hop := hstep.op
    simp only [trailerOut, if_pos hl, Vector.length_toList] at htrailer hop
    have haddr : s.enc.outBase + t.enc.op - 8 = s.enc.outBase + s.enc.op + (encOut s).1.length := by
      omega
    refine ⟨?_, hstatus, hlen, hstep.runacc.trans (encOut_last_runacc h.encRun hl)⟩
    simpa [Holds, haddr] using htrailer
  · obtain ⟨hstatus, hlen⟩ := hstep.more (by omega)
    exact ⟨hstatus.trans (encRunning_status h hb), hlen.trans (h.encode hb).outLen⟩

/-! ## The bound on the output -/

/-- OP after a step of ENC is within the worst case for all its pixels (R132). -/
theorem op_le_bound {s t : State} (h : Inv Config.block s) (hm : EncMoves s) (ht : step s = .next t) :
    t.enc.op ≤ 22 + s.enc.n * (s.enc.ch.toNat + 1) := by
  have hb := busy_of_encMoves hm
  have hrem := (h.encode hb).remain
  by_cases h0 : s.enc.op = 0
  · obtain rfl := Host.Outcome.next.inj ((stepWith_enc_header h hm h0).symm.trans ht)
    rw [header_enc h0]
    exact (show 14 ≤ 22 by decide).trans (Nat.le_add_right _ _)
  · have hop := (sourceStep_of_next h hm h0 ht).op
    obtain ⟨-, hsize, -⟩ := op_bound h hb h0
    have hpixels : (s.enc.pix + 1) * (s.enc.ch.toNat + 1) ≤ s.enc.n * (s.enc.ch.toNat + 1) :=
      Nat.mul_le_mul_right _ hrem
    have htrailer : (trailerOut Config.block s).length ≤ 8 := by
      rw [trailerOut_length]
      split <;> decide
    omega

/-- OUT has room for the worst case (R142). -/
theorem op_le_outCap {s t : State} (h : Inv Config.block s) (hm : EncMoves s) (ht : step s = .next t) :
    t.enc.op ≤ s.enc.outCap := by
  have hu := h.encode (busy_of_encMoves hm)
  have hbound := op_le_bound h hm ht
  rw [hu.n, hu.ch] at hbound
  exact hbound.trans hu.room

/-- Settles O32: OP stays within the bound, and a step writes from OP on. -/
theorem outputStaysWithinBound : Obligations.OutputStaysWithinBound := by
  intro s t h hm ht
  have hwrote := (stepWith_advances (e := .enc) h hm ht).wrote
  rw [writeCursor_enc_next h hm ht] at hwrote
  exact ⟨Nat.le_of_add_le_add_left hwrote.le, op_le_bound h hm ht, op_le_outCap h hm ht,
    fun _ ha => hwrote.byteAt_other ha⟩

end Sys2Proof.EncoderProofs
end

section
/-! PROOFS. The pixels an ENCODE has left, one after the other, when ENC alone moves (O33). -/

namespace Sys2Proof.EncoderProofs

open Sys2Proof.Machine Sys2Proof.Safety Sys2Proof.Laws Sys2Proof.StateProofs Sys2Proof.DecoderProofs

theorem sameEncodeCommand_trans {e e' e'' : Encoder} (h : SameEncodeCommand e e')
    (h' : SameEncodeCommand e' e'') : SameEncodeCommand e e'' := by
  simp only [SameEncodeCommand] at *
  simp only [h', h, and_self]

/-- With no turn pending and DEC idle, a running ENC moves (log 4). -/
theorem encMoves_of_busy {cfg : Config} {s : State} (h : Inv cfg s) (hturns : s.turns = [])
    (hdec : s.dec.status.busy = false) (hb : s.enc.status.busy = true) : EncMoves s := by
  have hrun : encRunning s.enc = true := (encRunning_iff _).mpr ⟨hb, (h.encode hb).remain⟩
  have hidle : decRunning s.dec = false := by simp [decRunning, hdec]
  refine ⟨?_, hrun⟩
  simp [mover, hturns, defaultAgent, hrun, hidle]

/-- An ENCODE that was under way in `s` with no turns pending and DEC idle, once its header and `k` more
pixels are put. -/
structure SourcesLater (s : State) (k : Nat) (t : State) : Prop where
  inv : Inv Config.block t
  turns : t.turns = []
  dec : t.dec = s.dec
  idle : s.dec.status.busy = false
  command : SameEncodeCommand s.enc t.enc
  started : t.enc.op ≠ 0
  pix : t.enc.pix = s.enc.pix + k
  running : s.enc.pix + k < s.enc.n → t.enc.status.busy = true
  ended : s.enc.pix + k = s.enc.n → t.enc.status = statusEnded .ok ∧ t.enc.outLen = t.enc.op

theorem sourcesLater_zero {s : State} (h : Inv Config.block s) (hturns : s.turns = [])
    (hidle : s.dec.status.busy = false) (hb : s.enc.status.busy = true) (h0 : s.enc.op ≠ 0) :
    SourcesLater s 0 s where
  inv := h
  turns := hturns
  dec := rfl
  idle := hidle
  command := by simp [SameEncodeCommand]
  started := h0
  pix := rfl
  running _ := hb
  ended hend := absurd hend (h.encode hb).remain.ne

theorem sourcesLater_header {s : State} (h : Inv Config.block s) (hturns : s.turns = [])
    (hidle : s.dec.status.busy = false) (hb : s.enc.status.busy = true) (h0 : s.enc.op = 0) :
    SourcesLater s 0 (putDone (headerOut Config.block s.enc) s.endTurn) := by
  have ht := stepWith_enc_header h (encMoves_of_busy h hturns hidle hb) h0
  have henc := header_enc (cfg := Config.block) h0
  refine ⟨stepKeepsInv s _ h ht, ?_, rfl, hidle, ?_, ?_, rfl, fun _ => hb,
    fun hend => absurd hend (h.encode hb).remain.ne⟩
  · exact congrArg List.tail hturns
  · simp [henc, SameEncodeCommand]
  · simp [henc]

/-- While pixels remain, ENC moves. -/
theorem SourcesLater.encMoves {s u : State} {k : Nat} (hu : SourcesLater s k u)
    (hk : s.enc.pix + k < s.enc.n) : EncMoves u :=
  encMoves_of_busy hu.inv hu.turns (hu.dec ▸ hu.idle) (hu.running hk)

/-- The numbers and places latched at the start step are among what an ENCODE holds on to (R39). -/
theorem latched_of_encCommand {e e' : Encoder} (h : SameEncodeCommand e e') :
    e'.outBase = e.outBase ∧ e'.outCap = e.outCap ∧ e'.n = e.n ∧ e'.ch = e.ch ∧ e'.sb = e.sb := by
  obtain ⟨-, -, -, -, -, -, hout, hcap, -, hn, hch, hsb, -⟩ := h
  exact ⟨hout, hcap, hn, hch, hsb⟩

theorem SourcesLater.next {s u t : State} {k : Nat} (hu : SourcesLater s k u)
    (hk : s.enc.pix + k < s.enc.n) (ht : step u = .next t) : SourcesLater s (k + 1) t := by
  have hstep := sourceStep_of_next hu.inv (hu.encMoves hk) hu.started ht
  obtain ⟨-, -, hn, -⟩ := latched_of_encCommand hu.command
  have hstarted := hu.started
  have hop := hstep.op
  have hpix := hu.pix
  refine ⟨stepKeepsInv u t hu.inv ht, ?_, hstep.dec.trans hu.dec, hu.idle,
    sameEncodeCommand_trans hu.command hstep.command, by omega, ?_, fun hmore => ?_, fun hlast => ?_⟩
  · rw [hstep.turns, hu.turns, List.tail_nil]
  · rw [hstep.pix, hpix, Nat.add_assoc]
  · rw [(hstep.more (by omega)).1, hu.running hk]
  · exact hstep.last (by omega)

/-- The machine takes a pixel step for each source pixel that remains (R133). -/
theorem runFor_sourcesLater {s u : State} (hu : SourcesLater s 0 u) {k : Nat}
    (hk : k ≤ s.enc.n - s.enc.pix) : ∃ t, runFor k u = .next t ∧ SourcesLater s k t := by
  refine runFor_induction k hu fun j v hj hv => ?_
  have hlt : s.enc.pix + j < s.enc.n := by omega
  obtain ⟨t, ht, -⟩ := sourceStep_answers hv.inv (hv.encMoves hlt) hv.started
  exact ⟨t, ht, hv.next hlt ht⟩

/-- Settles O33, by the pixels that remain once the header is put. -/
theorem encodeEndsAfterRemainingPixels : Obligations.EncodeEndsAfterRemainingPixels := by
  intro s h hturns hb hidle
  have hrem := (h.encode hb).remain
  have hall : s.enc.pix + (s.enc.n - s.enc.pix) = s.enc.n := by omega
  by_cases h0 : s.enc.op = 0
  · have hheader := stepWith_enc_header h (encMoves_of_busy h hturns hidle hb) h0
    obtain ⟨t, ht, hlater⟩ :=
      runFor_sourcesLater (sourcesLater_header h hturns hidle hb h0) (Nat.le_refl _)
    rw [if_pos h0, Nat.add_comm 1, runFor_succ _ hheader]
    exact ⟨t, ht, hlater.ended hall⟩
  · obtain ⟨t, ht, hlater⟩ :=
      runFor_sourcesLater (sourcesLater_zero h hturns hidle hb h0) (Nat.le_refl _)
    rw [if_neg h0, Nat.zero_add]
    exact ⟨t, ht, hlater.ended hall⟩

end Sys2Proof.EncoderProofs
end

section
/-! PROOFS. What a stream of opcodes gives a decoder, and that the opcodes ENC puts give the source's
pixels (R95, R111): nothing here looks at memory or at the machine's steps. -/

namespace Sys2Proof.LosslessProofs

open Sys2Proof.Machine Sys2Proof.Laws Sys2Proof.EncodingProofs Sys2Proof.CacheProofs
  Sys2Proof.OpcodeProofs

/-! ## The pixels of a stream -/

/-- The pixels DEC has yet to emit when `ops` are what its stream has left: those of an active run, and
then opcode by opcode (R107). -/
def drawn : Decoder → List Instr → List Pixel
  | d, [] => List.replicate d.runcnt.toNat d.cur
  | d, i :: ops => List.replicate d.runcnt.toNat d.cur ++
      (opEffect i (d.setRun 0)).cur :: drawn (opEffect i (d.setRun 0)) ops

/-- DEC once it has emitted them. -/
def drained : Decoder → List Instr → Decoder
  | d, [] => d.setRun 0
  | d, i :: ops => drained (opEffect i (d.setRun 0)) ops

theorem setRun_zero_of_idle {d : Decoder} (h : d.runcnt = 0) : d.setRun 0 = d :=
  congrArg (fun r => { d with runcnt := r }) h.symm

/-- With no run active the next opcode gives the next pixel. -/
theorem drawn_cons {d : Decoder} (h : d.runcnt = 0) (i : Instr) (ops : List Instr) :
    drawn d (i :: ops) = (opEffect i d).cur :: drawn (opEffect i d) ops := by
  rw [drawn, setRun_zero_of_idle h, h]
  rfl

theorem drawn_nil {d : Decoder} (h : d.runcnt = 0) : drawn d [] = [] := by
  rw [drawn, h]
  rfl

/-- An active run's pixels come first. -/
theorem drawn_eq_append (d : Decoder) (ops : List Instr) :
    drawn d ops = List.replicate d.runcnt.toNat d.cur ++ drawn (d.setRun 0) ops := by
  have hidle : (d.setRun 0).runcnt = 0 := rfl
  cases ops with
  | nil => rw [drawn_nil hidle, List.append_nil, drawn]
  | cons i ops => rw [drawn_cons hidle, drawn]

/-- An active run gives CUR and leaves one pixel less of itself. -/
theorem drawn_active {d : Decoder} (h : d.runcnt ≠ 0) (ops : List Instr) :
    drawn d ops = d.cur :: drawn d.countDown ops := by
  have hcount : d.runcnt.toNat = d.countDown.runcnt.toNat + 1 := by
    rw [countDown_runcnt]
    bv_omega
  rw [drawn_eq_append d, drawn_eq_append d.countDown, hcount, List.replicate_succ]
  rfl

/-- The pixels depend on CUR, the cache and RUNCNT only. -/
theorem drawn_congr {d d' : Decoder} (hcur : d'.cur = d.cur) (hcache : d'.cache = d.cache)
    (hrun : d'.runcnt = d.runcnt) (ops : List Instr) : drawn d' ops = drawn d ops := by
  induction ops generalizing d d' with
  | nil => rw [drawn, drawn, hcur, hrun]
  | cons i ops ih =>
    have heffect : (opEffect i (d'.setRun 0)).cur = (opEffect i (d.setRun 0)).cur ∧
        (opEffect i (d'.setRun 0)).cache = (opEffect i (d.setRun 0)).cache ∧
        (opEffect i (d'.setRun 0)).runcnt = (opEffect i (d.setRun 0)).runcnt := by
      cases i <;> simp [opEffect, hcur, hcache]
    obtain ⟨hcur', hcache', hrun'⟩ := heffect
    rw [drawn, drawn, hcur, hrun, hcur', ih hcur' hcache' hrun']

theorem drained_runcnt (d : Decoder) (ops : List Instr) : (drained d ops).runcnt = 0 := by
  induction ops generalizing d with
  | nil => rfl
  | cons i ops ih => exact ih _

/-- One opcode more gives its pixel, and a run's further ones. -/
theorem drawn_snoc (d : Decoder) (ops : List Instr) (i : Instr) :
    drawn d (ops ++ [i]) = drawn d ops ++ List.replicate
      ((opEffect i (drained d ops)).runcnt.toNat + 1) (opEffect i (drained d ops)).cur := by
  induction ops generalizing d with
  | nil => rfl
  | cons j ops ih => simp only [List.cons_append, drawn, ih, drained, List.append_assoc]

theorem drained_snoc (d : Decoder) (ops : List Instr) (i : Instr) :
    drained d (ops ++ [i]) = (opEffect i (drained d ops)).setRun 0 := by
  induction ops generalizing d with
  | nil => rfl
  | cons j ops ih => exact ih _

/-! ## The pixels of the encoder's opcodes -/

/-- ENC has taken the pixels `pxs` and put the opcodes `ops`: a decoder that starts afresh and takes them
has ENC's CUR and cache, and lags behind by the run that is not put yet (R95). -/
structure InStep (ops : List Instr) (e : Encoder) (pxs : List Pixel) : Prop where
  wf : ∀ i ∈ ops, i.wf = true
  pixels : drawn Decoder.reset ops ++ List.replicate e.runacc.toNat e.cur = pxs
  cur : (drained Decoder.reset ops).cur = e.cur
  cache : (drained Decoder.reset ops).cache = e.cache

theorem InStep.congr {ops : List Instr} {e e' : Encoder} {pxs : List Pixel} (h : InStep ops e pxs)
    (hcur : e'.cur = e.cur) (hcache : e'.cache = e.cache) (hrun : e'.runacc = e.runacc) :
    InStep ops e' pxs :=
  ⟨h.wf, by rw [hcur, hrun]; exact h.pixels, h.cur.trans hcur.symm, h.cache.trans hcache.symm⟩

theorem wf_append {ops : List Instr} {i : Instr} (h : ∀ j ∈ ops, j.wf = true) (hi : i.wf = true) :
    ∀ j ∈ ops ++ [i], j.wf = true := by
  simpa [or_imp, forall_and] using And.intro h hi

/-- At the start of a command nothing is put. -/
theorem inStep_nil {e : Encoder} (hcur : e.cur = .initial) (hcache : e.cache = PixelCache.blank)
    (hrun : e.runacc = 0) : InStep [] e [] where
  wf := nofun
  pixels := by rw [hrun]; rfl
  cur := hcur.symm
  cache := hcache.symm

/-- A pixel equal to CUR only makes the run longer (R123). -/
theorem InStep.extend {ops : List Instr} {e : Encoder} {pxs : List Pixel} (h : InStep ops e pxs)
    (hrun : e.runacc.toNat ≤ 60) : InStep ops { e with runacc := e.runacc + 1 } (pxs ++ [e.cur]) := by
  have hacc : (e.runacc + 1).toNat = e.runacc.toNat + 1 := by bv_omega
  refine ⟨h.wf, ?_, h.cur, h.cache⟩
  rw [← h.pixels, hacc, List.replicate_succ', List.append_assoc]

/-- Putting the run as a RUN opcode catches the decoder up (R105, R123, R124). -/
theorem InStep.putRun {ops : List Instr} {e : Encoder} {pxs : List Pixel} (h : InStep ops e pxs)
    (hrun : e.runacc ≠ 0) (hmax : e.runacc.toNat ≤ 61) :
    InStep (ops ++ [.run (e.runacc.toNat - 1)]) { e with runacc := 0 } pxs := by
  have hpos : e.runacc.toNat ≠ 0 := fun h0 => hrun (BitVec.eq_of_toNat_eq h0)
  have hcount : (opEffect (.run (e.runacc.toNat - 1)) (drained Decoder.reset ops)).runcnt.toNat + 1 =
      e.runacc.toNat := by
    rw [opEffect, advance_runcnt, setRun_runcnt_toNat _ (by omega)]
    omega
  refine ⟨wf_append h.wf ((run_wf_iff _).mpr (by omega)), ?_, ?_, ?_⟩
  · rw [drawn_snoc, hcount, ← h.pixels, ← h.cur]
    exact List.append_nil _
  · rw [drained_snoc]
    exact h.cur
  · rw [drained_snoc]
    exact h.cache

/-- With no run to put, the predictor's opcode gives the pixel and what ENC holds after it (R95). -/
theorem InStep.putPredicted {ops : List Instr} {e e' : Encoder} {pxs : List Pixel} {px : Pixel}
    (h : InStep ops e pxs) (hrun : e.runacc = 0) (hcur : e'.cur = px)
    (hcache : e'.cache = cacheInsert e.cache px) (hrun' : e'.runacc = 0) :
    InStep (ops ++ [predict e.cache e.cur px]) e' (pxs ++ [px]) := by
  obtain ⟨hwf, -⟩ := mayEmit_predict e px
  obtain ⟨k, heffect⟩ := opEffect_predict (drained Decoder.reset ops) px
  rw [h.cur, h.cache] at heffect
  have hdrawn : drawn Decoder.reset ops = pxs := by
    rw [← h.pixels, hrun]
    exact (List.append_nil _).symm
  refine ⟨wf_append h.wf hwf, ?_, ?_, ?_⟩
  · rw [drawn_snoc, heffect, advance_runcnt, resolve_runcnt, drained_runcnt, hdrawn, hrun',
      advance_cur, resolve_cur]
    exact List.append_nil _
  · rw [drained_snoc, heffect, hcur]
    rfl
  · rw [drained_snoc, heffect, hcache, ← h.cache]
    rfl

/-- ENC's step keeps a decoder of its opcodes in step, for either case of R120. -/
theorem InStep.next {ops : List Instr} {e : Encoder} {pxs : List Pixel} (h : InStep ops e pxs)
    (hrun : e.runacc.toNat ≤ 60) (px : Pixel) (last : Bool) :
    ∃ new, (encodeOne e px last).1 = new.flatMap encode ∧
      InStep (ops ++ new) (encodeOne e px last).2 (pxs ++ [px]) := by
  unfold encodeOne
  split
  case isTrue hpx =>
    subst hpx
    have hext := h.extend hrun
    have hactive : e.runacc + 1 ≠ 0 := by bv_omega
    have hmax : (e.runacc + 1).toNat ≤ 61 := by bv_omega
    unfold runExtend
    dsimp only
    split
    · exact ⟨[_], by simp, hext.putRun hactive hmax⟩
    · exact ⟨[], rfl, by simpa using hext⟩
  case isFalse hpx =>
    have hflush : ∃ new, (runFlush e).1 = new.flatMap encode ∧
        InStep (ops ++ new) (runFlush e).2 pxs := by
      unfold runFlush
      split
      case isTrue hactive =>
        exact ⟨[_], by simp, h.putRun ((encRunActive_iff e).mp hactive) (by omega)⟩
      case isFalse => exact ⟨[], rfl, by simpa using h⟩
    obtain ⟨new, hnew, hin⟩ := hflush
    have hidle : (runFlush e).2.runacc = 0 := by rw [runFlush_runacc]
    have hsame : predict (runFlush e).2.cache (runFlush e).2.cur px = predict e.cache e.cur px := by
      rw [runFlush_runacc]
    refine ⟨new ++ [predict e.cache e.cur px], by simp [hnew], ?_⟩
    rw [← List.append_assoc, ← hsame]
    exact hin.putPredicted hidle rfl (absorb_cache _ px) hidle

end Sys2Proof.LosslessProofs
end

section
/-! PROOFS. The frame an ENCODE leaves in memory: its header, opcodes that give the source's pixels, and
the trailer (R118, R120, R131). -/

namespace Sys2Proof.LosslessProofs

open Sys2Proof.Machine Sys2Proof.Safety Sys2Proof.Laws Sys2Proof.StateProofs Sys2Proof.MemoryProofs
  Sys2Proof.DecoderProofs Sys2Proof.EncoderProofs

/-! ## What memory holds -/

/-- A string stays where none of its bytes changes. -/
theorem holds_congr {m m' : Memory} {a : Nat} {bs : List Byte} (h : Holds m a bs)
    (hsame : ∀ x, a ≤ x → x < a + bs.length → Memory.byteAt m' x = Memory.byteAt m x) :
    Holds m' a bs :=
  holds_iff.mpr fun j hj => (hsame _ (by omega) (by omega)).trans (holds_iff.mp h j hj)

/-- A string stored behind another makes it longer. -/
theorem holds_append_of_stores {m m' : Memory} {a : Nat} {bs cs : List Byte} (h : Holds m a bs)
    (hst : StoresExactly m m' (a + bs.length) cs) : Holds m' a (bs ++ cs) :=
  holds_append.mpr ⟨holds_congr h fun x _ hx => hst.2 x (.inl hx), holds_of_stores hst⟩

/-! ## The source's pixels -/

/-- Source pixel `i` (R119). -/
def sourcePixel (m : Memory) (e : Encoder) (i : Nat) : Pixel := readPixel m { e with pix := i }

/-- The first `k` source pixels. -/
def sourcePixels (m : Memory) (e : Encoder) (k : Nat) : List Pixel :=
  (List.range k).map (sourcePixel m e)

theorem sourcePixels_succ (m : Memory) (e : Encoder) (k : Nat) :
    sourcePixels m e (k + 1) = sourcePixels m e k ++ [sourcePixel m e k] := by
  simp [sourcePixels, List.range_succ]

theorem sourcePixels_length (m : Memory) (e : Encoder) (k : Nat) :
    (sourcePixels m e k).length = k := by
  simp [sourcePixels]

/-- Source pixel `i` written with the source's channel count is its bytes (R64, R65). -/
theorem outBytes_sourcePixel {e : Encoder} (hch : channelsOk e.ch = true) (m : Memory) (i : Nat) :
    outBytes e.ch e.ch (sourcePixel m e i) =
      bytesAt m (e.sb + i * e.ch.toNat) e.ch.toNat := by
  simp only [channelsOk, Bool.or_eq_true, decide_eq_true_eq] at hch
  rcases hch with h | h <;> simp only [outBytes, sourcePixel, readPixel, sourceAddr, h] <;> rfl

/-- All of them are the source, byte for byte. -/
theorem outBytes_sourcePixels {e : Encoder} (hch : channelsOk e.ch = true) (m : Memory) (k : Nat) :
    (sourcePixels m e k).flatMap (outBytes e.ch e.ch) = bytesAt m e.sb (k * e.ch.toNat) := by
  induction k with
  | zero => simp [sourcePixels, bytesAt]
  | succ k ih =>
    rw [sourcePixels_succ, List.flatMap_append, ih, Nat.succ_mul, bytesAt_add,
      ← outBytes_sourcePixel hch]
    simp

/-- A pixel is decided by its bytes of the source. -/
theorem sourcePixel_congr {m m' : Memory} {e : Encoder} {i : Nat} (hch : channelsOk e.ch = true)
    (h : ∀ j, j < e.ch.toNat → Memory.byteAt m' (e.sb + i * e.ch.toNat + j) =
      Memory.byteAt m (e.sb + i * e.ch.toNat + j)) : sourcePixel m' e i = sourcePixel m e i := by
  have hcount := (channelsOk_iff e.ch).mp hch
  have hred : Memory.byteAt m' (e.sb + i * e.ch.toNat) = Memory.byteAt m (e.sb + i * e.ch.toNat) :=
    h 0 (by omega)
  simp only [sourcePixel, readPixel, sourceAddr, hred, h 1 (by omega), h 2 (by omega)]
  split
  case isTrue h4 => rw [h 3 (by rw [h4]; decide)]
  case isFalse => rfl

/-! ## The frame, pixel by pixel -/

/-- A frame's bytes up to its trailer. -/
def frameOut (cfg : Config) (e : Encoder) (ops : List Instr) : List Byte :=
  headerOut cfg e ++ ops.flatMap encode

theorem frameOut_append (cfg : Config) (e : Encoder) (ops new : List Instr) :
    frameOut cfg e (ops ++ new) = frameOut cfg e ops ++ new.flatMap encode := by
  simp [frameOut]

/-- What an ENCODE under way in `s` at its first step has left in memory once its header and `k` pixels
are put. -/
structure FramePut (s : State) (k : Nat) (ops : List Instr) (t : State) : Prop where
  later : SourcesLater s k t
  source : ∀ a, inRegion (srcRegion s.enc) a = true → Memory.byteAt t.mem a = Memory.byteAt s.mem a
  inStep : InStep ops t.enc (sourcePixels s.mem s.enc k)
  frame : Holds t.mem s.enc.outBase (frameOut Config.block s.enc ops ++
    if k = s.enc.n then Config.block.trailer.toList else [])
  op : t.enc.op = (frameOut Config.block s.enc ops).length + if k = s.enc.n then 8 else 0
  room : t.enc.op ≤ s.enc.outCap
  flushed : k = s.enc.n → t.enc.runacc = 0

/-- No step changes a byte of a running ENCODE's source (R61). -/
theorem byteAt_src_next {u t : State} {a : Nat} (h : Inv Config.block u)
    (hb : u.enc.status.busy = true) (ht : step u = .next t)
    (ha : inRegion (srcRegion u.enc) a = true) : Memory.byteAt t.mem a = Memory.byteAt u.mem a :=
  stepWith_keeps_input (e := .enc) h hb ht ha

/-- The header step starts the frame. -/
theorem framePut_header {s : State} (h : Inv Config.block s) (hturns : s.turns = [])
    (hidle : s.dec.status.busy = false) (hb : s.enc.status.busy = true) (h0 : s.enc.op = 0) :
    ∃ t, step s = .next t ∧ FramePut s 0 [] t := by
  have hm := encMoves_of_busy h hturns hidle hb
  have ht := stepWith_enc_header h hm h0
  have henc := header_enc (cfg := Config.block) h0
  have hu := h.encode hb
  have hrem := hu.remain
  obtain ⟨hpix, hrun, hcur, hcache⟩ := hu.atHeader h0
  have hn : 0 ≠ s.enc.n := by omega
  refine ⟨_, ht, sourcesLater_header h hturns hidle hb h0, fun a ha => byteAt_src_next h hb ht ha,
    ?_, ?_, ?_, ?_, fun hend => absurd hend hn⟩
  · rw [henc]
    exact inStep_nil hcur hcache hrun
  · rw [if_neg hn, List.append_nil, frameOut, List.flatMap_nil, List.append_nil]
    exact holds_of_stores (header_storesExactly h hb h0)
  · rw [henc, if_neg hn, frameOut, List.flatMap_nil, List.append_nil, headerOut_length]
  · exact op_le_outCap h hm ht

/-- The source stands where it stood. -/
theorem srcRegion_later {s u : State} {k : Nat} (hu : SourcesLater s k u) :
    srcRegion u.enc = srcRegion s.enc := by
  obtain ⟨-, hsrc, hwidth, hheight, hch, -⟩ := hu.command
  simp only [srcRegion, hsrc, hwidth, hheight, hch]

theorem FramePut.pix_eq {s u : State} {k : Nat} {ops : List Instr} (hpix : s.enc.pix = 0)
    (hu : FramePut s k ops u) : u.enc.pix = k := by
  rw [hu.later.pix, hpix, Nat.zero_add]

/-- Before the last pixel the frame ends with its opcodes. -/
theorem FramePut.unfinished {s u : State} {k : Nat} {ops : List Instr} (hu : FramePut s k ops u)
    (hk : k < s.enc.n) : Holds u.mem s.enc.outBase (frameOut Config.block s.enc ops) ∧
      u.enc.op = (frameOut Config.block s.enc ops).length := by
  simpa [hk.ne] using And.intro hu.frame hu.op

/-- ENC reads source pixel `k` after `k` pixels, as the source has not changed (R61, R119). -/
theorem FramePut.readPixel_eq {s u : State} {k : Nat} {ops : List Instr} (h : Inv Config.block s)
    (hb : s.enc.status.busy = true) (hpix : s.enc.pix = 0) (hu : FramePut s k ops u)
    (hk : k < s.enc.n) : readPixel u.mem u.enc = sourcePixel s.mem s.enc k := by
  have hway := h.encode hb
  obtain ⟨-, -, -, hch, hsb⟩ := latched_of_encCommand hu.later.command
  have hupix := hu.pix_eq hpix
  have hroom := pixel_room hk (Nat.le_refl (s.enc.n * s.enc.ch.toNat))
  calc readPixel u.mem u.enc = sourcePixel u.mem s.enc k := by
        simp only [sourcePixel, readPixel, sourceAddr, hch, hsb, hupix]
    _ = sourcePixel s.mem s.enc k := by
        refine sourcePixel_congr hway.chOk fun j hj => hu.source _ ?_
        rw [MemoryProofs.srcRegion_eq hway, inRegion_iff]
        dsimp only
        omega

/-- A pixel step makes the frame longer by the opcodes it puts, and ends it at the last pixel. -/
theorem FramePut.next {s u : State} {k : Nat} {ops : List Instr} (h : Inv Config.block s)
    (hb : s.enc.status.busy = true) (hpix : s.enc.pix = 0) (hu : FramePut s k ops u)
    (hk : k < s.enc.n) : ∃ t ops', step u = .next t ∧ FramePut s (k + 1) ops' t := by
  have hlater := hu.later
  have hlt : s.enc.pix + k < s.enc.n := by omega
  have hm := hlater.encMoves hlt
  have hbu := hlater.running hlt
  obtain ⟨t, ht, hstep⟩ := sourceStep_answers hlater.inv hm hlater.started
  obtain ⟨hout, hcap, hn, -, -⟩ := latched_of_encCommand hlater.command
  have hupix := hu.pix_eq hpix
  obtain ⟨hframe, hop⟩ := hu.unfinished hk
  obtain ⟨new, hnew, hin⟩ := hu.inStep.next hlater.inv.encRun (readPixel u.mem u.enc) (encLast u)
  have htaken : sourcePixels s.mem s.enc k ++ [readPixel u.mem u.enc] =
      sourcePixels s.mem s.enc (k + 1) := by
    rw [hu.readPixel_eq h hb hpix hk, sourcePixels_succ]
  have htrailer : trailerOut Config.block u =
      if k + 1 = s.enc.n then Config.block.trailer.toList else [] := by
    rw [trailerOut, hupix, hn]
  have hlonger : frameOut Config.block s.enc (ops ++ new) =
      frameOut Config.block s.enc ops ++ (encOut u).1 :=
    (frameOut_append ..).trans (congrArg (frameOut Config.block s.enc ops ++ ·) hnew.symm)
  have hstores := hstep.stores
  rw [hout, hop, htrailer] at hstores
  refine ⟨t, ops ++ new, ht, hlater.next hlt ht, fun a ha => ?_, ?_, ?_, ?_, ?_, fun hl => ?_⟩
  · exact (byteAt_src_next hlater.inv hbu ht (srcRegion_later hlater ▸ ha)).trans (hu.source a ha)
  · exact (htaken ▸ hin).congr hstep.cur hstep.cache hstep.runacc
  · rw [hlonger, List.append_assoc]
    exact holds_append_of_stores hframe hstores
  · rw [hstep.op, trailerOut_length, hlonger, List.length_append, hop, hupix, hn]
  · exact hcap ▸ op_le_outCap hlater.inv hm ht
  · rw [hstep.runacc]
    exact encOut_last_runacc hlater.inv.encRun (by rw [hupix, hn, hl])

/-- The frame an ENCODE leaves, under way in `s` at its first step, after that step and one for each pixel
(R133). -/
theorem runFor_framePut {s : State} (h : Inv Config.block s) (hturns : s.turns = [])
    (hidle : s.dec.status.busy = false) (hb : s.enc.status.busy = true) (h0 : s.enc.op = 0) :
    ∃ t ops, runFor (1 + s.enc.n) s = .next t ∧ FramePut s s.enc.n ops t := by
  obtain ⟨u, hu, hstart⟩ := framePut_header h hturns hidle hb h0
  obtain ⟨hpix, -⟩ := (h.encode hb).atHeader h0
  obtain ⟨t, ht, ops, hend⟩ := runFor_induction (P := fun k t => ∃ ops, FramePut s k ops t) s.enc.n
    ⟨[], hstart⟩ fun k v hk ⟨_, hv⟩ => by
      obtain ⟨t, ops', ht, hput⟩ := hv.next h hb hpix hk
      exact ⟨t, ht, ops', hput⟩
  rw [Nat.add_comm 1, runFor_succ _ hu]
  exact ⟨t, ops, ht, hend⟩

end Sys2Proof.LosslessProofs
end

section
/-! PROOFS. A DECODE whose stream is known emits the pixels its opcodes give, and writes them one after
the other (R107, R114). -/

namespace Sys2Proof.LosslessProofs

open Sys2Proof.Machine Sys2Proof.Safety Sys2Proof.Laws Sys2Proof.StateProofs Sys2Proof.MemoryProofs
  Sys2Proof.EncodingProofs Sys2Proof.DecoderProofs Sys2Proof.EncoderProofs

/-- The opcodes `ops` are what DEC's stream has left: they stand from SP up to LIMIT. -/
structure StreamLeft (m : Memory) (d : Decoder) (ops : List Instr) : Prop where
  wf : ∀ i ∈ ops, i.wf = true
  bytes : Holds m (d.fb + d.sp) (ops.flatMap encode)
  limit : d.sp + (ops.flatMap encode).length = d.limit

theorem StreamLeft.congr {m : Memory} {d d' : Decoder} {ops : List Instr} (h : StreamLeft m d ops)
    (hfb : d'.fb = d.fb) (hsp : d'.sp = d.sp) (hlimit : d'.limit = d.limit) : StreamLeft m d' ops :=
  ⟨h.wf, by rw [hfb, hsp]; exact h.bytes, by rw [hsp, hlimit]; exact h.limit⟩

/-- The first opcode left is the one that DEC fetches (R98). -/
theorem StreamLeft.fetchOp_eq {cfg : Config} {s : State} {i : Instr} {ops : List Instr}
    (hu : DecodeUnderWay cfg s.dec) (h : StreamLeft s.mem s.dec (i :: ops)) :
    fetchOp cfg s = some i := by
  have hbytes := h.bytes
  have hend := h.limit
  have hlimit : s.dec.limit + 8 = s.dec.frameLen := hu.limit
  have hframe := hu.frame
  rw [regionOk, spanOk_iff] at hframe
  have hroom : s.dec.frameBase + s.dec.frameLen ≤ cfg.memSize := hframe
  rw [← hu.fb] at hroom
  rw [List.flatMap_cons] at hbytes
  rw [List.flatMap_cons, List.length_append] at hend
  obtain ⟨hop, -⟩ := holds_append.mp hbytes
  refine fetchOp_of_decode (n := (encode i).length) (rest := []) ?_ ?_
  · rw [fetchAddr]
    omega
  · exact decode_of_encode_eq (h.wf i List.mem_cons_self) hop.symm

/-- Past the first opcode's bytes stand the others. -/
theorem StreamLeft.tail {m : Memory} {d : Decoder} {i : Instr} {ops : List Instr}
    (h : StreamLeft m d (i :: ops)) : StreamLeft m (opEffect i d) ops := by
  obtain ⟨hwf, hbytes, hend⟩ := h
  rw [List.flatMap_cons] at hbytes
  rw [List.flatMap_cons, List.length_append] at hend
  obtain ⟨-, hrest⟩ := holds_append.mp hbytes
  rw [opEffect_frame]
  refine ⟨fun j hj => hwf j (List.mem_cons_of_mem i hj), ?_, ?_⟩
  · dsimp only
    rw [opEffect_sp, ← Nat.add_assoc]
    exact hrest
  · dsimp only
    rw [opEffect_sp]
    omega

/-- While pixels are left to draw, the case of R107 that applies makes the first of them CUR and leaves
the others. -/
theorem decPath_of_drawn {cfg : Config} {s : State} {ops : List Instr} {px : Pixel} {rest : List Pixel}
    (hu : DecodeUnderWay cfg s.dec) (h : StreamLeft s.mem s.dec ops)
    (hdrawn : drawn s.dec ops = px :: rest) :
    ∃ f ops', DecPath cfg s f ∧ StreamLeft s.mem (f s.dec) ops' ∧ (f s.dec).cur = px ∧
      drawn (f s.dec) ops' = rest := by
  by_cases hrun : s.dec.runcnt = 0
  · cases ops with
    | nil =>
      rw [drawn_nil hrun] at hdrawn
      cases hdrawn
    | cons i ops =>
      have hend := h.limit
      have hlen := (encode_length i).1
      rw [List.flatMap_cons, List.length_append] at hend
      rw [drawn_cons hrun] at hdrawn
      obtain ⟨hcur, hrest⟩ := List.cons.inj hdrawn
      exact ⟨_, ops, .opcode i hrun (by omega) (h.fetchOp_eq hu), h.tail, hcur, hrest⟩
  · rw [drawn_active hrun] at hdrawn
    obtain ⟨hcur, hrest⟩ := List.cons.inj hdrawn
    exact ⟨_, ops, .activeRun hrun, h.congr rfl rfl rfl, hcur, hrest⟩

/-- A DECODE that was at its first pixel in `s`, `k` pixels later: it has written the first of the pixels
`pxs`, and its stream gives the others. -/
structure Replayed (s : State) (pxs : List Pixel) (k : Nat) (t : State) : Prop where
  later : PixelsLater s k t
  stream : ∃ ops, StreamLeft t.mem t.dec ops ∧ drawn t.dec ops = pxs.drop k
  written : Holds t.mem s.dec.db ((pxs.take k).flatMap (outBytes s.dec.srcCh s.dec.outCh))

theorem outBytes_flatMap_length {srcCh outCh : Byte} (h : channelsOk outCh = true) (pxs : List Pixel) :
    (pxs.flatMap (outBytes srcCh outCh)).length = pxs.length * outCh.toNat := by
  simp [List.length_flatMap, outBytes_length h]

/-- What a running DECODE's stream has left lies in FRAME, which no step changes (R61). -/
theorem StreamLeft.next {u t : State} {d : Decoder} {ops : List Instr} (h : Inv Config.block u)
    (hb : u.dec.status.busy = true) (ht : step u = .next t) (hs : StreamLeft u.mem d ops)
    (hfb : d.fb = u.dec.fb) (hlimit : d.limit = u.dec.limit) : StreamLeft t.mem d ops := by
  have hu := h.decode hb
  have hlim : u.dec.limit + 8 = u.dec.frameLen := hu.limit
  have hend := hs.limit
  refine ⟨hs.wf, holds_congr hs.bytes fun x hlow hhigh => ?_, hs.limit⟩
  refine stepWith_keeps_input (e := .dec) h hb ht ((inRegion_iff _ x).mpr ?_)
  simp only [inputRegion, frameRegion, ← hu.fb, ← hfb]
  omega

/-- A pixel step writes the next pixel and leaves the others to the stream. -/
theorem Replayed.next {s u : State} {pxs : List Pixel} {k : Nat} (hpix : s.dec.pix = 0)
    (hch : channelsOk s.dec.outCh = true) (hcount : pxs.length = s.dec.n) (hu : Replayed s pxs k u)
    (hk : k < s.dec.n) : ∃ t, step u = .next t ∧ Replayed s pxs (k + 1) t := by
  have hlater := hu.later
  have hlt : s.dec.pix + k < s.dec.n := by omega
  have hkl : k < pxs.length := by omega
  have hm := hlater.decMoves hlt
  have hb := hlater.running hlt
  obtain ⟨-, -, hsrc, hout, -, hdb⟩ := latched_of_command hlater.command
  obtain ⟨ops, hstream, hdrawn⟩ := hu.stream
  rw [List.drop_eq_getElem_cons hkl] at hdrawn
  obtain ⟨f, ops', hpath, hstream', hcur, hrest⟩ :=
    decPath_of_drawn (s := u.endTurn) (hlater.inv.decode hb) hstream hdrawn
  have ht := stepWith_dec_of_path hlater.inv hm hpath
  obtain ⟨hcommand, -⟩ := path_keeps_command hpath
  obtain ⟨-, hlimit, -, -, hfb, -⟩ := latched_of_command hcommand
  obtain ⟨-, hlimit', -, -, hfb', -⟩ :=
    latched_of_command (emitted_same (u.endTurn.mapDec f))
  refine ⟨_, ht, hlater.next hlt ht, ⟨ops', ?_, ?_⟩, ?_⟩
  · exact (hstream'.next hlater.inv hb ht hfb hlimit).congr hfb' (emitted_sp _) hlimit'
  · exact (drawn_congr (emitted_cur _) (emitted_cache _) (emitted_runcnt _) ops').trans hrest
  · have hstores := (pixelStep_emitted hpath).stores hlater.inv.memWf
    have htcur : (emitted (u.endTurn.mapDec f)).dec.cur = pxs[k] := (emitted_cur _).trans hcur
    have hcursor : s.dec.db + k * s.dec.outCh.toNat =
        s.dec.db + ((pxs.take k).flatMap (outBytes s.dec.srcCh s.dec.outCh)).length := by
      rw [outBytes_flatMap_length hch, List.length_take_of_le hkl.le]
    rw [htcur, hdb, hlater.pix, hpix, Nat.zero_add, hout, hsrc, hcursor] at hstores
    rw [List.take_succ_eq_append_getElem hkl, List.flatMap_append]
    simpa using holds_append_of_stores hu.written hstores

/-- A DECODE whose stream gives as many pixels as it has to emit writes them and ends with code 0. -/
theorem runFor_replayed {s : State} {ops : List Instr} (h : Inv Config.block s)
    (hturns : s.turns = []) (hb : s.dec.status.busy = true) (hpix : s.dec.pix = 0)
    (hstream : StreamLeft s.mem s.dec ops) (hcount : (drawn s.dec ops).length = s.dec.n) :
    ∃ t, runFor s.dec.n s = .next t ∧ t.dec.status = statusEnded .ok ∧
      t.dec.outLen = s.dec.n * s.dec.outCh.toNat ∧
      Holds t.mem s.dec.db ((drawn s.dec ops).flatMap (outBytes s.dec.srcCh s.dec.outCh)) := by
  have hstart : Replayed s (drawn s.dec ops) 0 s :=
    ⟨pixelsLater_zero h hturns hb, ⟨ops, hstream, rfl⟩, rfl⟩
  obtain ⟨t, ht, hend⟩ := runFor_induction s.dec.n hstart fun k u hk hu =>
    hu.next hpix (h.decode hb).outChOk hcount hk
  obtain ⟨hstatus, hlen⟩ := hend.later.ended (by omega)
  have hwritten := hend.written
  rw [← hcount, List.take_length] at hwritten
  exact ⟨t, ht, hstatus, hlen, hwritten⟩

end Sys2Proof.LosslessProofs
end

section
/-! PROOFS. Encoding and decoding again gives the source back (O35). -/

namespace Sys2Proof.LosslessProofs

open Sys2Proof.Machine Sys2Proof.Safety Sys2Proof.Laws Sys2Proof.StateProofs Sys2Proof.MemoryProofs
  Sys2Proof.DecoderProofs Sys2Proof.EncoderProofs

/-- With no turn pending and both engines idle, the host makes its next move (log 4). -/
theorem hostMoves_of_idle {s : State} {op : HostOp} (hturns : s.turns = [])
    (hdec : s.dec.status.busy = false) (henc : s.enc.status.busy = false)
    (htodo : s.host.todo = [op]) : HostMoves s op :=
  ⟨by simp [mover, hturns, defaultAgent, decRunning, encRunning, hdec, henc], by rw [htodo]; rfl⟩

/-! ## The ENCODE's start -/

/-- The machine after the start step of an ENCODE that passes its checks (R38, R142). -/
def encodeStarted (s : State) : State :=
  (afterTake s).mapEnc fun e => beginEncode (startEnc 0x02 e)

theorem step_encode {s : State} (hm : HostMoves s (.writeField .enc 0x00 0x02))
    (hdec : s.dec.status.busy = false) (henc : s.enc.status.busy = false)
    (hchecks : firstFailing (encodeChecks Config.block s.enc) = none) :
    step s = .next (encodeStarted s) := by
  have hclear (r : Region) : meetsRunningDec ((afterTake s).mapEnc (startEnc 0x02)) r = false := by
    simp [meetsRunningDec, hdec]
  exact (step_startEnc (c := 0x02) hm henc rfl (by decide)).trans
    (encodeCommand_of_pass (s := (afterTake s).mapEnc (startEnc 0x02)) hchecks (hclear _) (hclear _))

/-! ## The DECODE's start -/

theorem decodeArgChecks_pass {cfg : Config} {d : Decoder} (hframe : regionOk cfg (frameRegion d) = true)
    (hdst : regionOk cfg (dstRegion d) = true)
    (hapart : regionsOverlap (frameRegion d) (dstRegion d) = false) (hlen : minFrame ≤ d.frameLen) :
    firstFailing (decodeArgChecks cfg d) = none := by
  simpa [firstFailing_none, decodeArgChecks, hframe, hdst, hapart] using hlen

/-- The header that ENC puts (R118). -/
def headerOf (cfg : Config) (e : Encoder) : Header :=
  ⟨cfg.magic, e.width, e.height, e.channels, e.colorspace⟩

theorem headerChecks_pass {cfg : Config} {e : Encoder} {d : Decoder}
    (hch : channelsOk e.channels = true) (hwidth : e.width ≠ 0) (hheight : e.height ≠ 0)
    (hreq : d.outChReq = e.channels)
    (hfits : fits cfg (e.width.toNat * e.height.toNat * e.channels.toNat) = true)
    (hcap : e.width.toNat * e.height.toNat * e.channels.toNat ≤ d.dstCap) :
    firstFailing (headerChecks cfg (headerOf cfg e) ++ decodeOutChecks cfg d (headerOf cfg e)) =
      none := by
  have hout : outChannels d (headerOf cfg e) = e.channels := by
    rw [outChannels, hreq]
    exact ite_self _
  have himage : imageBytes d (headerOf cfg e) = e.width.toNat * e.height.toNat * e.channels.toNat := by
    rw [imageBytes, hout]
    rfl
  simp only [firstFailing_none, headerChecks, decodeOutChecks, hout, himage, List.mem_append,
    List.mem_cons, List.not_mem_nil, or_false, forall_eq, or_imp, forall_and, Bool.or_eq_false_iff,
    Bool.not_eq_false', decide_eq_false_iff_not, Nat.not_lt]
  exact ⟨⟨not_not.mpr rfl, hch, hwidth, hheight⟩, hch, hfits, hcap⟩

/-- A big-endian number is read back from its bytes (R47). -/
theorem be32_of_bytes {a b c d : Byte} {v : BitVec 32} (h : [a, b, c, d] = be32Bytes v) :
    be32 a b c d = v := by
  rw [be32Bytes_eq] at h
  simp only [List.cons.injEq, and_true] at h
  obtain ⟨rfl, rfl, rfl, rfl⟩ := h
  have hv := v.isLt
  apply BitVec.eq_of_toNat_eq
  rw [be32_toNat]
  simp only [BitVec.toNat_ofNat]
  omega

/-- DEC reads back the header that ENC put (R137). -/
theorem readHeader_of_holds {cfg : Config} {m : Memory} {a : Nat} {e : Encoder}
    (h : Holds m a (headerOut cfg e)) : readHeader m a = headerOf cfg e := by
  simp only [headerOut, holds_append, List.length_append, Vector.length_toList] at h
  obtain ⟨⟨⟨hmagic, hwidth⟩, hheight⟩, hlast⟩ := h
  rw [Holds, Vector.length_toList] at hmagic
  obtain ⟨hch, hcs⟩ := List.cons.inj hlast
  simp only [readHeader, headerOf, Header.mk.injEq]
  exact ⟨Vector.toList_inj.mp hmagic, be32_of_bytes hwidth, be32_of_bytes hheight, hch,
    (List.cons.inj hcs).1⟩

/-- The machine after the start step of a DECODE that passes its checks on a frame ENC put (R139). -/
def decodeStarted (cfg : Config) (s : State) (e : Encoder) : State :=
  (afterTake s).mapDec fun d =>
    beginDecode ((startDec 0x01 d).report (headerOf cfg e)) (headerOf cfg e)

/-- DEC, idle like ENC, is set to decode at DST a frame of ENC's that ends at FRAME_LEN, with the
frame's own channel count. -/
structure FrameAtHand (s : State) (e : Encoder) (ops : List Instr) : Prop where
  frame : Holds s.mem s.dec.frameBase (frameOut Config.block e ops ++ Config.block.trailer.toList)
  frameLen : s.dec.frameLen = (frameOut Config.block e ops).length + 8
  req : s.dec.outChReq = e.channels
  wf : ∀ i ∈ ops, i.wf = true
  chOk : channelsOk e.channels = true
  width : e.width ≠ 0
  height : e.height ≠ 0
  image : fits Config.block (e.width.toNat * e.height.toNat * e.channels.toNat) = true
  cap : e.width.toNat * e.height.toNat * e.channels.toNat ≤ s.dec.dstCap
  frameOk : regionOk Config.block (frameRegion s.dec) = true
  dstOk : regionOk Config.block (dstRegion s.dec) = true
  apart : regionsOverlap (frameRegion s.dec) (dstRegion s.dec) = false

theorem FrameAtHand.readHeader_eq {s : State} {e : Encoder} {ops : List Instr}
    (h : FrameAtHand s e ops) : readHeader s.mem s.dec.frameBase = headerOf Config.block e := by
  have hframe := h.frame
  rw [frameOut, List.append_assoc] at hframe
  exact readHeader_of_holds (holds_append.mp hframe).1

/-- Its checks pass. -/
theorem FrameAtHand.step_decode {s : State} {e : Encoder} {ops : List Instr} (h : FrameAtHand s e ops)
    (hm : HostMoves s (.writeField .dec 0x00 0x01)) (hdec : s.dec.status.busy = false)
    (henc : s.enc.status.busy = false) : step s = .next (decodeStarted Config.block s e) := by
  have hclear (r : Region) : meetsRunningEnc ((afterTake s).mapDec (startDec 0x01)) r = false := by
    simp [meetsRunningEnc, henc]
  have hlen : minFrame ≤ s.dec.frameLen := by
    rw [h.frameLen, frameOut, List.length_append, headerOut_length, minFrame]
    omega
  have hargs : firstFailing (decodeArgChecks Config.block s.dec) = none :=
    decodeArgChecks_pass h.frameOk h.dstOk h.apart hlen
  have hheader : firstFailing (headerChecks Config.block (readHeader s.mem s.dec.frameBase) ++
      decodeOutChecks Config.block s.dec (readHeader s.mem s.dec.frameBase)) = none := by
    rw [h.readHeader_eq]
    exact headerChecks_pass h.chOk h.width h.height h.req h.image h.cap
  rw [decodeStarted, ← h.readHeader_eq]
  exact (step_startDec (c := 0x01) hm hdec rfl (by decide)).trans
    (decodeCommand_of_pass (s := (afterTake s).mapDec (startDec 0x01)) hargs (hclear _) hheader
      (hclear _))

/-- The destination has the frame's channel count. -/
theorem FrameAtHand.outCh_eq {s : State} {e : Encoder} {ops : List Instr} (h : FrameAtHand s e ops) :
    (decodeStarted Config.block s e).dec.outCh = e.channels := by
  change (if s.dec.outChReq = 0 then e.channels else s.dec.outChReq) = e.channels
  rw [h.req, ite_self]

/-- The opcodes are what the stream has left at its start (R106). -/
theorem FrameAtHand.streamLeft {s : State} {e : Encoder} {ops : List Instr} (h : FrameAtHand s e ops) :
    StreamLeft (decodeStarted Config.block s e).mem (decodeStarted Config.block s e).dec ops := by
  have hframe := h.frame
  have hlen := h.frameLen
  rw [frameOut, List.append_assoc] at hframe
  rw [frameOut, List.length_append, headerOut_length] at hlen
  obtain ⟨-, hrest⟩ := holds_append.mp hframe
  rw [headerOut_length] at hrest
  refine ⟨h.wf, (holds_append.mp hrest).1, ?_⟩
  change 14 + _ = s.dec.frameLen - 8
  omega

/-- A DECODE of the frame writes the pixels its opcodes give and ends with code 0, one step for its start
and one for each pixel (R139, R116). -/
theorem FrameAtHand.runFor_decode {s : State} {e : Encoder} {ops : List Instr}
    (h : FrameAtHand s e ops) (hinv : Inv Config.block s) (hturns : s.turns = [])
    (hdec : s.dec.status.busy = false) (henc : s.enc.status.busy = false)
    (htodo : s.host.todo = [.writeField .dec 0x00 0x01])
    (hcount : (drawn Decoder.reset ops).length = e.width.toNat * e.height.toNat) :
    ∃ t, runFor (1 + e.width.toNat * e.height.toNat) s = .next t ∧ t.dec.status = statusEnded .ok ∧
      t.dec.outLen = e.width.toNat * e.height.toNat * e.channels.toNat ∧
      Holds t.mem s.dec.dstBase
        ((drawn Decoder.reset ops).flatMap (outBytes e.channels e.channels)) := by
  have hstart := h.step_decode (hostMoves_of_idle hturns hdec henc htodo) hdec henc
  have hdrawn : drawn (decodeStarted Config.block s e).dec ops = drawn Decoder.reset ops := by
    refine drawn_congr ?_ ?_ ?_ ops <;> rfl
  obtain ⟨t, ht, hstatus, hlen, hwritten⟩ := runFor_replayed (s := decodeStarted Config.block s e)
    (stepKeepsInv s _ hinv hstart) (congrArg List.tail hturns) rfl rfl h.streamLeft
    (hdrawn ▸ hcount)
  rw [h.outCh_eq] at hlen hwritten
  rw [hdrawn] at hwritten
  rw [Nat.add_comm 1, runFor_succ _ hstart]
  exact ⟨t, ht, hstatus, hlen, hwritten⟩

/-! ## There and back -/

/-- DEC's fields set by the host, with the move that starts a DECODE pending. -/
def withDecode (s : State) (base len dst cap : Nat) (ch : Byte) : State :=
  { s with
    dec := { s.dec with
      frameBase := base, frameLen := len, dstBase := dst, dstCap := cap, outChReq := ch }
    host := { s.host with todo := [.writeField .dec 0x00 0x01] } }

theorem inv_withDecode {cfg : Config} {s : State} {base len dst cap : Nat} (h : Inv cfg s)
    (hidle : s.dec.status.busy = false) (hbase : fits cfg base = true) (hlen : fits cfg len = true)
    (hdst : fits cfg dst = true) (hcap : fits cfg cap = true) (ch : Byte) :
    Inv cfg (withDecode s base len dst cap ch) := by
  have hw := h.decWidths
  have hwidths : DecWidthsFit cfg (withDecode s base len dst cap ch).dec :=
    ⟨hbase, hlen, hdst, hcap, hw.outLen, hw.sp, hw.pix, hw.n, hw.limit, hw.fb, hw.db⟩
  exact inv_congr (inv_decIdle h hwidths h.decStatus hidle h.decCache h.decRun) rfl rfl rfl rfl

/-- A finished ENCODE's frame is one that DEC can be set to decode. -/
theorem FramePut.atHand {s t : State} {ops : List Instr} {dst cap : Nat} (h : Inv Config.block s)
    (hb : s.enc.status.busy = true) (hput : FramePut s s.enc.n ops t)
    (hlen : t.enc.outLen = t.enc.op) (hfit : dst + cap ≤ Config.block.memSize)
    (hcap : cap < Config.block.memSize)
    (himage : s.enc.width.toNat * s.enc.height.toNat * s.enc.channels.toNat ≤ cap)
    (hclear : dst + cap ≤ s.enc.outBase ∨ s.enc.outBase + t.enc.outLen ≤ dst) :
    FrameAtHand (withDecode t s.enc.outBase t.enc.outLen dst cap s.enc.channels) s.enc ops := by
  have hu := h.encode hb
  have hpos : 0 < s.enc.width.toNat * s.enc.height.toNat := hu.n ▸ Nat.zero_lt_of_lt hu.remain
  have hframe := hput.frame
  have hop := hput.op
  have hroom := hput.room
  have hout := hu.out
  rw [regionOk, spanOk_iff] at hout
  have hend : s.enc.outBase + s.enc.outCap ≤ Config.block.memSize := hout
  rw [if_pos rfl] at hframe hop
  refine ⟨hframe, hlen.trans hop, rfl, hput.inStep.wf, hu.ch ▸ hu.chOk, ?_, ?_,
    (fits_iff _ _).mpr (himage.trans_lt hcap), himage, ?_, ?_, ?_⟩
  · intro h0
    simp [h0] at hpos
  · intro h0
    simp [h0] at hpos
  · refine (spanOk_iff _ _ _).mpr ?_
    change s.enc.outBase + t.enc.outLen ≤ Config.block.memSize
    omega
  · exact (spanOk_iff _ _ _).mpr hfit
  · rw [Bool.eq_false_iff, Ne, regionsOverlap_eq_true]
    change ¬(_ ∧ _ ∧ s.enc.outBase < dst + cap ∧ dst < s.enc.outBase + t.enc.outLen)
    omega

/-- Settles O35: the opcodes that the ENCODE puts give the source's pixels, and the DECODE writes what
they give. -/
theorem decodeOfEncodeIsIdentity : Obligations.DecodeOfEncodeIsIdentity := by
  intro s h hturns hdec henc htodo hchecks
  have hstart := step_encode (hostMoves_of_idle hturns hdec henc htodo) hdec henc hchecks
  have hinv := stepKeepsInv s _ h hstart
  obtain ⟨t, ops, ht, hput⟩ :=
    runFor_framePut (s := encodeStarted s) hinv (congrArg List.tail hturns) hdec rfl rfl
  have hlater := hput.later
  obtain ⟨hstatus, hlen⟩ := hlater.ended (Nat.zero_add _)
  have hidle : t.dec.status.busy = false := hlater.dec ▸ hdec
  have hpixels : drawn Decoder.reset ops =
      sourcePixels (encodeStarted s).mem (encodeStarted s).enc (encodeStarted s).enc.n := by
    simpa [hput.flushed rfl] using hput.inStep.pixels
  refine ⟨t, ?_, hstatus, fun dst cap hfit hcap hdst himage hclear => ?_⟩
  · rw [show 2 = 1 + 1 from rfl, Nat.add_right_comm, runFor_succ _ hstart]
    exact ht
  · have hat := hput.atHand hinv rfl hlen hfit hcap himage hclear
    have hinv' : Inv Config.block
        (withDecode t s.enc.outBase t.enc.outLen dst cap s.enc.channels) :=
      inv_withDecode hlater.inv hidle h.encWidths.outBase hlater.inv.encWidths.outLen
        ((fits_iff _ _).mpr hdst) ((fits_iff _ _).mpr hcap) _
    obtain ⟨u, hu, hustatus, hulen, hwritten⟩ := hat.runFor_decode hinv' hlater.turns hidle
      (by rw [withDecode, hstatus]; rfl) rfl (by rw [hpixels, sourcePixels_length]; rfl)
    refine ⟨u, hu, hustatus, hulen, fun j hj => ?_⟩
    have hsource := outBytes_sourcePixels (e := (encodeStarted s).enc) hat.chOk (encodeStarted s).mem
      (encodeStarted s).enc.n
    rw [hpixels] at hwritten
    have hcopy : Holds u.mem dst (bytesAt s.mem s.enc.srcBase
        (s.enc.width.toNat * s.enc.height.toNat * s.enc.channels.toNat)) :=
      (congrArg (Holds u.mem dst) hsource).mp hwritten
    rw [holds_iff.mp hcopy j (by rwa [bytesAt_length]), ← bytesAt_getD s.mem s.enc.srcBase hj]
    exact (List.getD_eq_getElem _ _ _).symm

end Sys2Proof.LosslessProofs
end

section
/-! PROOFS. The start steps of the commands: each check in order, and the state it leaves (O36 to O38,
O40). -/

namespace Sys2Proof.CommandProofs

open Sys2Proof.Machine Sys2Proof.Safety Sys2Proof.Laws Sys2Proof.MemoryProofs

/-! ## Checks in order -/

/-- What start checks decide (R148): the code of the first that fails makes `fails` hold; where none
fails, `passes` holds. -/
def Verdict (fails : Code → Prop) (passes : Prop) (checks : List (Bool × Code)) : Prop :=
  (firstFailing checks).elim passes fails

section verdict
variable {F : Code → Prop} {P : Prop} {checks : List (Bool × Code)}

theorem verdict_of_failure {c : Code} (h : firstFailing checks = some c) (hc : F c) :
    Verdict F P checks := by
  rwa [Verdict, h]

theorem verdict_of_pass (h : firstFailing checks = none) (hp : P) : Verdict F P checks := by
  rwa [Verdict, h]

/-- Where `passes` is the outcome of code 0, the outcome of the code reported is the verdict. -/
theorem verdict_of_getD (h : F ((firstFailing checks).getD .ok)) : Verdict F (F .ok) checks := by
  rw [Verdict]
  cases hc : firstFailing checks <;> rwa [hc] at h

/-- The first check decides if it fails; the others are looked at only if it passes. -/
theorem Verdict.ite {b : Bool} {c : Code} {p B : Prop} [Decidable p]
    (h : Verdict F P ((b, c) :: checks)) (hb : b = true ↔ p) (hrest : Verdict F P checks → B) :
    if p then F c else B := by
  rw [Verdict, firstFailing_cons] at h
  split_ifs with hp
  · rwa [if_pos (hb.mpr hp)] at h
  · rw [if_neg (mt hb.mp hp)] at h
    exact hrest h

/-- Where every check has passed, `passes` holds. -/
theorem Verdict.pass (h : Verdict F P []) : P := h

end verdict

/-! ## What each check says in numbers -/

theorem not_fits_iff {cfg : Config} {v : Nat} : (!fits cfg v) = true ↔ v ≥ cfg.memSize := by
  rw [Bool.not_eq_true', ← Bool.not_eq_true, fits_iff, Nat.not_lt]

theorem not_regionOk_iff {cfg : Config} {r : Region} :
    (!regionOk cfg r) = true ↔ r.base + r.len > cfg.memSize := by
  rw [Bool.not_eq_true', ← Bool.not_eq_true, regionOk, spanOk_iff, Nat.not_le]

theorem not_regionsOk_iff {cfg : Config} {r r' : Region} :
    (!regionOk cfg r || !regionOk cfg r') = true ↔
      r.base + r.len > cfg.memSize ∨ r'.base + r'.len > cfg.memSize := by
  rw [Bool.or_eq_true, not_regionOk_iff, not_regionOk_iff]

theorem not_channelsOk_iff {ch : Byte} :
    (!channelsOk ch) = true ↔ ¬(ch.toNat = 3 ∨ ch.toNat = 4) := by
  rw [Bool.not_eq_true', ← Bool.not_eq_true, channelsOk_iff]

theorem zeroDimension_iff {w h : BitVec 32} :
    (decide (w = 0) || decide (h = 0)) = true ↔ w.toNat = 0 ∨ h.toNat = 0 := by
  simp only [Bool.or_eq_true, decide_eq_true_eq, BitVec.toNat_eq]
  exact Iff.rfl

/-! ## The header in memory -/

/-- The header of the frame that DEC's fields name (R137). -/
def frameHeader (s : State) : Header := readHeader s.mem s.dec.frameBase

theorem frameHeader_width (s : State) : (frameHeader s).width.toNat = frameWidth s := be32_toNat ..

theorem frameHeader_height (s : State) : (frameHeader s).height.toNat = frameHeight s := be32_toNat ..

theorem magicWrong_iff {cfg : Config} (s : State) :
    decide ((frameHeader s).magic ≠ cfg.magic) = true ↔
      bytesAt s.mem s.dec.frameBase 4 ≠ cfg.magic.toList := by
  have hmagic : (frameHeader s).magic.toList = bytesAt s.mem s.dec.frameBase 4 := rfl
  rw [decide_eq_true_eq, Ne, ← Vector.toList_inj, hmagic]

theorem headerDimensions_iff (s : State) :
    (decide ((frameHeader s).width = 0) || decide ((frameHeader s).height = 0)) = true ↔
      frameWidth s = 0 ∨ frameHeight s = 0 := by
  rw [zeroDimension_iff, frameHeader_width, frameHeader_height]

/-- The destination's channel count (R139, check 6). -/
theorem outChannels_toNat (s : State) : (outChannels s.dec (frameHeader s)).toNat =
    if s.dec.outChReq = 0 then frameByte s 12 else s.dec.outChReq.toNat :=
  apply_ite BitVec.toNat ..

theorem imageBytes_eq (s : State) : imageBytes s.dec (frameHeader s) = frameWidth s * frameHeight s *
    if s.dec.outChReq = 0 then frameByte s 12 else s.dec.outChReq.toNat := by
  rw [imageBytes, frameHeader_width, frameHeader_height, outChannels_toNat]

/-- The HDR fields of an engine that reports the frame's header (R137). -/
theorem headerReported_of_report {s t : State} {d : Decoder}
    (h : SameHeader (d.report (frameHeader s)) t.dec) : HeaderReported s t := by
  obtain ⟨hwidth, hheight, hch, hcs⟩ := h
  rw [HeaderReported, hwidth, hheight, hch, hcs]
  exact ⟨frameHeader_width s, frameHeader_height s, rfl, rfl⟩

/-! ## DECODE -/

/-- The machine after the initialisation of R38 for a code written to DEC. -/
def decInitialised (c : Byte) (s : State) : State := (afterTake s).mapDec (startDec c)

/-- The machine after the start step of a DECODE that passes its checks (R139, R106). -/
def decodeEntered (s : State) : State :=
  (decInitialised 0x01 s).mapDec fun d => beginDecode (d.report (frameHeader s)) (frameHeader s)

/-- The start step of a DECODE: the argument checks decide with HDR kept, the others with HDR as read
(R139, R137). -/
theorem startDecode_verdict {cfg : Config} {s : State}
    (hframe : firstFailing (decodeArgChecks cfg s.dec) = none →
      meetsRunningEnc s (frameRegion s.dec) = false)
    (hdst : firstFailing (decodeArgChecks cfg s.dec) = none →
      firstFailing (headerChecks cfg (frameHeader s) ++ decodeOutChecks cfg s.dec (frameHeader s)) =
        none → meetsRunningEnc s (dstRegion s.dec) = false) :
    ∃ t, startDecCommand cfg 0x01 (afterTake s) = .next t ∧ SameDecFields s.dec t.dec ∧
      Verdict (fun c => DecStartFails s t c ∧ SameHeader s.dec t.dec)
        (HeaderReported s t ∧ Verdict (DecStartFails s t) (t = decodeEntered s)
          (headerChecks cfg (frameHeader s) ++ decodeOutChecks cfg s.dec (frameHeader s)))
        (decodeArgChecks cfg s.dec) := by
  cases hargs : firstFailing (decodeArgChecks cfg s.dec) with
  | some code =>
    exact ⟨_, decodeCommand_of_argument (s := decInitialised 0x01 s) hargs,
      sameDecFields_of rfl rfl rfl rfl rfl,
      verdict_of_failure hargs ⟨⟨rfl, rfl, rfl, rfl⟩, rfl, rfl, rfl, rfl⟩⟩
  | none =>
    have hreport {t : State} := headerReported_of_report (s := s) (t := t)
      (d := (decInitialised 0x01 s).dec)
    cases hheader : firstFailing
        (headerChecks cfg (frameHeader s) ++ decodeOutChecks cfg s.dec (frameHeader s)) with
    | some code =>
      exact ⟨_, decodeCommand_of_header (s := decInitialised 0x01 s) hargs (hframe hargs) hheader,
        sameDecFields_of rfl rfl rfl rfl rfl, verdict_of_pass hargs
          ⟨hreport ⟨rfl, rfl, rfl, rfl⟩, verdict_of_failure hheader ⟨rfl, rfl, rfl, rfl⟩⟩⟩
    | none =>
      exact ⟨_, decodeCommand_of_pass (s := decInitialised 0x01 s) hargs (hframe hargs) hheader
          (hdst hargs hheader),
        sameDecFields_of rfl rfl rfl rfl rfl, verdict_of_pass hargs
          ⟨hreport ⟨rfl, rfl, rfl, rfl⟩, verdict_of_pass hheader rfl⟩⟩

/-- Settles O36: the verdict on the checks, read off one by one. -/
theorem decodeStartChecksInOrder : Obligations.DecodeStartChecksInOrder := by
  intro s v hm hv hb hframe hdst size d ch oc
  obtain ⟨t, ht, hfields, hverdict⟩ := startDecode_verdict hframe hdst
  have hwraps := not_regionsOk_iff (cfg := Config.block) (r := frameRegion d) (r' := dstRegion d)
  have hoverlap := regionsOverlap_eq_true (frameRegion d) (dstRegion d)
  have hout : (!channelsOk (outChannels d (frameHeader s))) = true ↔ ¬(oc = 3 ∨ oc = 4) := by
    rw [not_channelsOk_iff, outChannels_toNat]
  have hsize : (!fits Config.block (imageBytes d (frameHeader s))) = true ↔
      frameWidth s * frameHeight s * oc ≥ size := by
    rw [not_fits_iff, imageBytes_eq]
  have hcap : decide (d.dstCap < imageBytes d (frameHeader s)) = true ↔
      d.dstCap < frameWidth s * frameHeight s * oc := by
    rw [decide_eq_true_eq, imageBytes_eq]
  refine ⟨t, (step_startDec (c := 0x01) hm hb hv (by decide)).trans ht, hfields,
    hverdict.ite hwraps fun hr => hr.ite hoverlap fun hr => hr.ite decide_eq_true_iff fun hr =>
      ⟨hr.pass.1, hr.pass.2.ite (magicWrong_iff s) fun hr => hr.ite not_channelsOk_iff fun hr =>
        hr.ite (headerDimensions_iff s) fun hr => hr.ite hout fun hr => hr.ite hsize fun hr =>
          hr.ite hcap fun hr => ?_⟩⟩
  rw [hr.pass]
  exact ⟨rfl, rfl, congrArg₂ _ (frameHeader_width s) (frameHeader_height s), rfl, rfl,
    outChannels_toNat s, rfl, rfl, rfl, rfl, rfl, rfl, blank_get, rfl, rfl⟩

/-! ## PEEK -/

/-- The start step of a PEEK: the argument checks decide with HDR kept, those of the header with HDR as
read; it ends with code 0 where all pass. -/
theorem startPeek_verdict {cfg : Config} {s : State}
    (hframe : firstFailing (peekArgChecks cfg s.dec) = none →
      meetsRunningEnc s (frameRegion s.dec) = false) :
    ∃ t, startDecCommand cfg 0x03 (afterTake s) = .next t ∧ SameDecFields s.dec t.dec ∧
      Verdict (fun c => DecStartFails s t c ∧ SameHeader s.dec t.dec)
        (HeaderReported s t ∧
          Verdict (DecStartFails s t) (DecStartFails s t .ok) (headerChecks cfg (frameHeader s)))
        (peekArgChecks cfg s.dec) := by
  cases hargs : firstFailing (peekArgChecks cfg s.dec) with
  | some code =>
    exact ⟨_, peekCommand_of_argument (s := decInitialised 0x03 s) hargs,
      sameDecFields_of rfl rfl rfl rfl rfl,
      verdict_of_failure hargs ⟨⟨rfl, rfl, rfl, rfl⟩, rfl, rfl, rfl, rfl⟩⟩
  | none =>
    exact ⟨_, peekCommand_of_header (s := decInitialised 0x03 s) hargs (hframe hargs),
      sameDecFields_of rfl rfl rfl rfl rfl, verdict_of_pass hargs
        ⟨headerReported_of_report (d := (decInitialised 0x03 s).dec) ⟨rfl, rfl, rfl, rfl⟩,
          verdict_of_getD ⟨rfl, rfl, rfl, rfl⟩⟩⟩

/-- Settles O37: the three checks of the header share one code. -/
theorem peekReportsHeader : Obligations.PeekReportsHeader := by
  intro s v hm hv hb hframe d ch
  obtain ⟨t, ht, hfields, hverdict⟩ := startPeek_verdict hframe
  refine ⟨t, (step_startDec (c := 0x03) hm hb hv (by decide)).trans ht, hfields,
    hverdict.ite not_regionOk_iff fun hr => hr.ite decide_eq_true_iff fun hr => ⟨hr.pass.1, ?_⟩⟩
  rw [ite_or, ite_or]
  exact hr.pass.2.ite (magicWrong_iff s) fun hr => hr.ite not_channelsOk_iff fun hr =>
    hr.ite (headerDimensions_iff s) Verdict.pass

/-! ## ENCODE -/

/-- The machine after the initialisation of R38 for an ENCODE. -/
def encInitialised (s : State) : State := (afterTake s).mapEnc (startEnc 0x02)

/-- The start step of an ENCODE (R38, R142). -/
theorem startEncode_verdict {cfg : Config} {s : State}
    (hclear : firstFailing (encodeChecks cfg s.enc) = none →
      meetsRunningDec s (srcRegion s.enc) = false ∧ meetsRunningDec s (outRegion s.enc) = false) :
    ∃ t, startEncCommand cfg 0x02 (afterTake s) = .next t ∧ SameEncFields s.enc t.enc ∧
      Verdict (EncStartFails s t) (t = LosslessProofs.encodeStarted s) (encodeChecks cfg s.enc) := by
  cases hchecks : firstFailing (encodeChecks cfg s.enc) with
  | some code =>
    exact ⟨_, encodeCommand_of_failure (s := encInitialised s) hchecks,
      sameEncFields_of rfl rfl rfl rfl rfl rfl rfl rfl,
      verdict_of_failure hchecks ⟨rfl, rfl, rfl, rfl⟩⟩
  | none =>
    obtain ⟨hsrc, hout⟩ := hclear hchecks
    exact ⟨_, encodeCommand_of_pass (s := encInitialised s) hchecks hsrc hout,
      sameEncFields_of rfl rfl rfl rfl rfl rfl rfl rfl, verdict_of_pass hchecks rfl⟩

/-- Settles O38: the verdict on the seven checks, read off one by one. -/
theorem encodeStartChecksInOrder : Obligations.EncodeStartChecksInOrder := by
  intro s v hm hv hb hclear size e w h ch bound src
  obtain ⟨t, ht, hfields, hverdict⟩ := startEncode_verdict hclear
  have hwraps := not_regionsOk_iff (cfg := Config.block) (r := srcRegion e) (r' := outRegion e)
  have hoverlap := regionsOverlap_eq_true (srcRegion e) (outRegion e)
  refine ⟨t, (step_startEnc (c := 0x02) hm hb hv (by decide)).trans ht, hfields,
    hverdict.ite not_channelsOk_iff fun hr => hr.ite zeroDimension_iff fun hr => hr.ite not_fits_iff
      fun hr => hr.ite decide_eq_true_iff fun hr => hr.ite hwraps fun hr => hr.ite hoverlap fun hr =>
        hr.ite decide_eq_true_iff fun hr => ?_⟩
  rw [hr.pass]
  exact ⟨rfl, rfl, rfl, rfl, rfl, rfl, rfl, rfl, rfl, rfl, blank_get, rfl, rfl⟩

/-! ## Codes of no command -/

theorem toByte_ne {v : Nat} {c : Byte} (h : v % 256 ≠ c.toNat) : toByte v ≠ c := fun hc =>
  h (by rw [← hc, toByte_toNat])

theorem startDecCommand_unknown {cfg : Config} {c : Byte} (s : State) (h1 : c ≠ 0x01)
    (h3 : c ≠ 0x03) : startDecCommand cfg c s =
      .next (s.mapDec fun d => (startDec c d).finish .invalidArgument) := by
  rw [startDecCommand, if_neg h1, if_neg h3]
  rfl

theorem startEncCommand_unknown {cfg : Config} {c : Byte} (s : State) (h2 : c ≠ 0x02) :
    startEncCommand cfg c s = .next (s.mapEnc fun e => (startEnc c e).finish .invalidArgument) := by
  rw [startEncCommand, if_neg h2]
  rfl

/-- Code 0 changes nothing, whether the engine is idle or not (R34, R136). -/
theorem hostMove_codeZero {cfg : Config} {g : Engine} {v : Nat} (s : State) (hv : v % 256 = 0) :
    hostMove cfg (.writeField g 0x00 v) s = .next s := by
  have h0 : toByte v = 0 := toByte_of_mod hv
  cases g with
  | dec =>
    rw [hostMove, hostWriteDec, if_pos rfl, if_pos h0, ite_self]
  | enc =>
    rw [hostMove, hostWriteEnc, if_pos rfl, if_pos h0, ite_self]

/-- Settles O40: neither engine knows the code, and code 0 starts nothing. -/
theorem unknownCommandIsInvalidArgument : Obligations.UnknownCommandIsInvalidArgument := by
  refine fun s v => ⟨fun hm hb h0 h1 h3 => ?_, fun hm hb h0 h2 => ?_, fun g hm h0 => ?_⟩
  · have hstart := step_startDec hm hb (toByte_toNat v).symm (toByte_ne h0)
    exact ⟨_, hstart.trans (startDecCommand_unknown _ (toByte_ne h1) (toByte_ne h3)),
      ⟨rfl, rfl, rfl, rfl⟩, ⟨rfl, rfl, rfl, rfl⟩, sameDecFields_of rfl rfl rfl rfl rfl⟩
  · have hstart := step_startEnc hm hb (toByte_toNat v).symm (toByte_ne h0)
    exact ⟨_, hstart.trans (startEncCommand_unknown _ (toByte_ne h2)), ⟨rfl, rfl, rfl, rfl⟩,
      sameEncFields_of rfl rfl rfl rfl rfl rfl rfl rfl⟩
  · exact (stepWith_host hm).trans (hostMove_codeZero _ h0)

end Sys2Proof.CommandProofs
end

section
/-! PROOFS. The engines apart from each other and from the host: a running command raises no error, a
step of one engine does not involve the other, an idle engine's turn passes, and a field write reaches
its own engine only (O41, O42, O54, O55). -/

namespace Sys2Proof.ExceptionProofs

open Sys2Proof.Machine Sys2Proof.Safety Sys2Proof.Laws Sys2Proof.StateProofs Sys2Proof.MemoryProofs
  Sys2Proof.DecoderProofs Sys2Proof.EncoderProofs

/-! ## No error after the start checks -/

/-- A pixel step of DEC ends the command with code 0 or leaves STATUS alone (R115). -/
theorem pixelStep_keeps_ok {s t : State} (h : PixelStep s t) (hok : s.dec.status.code = .ok) :
    t.dec.status.code = .ok := by
  by_cases hlast : s.dec.pix + 1 = s.dec.n
  · rw [(h.last hlast).1]
    rfl
  · rw [(h.more hlast).1, hok]

/-- A pixel step of ENC ends the command with code 0 or leaves STATUS alone (R131). -/
theorem sourceStep_keeps_ok {cfg : Config} {s t : State} (h : SourceStep cfg s t)
    (hok : s.enc.status.code = .ok) : t.enc.status.code = .ok := by
  by_cases hlast : s.enc.pix + 1 = s.enc.n
  · rw [(h.last hlast).1]
    rfl
  · rw [(h.more hlast).1, hok]

/-- Settles O42: the invariant gives every access room, and code 0 to a running command. -/
theorem noErrorAfterStartChecks : Obligations.NoErrorAfterStartChecks := by
  refine fun s h => ⟨fun hm => ?_, fun hm => ?_⟩
  · have hok := (h.decode (busy_of_decMoves hm)).code
    obtain ⟨t, ht⟩ := stepWith_dec_answers h hm
    exact ⟨t, ht, pixelStep_keeps_ok (pixelStep_of_next hm ht) hok⟩
  · have hok := (h.encode (busy_of_encMoves hm)).code
    by_cases h0 : s.enc.op = 0
    · exact ⟨_, stepWith_enc_header h hm h0, hok⟩
    · obtain ⟨t, ht, hstep⟩ := sourceStep_answers h hm h0
      exact ⟨t, ht, sourceStep_keeps_ok hstep hok⟩

/-! ## Whose turn it is -/

theorem mover_of_turn {s : State} {a : Agent} (h : s.turns.head? = some a) : mover s = a := by
  obtain ⟨rest, hturns⟩ := List.head?_eq_some_iff.mp h
  rw [mover, hturns]

/-- With no turn pending a running DEC comes before ENC, so ENC's state does not matter (log 4). -/
theorem decMoves_mapEnc {s : State} (g : Encoder → Encoder) (h : DecMoves s) :
    DecMoves (s.mapEnc g) := by
  obtain ⟨hm, hrun⟩ := h
  refine ⟨?_, hrun⟩
  cases hturns : s.turns with
  | nil => simp only [mover, mapEnc_turns, hturns, defaultAgent, mapEnc_dec, hrun, if_true]
  | cons a rest => simpa only [mover, mapEnc_turns, hturns] using hm

/-- Settles O55: an engine with BUSY = 0 is not running. -/
theorem idleEngineExecutesNothing : Obligations.IdleEngineExecutesNothing := by
  refine fun s => ⟨fun hturn hidle => ?_, fun hturn hidle => ?_⟩
  · have hrest : ¬decRunning s.endTurn.dec = true := by simp [decRunning, hidle]
    rw [step, stepWith, mover_of_turn hturn, agentStep, if_neg hrest, State.endTurn]
  · have hrest : ¬encRunning s.endTurn.enc = true := by simp [encRunning, hidle]
    rw [step, stepWith, mover_of_turn hturn, agentStep, if_neg hrest, State.endTurn]

/-! ## A step of one engine beside any other engine -/

theorem mapDec_mapEnc (s : State) (f : Decoder → Decoder) (g : Encoder → Encoder) :
    (s.mapEnc g).mapDec f = (s.mapDec f).mapEnc g := rfl

theorem emitPixel_mapEnc {cfg : Config} {s t : State} (g : Encoder → Encoder)
    (h : emitPixel cfg s = .next t) : emitPixel cfg (s.mapEnc g) = .next (t.mapEnc g) := by
  by_cases hroom : spanOk cfg (pixelAddr s.dec)
      (outBytes s.dec.srcCh s.dec.outCh s.dec.cur).length = true
  · obtain rfl := emitPixel_next h
    exact emitPixel_of_room (s := s.mapEnc g) hroom
  · simp [emitPixel, hroom] at h

/-- Which case of R107 applies does not depend on ENC. -/
theorem decPath_mapEnc {cfg : Config} {s : State} {f : Decoder → Decoder} (g : Encoder → Encoder)
    (h : DecPath cfg s f) : DecPath cfg (s.mapEnc g) f := by
  cases h with
  | activeRun h => exact .activeRun h
  | opcode i h hsp hf => exact .opcode i h hsp hf
  | exhausted h hsp => exact .exhausted h hsp

/-- A pixel step of DEC neither reads nor changes ENC (R157). -/
theorem decodePixel_mapEnc {cfg : Config} {s t : State} (g : Encoder → Encoder)
    (h : decodePixel cfg s = .next t) : decodePixel cfg (s.mapEnc g) = .next (t.mapEnc g) := by
  obtain ⟨f, hp, -⟩ := decodePixel_next h
  rw [decodePixel_of_path hp] at h
  rw [decodePixel_of_path (decPath_mapEnc g hp), mapDec_mapEnc, emitPixel_mapEnc g h]

theorem putBytes_mapDec {cfg : Config} {bs : List Byte} {s t : State} (f : Decoder → Decoder)
    (h : putBytes cfg bs s = .next t) : putBytes cfg bs (s.mapDec f) = .next (t.mapDec f) := by
  by_cases hroom : (bs.isEmpty || spanOk cfg (s.enc.ob + s.enc.op) bs.length) = true
  · obtain rfl := putBytes_next h
    exact if_pos hroom
  · simp [putBytes, hroom] at h

theorem andThen_next {o : Host.Outcome State Fault Refusal}
    {k : State → Host.Outcome State Fault Refusal} {t : State} (h : andThen o k = .next t) :
    ∃ u, o = .next u ∧ k u = .next t := by
  cases o with
  | next u => exact ⟨u, rfl, h⟩
  | fault r => cases h
  | refused r => cases h

/-- The pixel step of ENC through what the pixel puts and leaves of the engine (R120, R131). -/
theorem encodePixel_eq (cfg : Config) (s : State) : encodePixel cfg s =
    if spanOk cfg (sourceAddr s.enc) (pixelBytes s.enc.ch) then
      if encLast s then
        andThen (putBytes cfg ((encOut s).1 ++ cfg.trailer.toList) (encTaken s)) fun u =>
          .next (u.mapEnc encodeFinish)
      else putBytes cfg (encOut s).1 (encTaken s)
    else .fault (.addressOutsideMemory (sourceAddr s.enc + pixelBytes s.enc.ch - 1)) := rfl

theorem encLast_mapDec (s : State) (f : Decoder → Decoder) : encLast (s.mapDec f) = encLast s := rfl

theorem encOut_mapDec (s : State) (f : Decoder → Decoder) : encOut (s.mapDec f) = encOut s := rfl

theorem encTaken_mapDec (s : State) (f : Decoder → Decoder) :
    encTaken (s.mapDec f) = (encTaken s).mapDec f := rfl

theorem encodePixel_mapDec {cfg : Config} {s t : State} (f : Decoder → Decoder)
    (h : encodePixel cfg s = .next t) : encodePixel cfg (s.mapDec f) = .next (t.mapDec f) := by
  rw [encodePixel_eq] at h ⊢
  rw [encLast_mapDec, encOut_mapDec, encTaken_mapDec, mapDec_enc]
  split at h
  · rename_i hroom
    rw [if_pos hroom]
    split at h
    · rename_i hlast
      obtain ⟨u, hput, hfinish⟩ := andThen_next h
      obtain rfl := Host.Outcome.next.inj hfinish
      rw [if_pos hlast, putBytes_mapDec f hput]
      rfl
    · rename_i hmore
      rw [if_neg hmore, putBytes_mapDec f h]
  · cases h

/-- A step of ENC neither reads nor changes DEC (R157). -/
theorem encodeStep_mapDec {cfg : Config} {s t : State} (f : Decoder → Decoder)
    (h : encodeStep cfg s = .next t) : encodeStep cfg (s.mapDec f) = .next (t.mapDec f) := by
  unfold encodeStep at h
  split at h
  · rename_i h0
    exact (if_pos h0).trans (putBytes_mapDec f h)
  · rename_i h0
    exact (if_neg h0).trans (encodePixel_mapDec f h)

theorem endTurn_mapEnc (s : State) (g : Encoder → Encoder) :
    (s.mapEnc g).endTurn = s.endTurn.mapEnc g := rfl

theorem endTurn_mapDec (s : State) (f : Decoder → Decoder) :
    (s.mapDec f).endTurn = s.endTurn.mapDec f := rfl

theorem stepWith_dec_mapEnc {cfg : Config} {s t : State} (g : Encoder → Encoder) (hm : DecMoves s)
    (h : stepWith cfg s = .next t) : stepWith cfg (s.mapEnc g) = .next (t.mapEnc g) := by
  rw [stepWith_dec hm] at h
  rw [stepWith_dec (decMoves_mapEnc g hm), endTurn_mapEnc, decodePixel_mapEnc g h]

/-- That ENC moves beside the other DEC too has to be given: with no turn pending it depends on DEC
(log 4). -/
theorem stepWith_enc_mapDec {cfg : Config} {s t : State} (f : Decoder → Decoder) (hm : EncMoves s)
    (hm' : EncMoves (s.mapDec f)) (h : stepWith cfg s = .next t) :
    stepWith cfg (s.mapDec f) = .next (t.mapDec f) := by
  rw [stepWith_enc hm] at h
  rw [stepWith_enc hm', endTurn_mapDec, encodeStep_mapDec f h]

theorem stepWith_enc_keeps_dec {cfg : Config} {s t : State} (hm : EncMoves s)
    (h : stepWith cfg s = .next t) : t.dec = s.dec := by
  rcases stepWith_enc_next hm h with ⟨-, rfl⟩ | ⟨-, rfl⟩
  · rfl
  · rw [encPixelDone_frame, endTurn_dec]

/-- Settles O54: who moves, and the engine's own step, look past the other engine. -/
theorem enginesShareNoState : Obligations.EnginesShareNoState := by
  refine ⟨fun s t e hm ht => ?_, fun s t d hturn hrun ht => ?_⟩
  · exact ⟨(pixelStep_of_next hm ht).enc, stepWith_dec_mapEnc (fun _ => e) hm ht⟩
  · have hm : EncMoves s := ⟨mover_of_turn hturn, hrun⟩
    have hm' : EncMoves (s.mapDec fun _ => d) := ⟨mover_of_turn hturn, hrun⟩
    exact ⟨stepWith_enc_keeps_dec hm ht, stepWith_enc_mapDec (fun _ => d) hm hm' ht⟩

/-! ## Field writes -/

/-- All that a field write to DEC can do: it is dropped, it starts a command, or it sets a field (R34,
R38). -/
theorem hostWriteDec_cases {cfg : Config} {no v : Nat} {s t : State}
    (h : hostWriteDec cfg no v s = .next t) :
    t = s ∨ startDecCommand cfg (toByte v) s = .next t ∨ t = s.mapDec (writeDecField cfg no v) := by
  unfold hostWriteDec at h
  split at h
  · exact .inl (Host.Outcome.next.inj h).symm
  · split at h
    · split at h
      · exact .inl (Host.Outcome.next.inj h).symm
      · exact .inr (.inl h)
    · exact .inr (.inr (Host.Outcome.next.inj h).symm)

/-- All that a field write to ENC can do (R34, R38). -/
theorem hostWriteEnc_cases {cfg : Config} {no v : Nat} {s t : State}
    (h : hostWriteEnc cfg no v s = .next t) :
    t = s ∨ startEncCommand cfg (toByte v) s = .next t ∨ t = s.mapEnc (writeEncField cfg no v) := by
  unfold hostWriteEnc at h
  split at h
  · exact .inl (Host.Outcome.next.inj h).symm
  · split at h
    · split at h
      · exact .inl (Host.Outcome.next.inj h).symm
      · exact .inr (.inl h)
    · exact .inr (.inr (Host.Outcome.next.inj h).symm)

/-- A field write settles no unseen write (log 6). -/
theorem hostWriteDec_unseen {cfg : Config} {no v : Nat} {s t : State}
    (h : hostWriteDec cfg no v s = .next t) : t.unseen = s.unseen := by
  rcases hostWriteDec_cases h with rfl | hstart | rfl
  · rfl
  · obtain ⟨-, -, hunseen, -⟩ := startDecCommand_next hstart
    exact hunseen
  · rfl

theorem hostWriteEnc_unseen {cfg : Config} {no v : Nat} {s t : State}
    (h : hostWriteEnc cfg no v s = .next t) : t.unseen = s.unseen := by
  rcases hostWriteEnc_cases h with rfl | hstart | rfl
  · rfl
  · obtain ⟨-, -, hunseen, -⟩ := startEncCommand_next hstart
    exact hunseen
  · rfl

/-- Settles O41, by the engine the field is of. -/
theorem fieldWritesStoreNoMemory : Obligations.FieldWritesStoreNoMemory := by
  intro s t g no v hm ht
  cases g with
  | dec =>
    have hmove : hostWriteDec Config.block no v (afterTake s) = .next t :=
      (stepWith_host hm).symm.trans ht
    obtain ⟨hmem, henc, -⟩ := hostWriteDec_next hmove
    have hunseen := hostWriteDec_unseen hmove
    refine ⟨fun _ => by rw [hmem, afterTake_mem], hunseen,
      fun _ => ⟨henc, fun hb h0 hv => ?_⟩, nofun⟩
    subst h0
    obtain ⟨-, -, -, -, -, hlen⟩ :=
      startDecCommand_next ((hostWriteDec_command (s := afterTake s) hb hv).symm.trans hmove)
    exact hlen
  | enc =>
    have hmove : hostWriteEnc Config.block no v (afterTake s) = .next t :=
      (stepWith_host hm).symm.trans ht
    obtain ⟨hmem, hdec, -⟩ := hostWriteEnc_next hmove
    have hunseen := hostWriteEnc_unseen hmove
    refine ⟨fun _ => by rw [hmem, afterTake_mem], hunseen,
      nofun, fun _ => ⟨hdec, fun hb h0 hv => ?_⟩⟩
    subst h0
    obtain ⟨-, -, -, -, -, hlen⟩ :=
      startEncCommand_next ((hostWriteEnc_command (s := afterTake s) hb hv).symm.trans hmove)
    exact hlen

end Sys2Proof.ExceptionProofs
end

section
/-! PROOFS. Starting afresh and staying idle: a command's start step looks at nothing of its engine but
the command fields, and no step but a host's write of a code to CMD takes an engine out of idleness (O43,
O56). -/

namespace Sys2Proof.ResetProofs

open Sys2Proof.Machine Sys2Proof.Safety Sys2Proof.Laws Sys2Proof.StateProofs Sys2Proof.MemoryProofs
  Sys2Proof.CommandProofs

/-! ## Idle engines -/

theorem not_decMoves_of_idle {s : State} (h : s.dec.status.busy = false) : ¬DecMoves s := fun hm =>
  Bool.eq_false_iff.mp h (busy_of_decMoves hm)

theorem not_encMoves_of_idle {s : State} (h : s.enc.status.busy = false) : ¬EncMoves s := fun hm =>
  Bool.eq_false_iff.mp h (busy_of_encMoves hm)

theorem decRunning_of_idle {d : Decoder} (h : d.status.busy = false) : decRunning d = false := by
  rw [decRunning, h, Bool.false_and]

theorem encRunning_of_idle {e : Encoder} (h : e.status.busy = false) : encRunning e = false := by
  rw [encRunning, h, Bool.false_and]

/-- Whose turn it is depends on the turns and on which engines run (U8, log 4). -/
theorem mover_congr {s u : State} (hturns : u.turns = s.turns)
    (hdec : decRunning u.dec = decRunning s.dec) (henc : encRunning u.enc = encRunning s.enc) :
    mover u = mover s := by
  simp only [mover, defaultAgent, hturns, hdec, henc]

/-- The host's move comes next beside any idle DEC in place of an idle one. -/
theorem hostMoves_setDec {s : State} {op : HostOp} {d : Decoder} (hm : HostMoves s op)
    (hb : s.dec.status.busy = false) (hidle : d.status.busy = false) :
    HostMoves { s with dec := d } op := by
  have hrun : decRunning d = decRunning s.dec :=
    (decRunning_of_idle hidle).trans (decRunning_of_idle hb).symm
  have hmover : mover { s with dec := d } = mover s := mover_congr rfl hrun rfl
  exact ⟨hmover.trans hm.1, hm.2⟩

/-- The host's move comes next beside any idle ENC in place of an idle one. -/
theorem hostMoves_setEnc {s : State} {op : HostOp} {e : Encoder} (hm : HostMoves s op)
    (hb : s.enc.status.busy = false) (hidle : e.status.busy = false) :
    HostMoves { s with enc := e } op := by
  have hrun : encRunning e = encRunning s.enc :=
    (encRunning_of_idle hidle).trans (encRunning_of_idle hb).symm
  have hmover : mover { s with enc := e } = mover s := mover_congr rfl rfl hrun
  exact ⟨hmover.trans hm.1, hm.2⟩

/-! ## A start forgets the past -/

/-- DEC with the command fields of another (R35). -/
def withDecFields (d d₀ : Decoder) : Decoder :=
  { d with
    frameBase := d₀.frameBase, frameLen := d₀.frameLen, dstBase := d₀.dstBase, dstCap := d₀.dstCap
    outChReq := d₀.outChReq }

/-- ENC with the command fields of another (R36). -/
def withEncFields (e e₀ : Encoder) : Encoder :=
  { e with
    srcBase := e₀.srcBase, width := e₀.width, height := e₀.height, channels := e₀.channels
    stride := e₀.stride, outBase := e₀.outBase, outCap := e₀.outCap, colorspace := e₀.colorspace }

theorem withDecFields_of_same {d d₀ : Decoder} (hframe : d.frameBase = d₀.frameBase)
    (hlen : d.frameLen = d₀.frameLen) (hdst : d.dstBase = d₀.dstBase) (hcap : d.dstCap = d₀.dstCap)
    (hch : d.outChReq = d₀.outChReq) : withDecFields d d₀ = d := by
  rw [withDecFields, ← hframe, ← hlen, ← hdst, ← hcap, ← hch]

theorem withEncFields_of_same {e e₀ : Encoder} (hsrc : e.srcBase = e₀.srcBase)
    (hwidth : e.width = e₀.width) (hheight : e.height = e₀.height) (hch : e.channels = e₀.channels)
    (hstride : e.stride = e₀.stride) (hout : e.outBase = e₀.outBase) (hcap : e.outCap = e₀.outCap)
    (hcs : e.colorspace = e₀.colorspace) : withEncFields e e₀ = e := by
  rw [withEncFields, ← hsrc, ← hwidth, ← hheight, ← hch, ← hstride, ← hout, ← hcap, ← hcs]

/-- A DECODE that starts does so in the same way from any DEC of the same command fields: its checks
read no other field, and R38, the HDR report and R106 set every other one. -/
theorem startDecode_withDecFields {cfg : Config} {s t : State} (d : Decoder)
    (h : startDecCommand cfg 0x01 s = .next t) (hrun : t.dec.status.busy = true) :
    startDecCommand cfg 0x01 (s.mapDec (withDecFields d)) = .next t := by
  rcases decodeCommand_next h with ⟨code, -, rfl⟩ | ⟨hargs, hframe, hrest⟩
  · cases hrun
  · rcases hrest with ⟨code, -, rfl⟩ | ⟨hheader, hdst, rfl⟩
    · cases hrun
    · exact decodeCommand_of_pass (s := (s.mapDec (withDecFields d)).mapDec (startDec 0x01))
        hargs hframe hheader hdst

/-- An ENCODE that starts does so in the same way from any ENC of the same command fields (R38, R142). -/
theorem startEncode_withEncFields {cfg : Config} {s t : State} (e : Encoder)
    (h : startEncCommand cfg 0x02 s = .next t) (hrun : t.enc.status.busy = true) :
    startEncCommand cfg 0x02 (s.mapEnc (withEncFields e)) = .next t := by
  rcases encodeCommand_next h with ⟨code, -, rfl⟩ | ⟨hchecks, hsrc, hout, rfl⟩
  · cases hrun
  · exact encodeCommand_of_pass (s := (s.mapEnc (withEncFields e)).mapEnc (startEnc 0x02))
      hchecks hsrc hout

/-- Settles O43: the engine put in place is one with the old one's command fields. -/
theorem startForgetsThePast : Obligations.StartForgetsThePast := by
  refine ⟨fun s t v d hm hv hb hidle hframe hlen hdst hcap hch ht hrun => ?_,
    fun s t v e hm hv hb hidle hsrc hwidth hheight hch hstride hout hcap hcs ht hrun => ?_⟩
  · have hd : withDecFields d s.dec = d := withDecFields_of_same hframe hlen hdst hcap hch
    have hstart := (step_startDec (c := 0x01) hm hb hv (by decide)).symm.trans ht
    have hagain := startDecode_withDecFields d hstart hrun
    rw [State.mapDec, afterTake_dec, hd] at hagain
    exact (step_startDec (c := 0x01) (hostMoves_setDec hm hb hidle) hidle hv (by decide)).trans hagain
  · have he : withEncFields e s.enc = e :=
      withEncFields_of_same hsrc hwidth hheight hch hstride hout hcap hcs
    have hstart := (step_startEnc (c := 0x02) hm hb hv (by decide)).symm.trans ht
    have hagain := startEncode_withEncFields e hstart hrun
    rw [State.mapEnc, afterTake_enc, he] at hagain
    exact (step_startEnc (c := 0x02) (hostMoves_setEnc hm hb hidle) hidle hv (by decide)).trans hagain

/-! ## Idle until a code is written to CMD -/

@[simp] theorem writeDecField_status (cfg : Config) (no v : Nat) (d : Decoder) :
    (writeDecField cfg no v d).status = d.status := by
  unfold writeDecField
  split <;> rfl

@[simp] theorem writeEncField_status (cfg : Config) (no v : Nat) (e : Encoder) :
    (writeEncField cfg no v e).status = e.status := by
  unfold writeEncField
  split <;> rfl

/-- A write to a field of DEC other than CMD leaves its STATUS alone, whether it is dropped or not. -/
theorem hostWriteDec_keeps_status {cfg : Config} {no v : Nat} {s t : State} (hno : no ≠ 0)
    (h : hostWriteDec cfg no v s = .next t) : t.dec.status = s.dec.status := by
  cases hb : s.dec.status.busy with
  | true =>
    obtain rfl := Host.Outcome.next.inj ((hostWriteDec_dropped cfg v (.inl hb)).symm.trans h)
    rfl
  | false =>
    have hfield := hostWriteDec_field cfg v hb (Nat.pos_of_ne_zero hno)
    obtain rfl := Host.Outcome.next.inj (hfield.symm.trans h)
    exact writeDecField_status ..

/-- A write to a field of ENC other than CMD leaves its STATUS alone, whether it is dropped or not. -/
theorem hostWriteEnc_keeps_status {cfg : Config} {no v : Nat} {s t : State} (hno : no ≠ 0)
    (h : hostWriteEnc cfg no v s = .next t) : t.enc.status = s.enc.status := by
  cases hb : s.enc.status.busy with
  | true =>
    obtain rfl := Host.Outcome.next.inj ((hostWriteEnc_dropped cfg v (.inl hb)).symm.trans h)
    rfl
  | false =>
    have hfield := hostWriteEnc_field cfg v hb (Nat.pos_of_ne_zero hno)
    obtain rfl := Host.Outcome.next.inj (hfield.symm.trans h)
    exact writeEncField_status ..

/-- Among the host's moves only the write of a nonzero code to CMD changes a STATUS (R34, R38, R136). -/
theorem hostMove_keeps_status {cfg : Config} {op : HostOp} {s t : State}
    (hop : ∀ g v, op = .writeField g 0x00 v → v % 256 = 0) (h : hostMove cfg op s = .next t) :
    t.dec.status = s.dec.status ∧ t.enc.status = s.enc.status := by
  cases op with
  | writeField g no v =>
    by_cases hno : no = 0
    · subst hno
      obtain rfl := Host.Outcome.next.inj ((hostMove_codeZero s (hop g v rfl)).symm.trans h)
      exact ⟨rfl, rfl⟩
    · cases g with
      | dec =>
        obtain ⟨-, henc, -⟩ := hostWriteDec_next h
        exact ⟨hostWriteDec_keeps_status hno h, by rw [henc]⟩
      | enc =>
        obtain ⟨-, hdec, -⟩ := hostWriteEnc_next h
        exact ⟨by rw [hdec], hostWriteEnc_keeps_status hno h⟩
  | readField g no =>
    cases g <;> obtain rfl := Host.Outcome.next.inj h <;> simp
  | writeByte a v =>
    obtain ⟨-, -, rfl⟩ := hostWriteByte_next h
    exact ⟨rfl, rfl⟩
  | readByte a =>
    rw [hostReadByte_next h]
    exact ⟨rfl, rfl⟩

/-- Settles O56: beside idle engines a step is a move of the host or a turn that passes. -/
theorem idleUntilCommandWrite : Obligations.IdleUntilCommandWrite := by
  refine ⟨⟨rfl, rfl⟩, fun s t hdec henc hop ht => ?_⟩
  rcases stepWith_cases Config.block s with ⟨hm, -⟩ | ⟨hm, -⟩ | ⟨op, hm, hstep⟩ | hstep
  · exact absurd hm (not_decMoves_of_idle hdec)
  · exact absurd hm (not_encMoves_of_idle henc)
  · have hmove : hostMove Config.block op (afterTake s) = .next t := hstep.symm.trans ht
    obtain ⟨hdec', henc'⟩ := hostMove_keeps_status (fun g v h => hop g v (h ▸ hm)) hmove
    rw [hdec', henc']
    exact ⟨hdec, henc⟩
  · obtain rfl := Host.Outcome.next.inj (hstep.symm.trans ht)
    exact ⟨hdec, henc⟩

end Sys2Proof.ResetProofs
end
